-- ==== Sys2Proof/Config.lean ====
section
/-! DEFINITION. The fixed parameters of 00_scope.md R9, the open parameters of R10, and the free values. -/

namespace Sys2Proof.Config

/-! ### The fixed parameters (R9), each at the value the document states (R5, D42)

The model reads every one of them from here, so an audit that changes one changes it here alone.  `wordBits` and the two
widths derived below are abbreviations, because they stand in types. -/

/-- `WORD_BITS`: the width of a Link Word, and the number of bit periods of an exchange. -/
@[simp] abbrev wordBits : Nat := 32

/-- `SENTINEL`: the reserved "idle / resynchronize" Link Word (30_encoding.md R81). -/
def sentinel : BitVec wordBits := 0xDEADB00F

/-- `BUF_SIZE`: the bytes of the stream buffer. -/
def bufSize : Nat := 64

/-- `STRIDE`: the bytes one Link Word carries; `WORD_BITS` is 8 times as many bits. -/
def stride : Nat := 4

/-- `CLK_IDLE`: the idle level of CLK_OUT. -/
def clkIdle : Bool := true

/-- `DOUT_IDLE`: the idle level of DATA_OUT. -/
def doutIdle : Bool := true

/-- The width of the bit index, which counts 0 to `WORD_BITS` − 1 (R11). -/
@[simp] abbrev indexBits : Nat := 5

/-- The width of OFF and LEN, which hold 0 to `BUF_SIZE` (R11). -/
@[simp] abbrev offsetBits : Nat := 7

/-! The host's delays, in seconds (R5, 70_reset_and_hazards.md R283).  They are the host's, and no rule of the block reads
them (R285; log entry 13). -/

/-- The delay of CONNECTING after a resolution or connection failure. -/
def connectDelay : Nat := 1

/-- The delay of CONNECTING on repeated connection failure. -/
def repeatedConnectDelay : Nat := 4

/-- The steps of COOLDOWN's countdown. -/
def cooldownSteps : Nat := 3

/-- The delay of each step of the countdown. -/
def cooldownStepDelay : Nat := 1

/-! ### The open parameters (R10). -/

/-- `PIN_MAP` (20_memory.md R70, D15): which controller pin carries each logical signal.  No rule reads it. -/
structure PinMap where
  clkOut  : Nat
  dataOut : Nat
  dataIn  : Nat
  busyIn  : Nat
  deriving DecidableEq, Repr, Inhabited

/-- The open parameters of R10.  "A model takes each of these as an argument, and a claim holds for every value the
claim does not fix." -/
structure Params where
  /-- `BUSY_LEVEL`: the level of BUSY_IN that means "busy" (D9). -/
  busyLevel   : Bool
  /-- `BUSY_POLL_MAX`: the largest number of BUSY_IN samples one busy-wait takes (D10). -/
  busyPollMax : Nat
  /-- `SYNC_LIMIT`: `none` is the reference SYNCING, `some n` (n ≥ 1) the hardened bound (D19). -/
  syncLimit   : Option Nat
  /-- `T_LOW_MIN`, in an unnamed unit; no rule reads it (70_reset_and_hazards.md R285). -/
  tLowMin     : Nat
  /-- `T_HIGH_MIN`; no rule reads it (R285). -/
  tHighMin    : Nat
  /-- `T_SETTLE`; no rule reads it (R285). -/
  tSettle     : Nat
  /-- `PIN_MAP`; no rule reads it (R70). -/
  pinMap      : PinMap
  deriving DecidableEq, Repr, Inhabited

/-- The parameters of the implementation at hand: OPEN, so nothing about them can be proved (log entry 1). -/
opaque implementation : Params

/-! ### The free values (40_link_phy.md R111, D36; 93_implementation_defined.md rows 7 and 8). -/

/-- The n-th BUSY_IN sample that no scripted level supplies: any bit (log entry 2). -/
opaque freeBusyIn : Nat → Bool

/-- The n-th DATA_IN sample that no scripted level supplies: any bit (log entry 2). -/
opaque freeDataIn : Nat → Bool

/-- What a host branch looks at when the preceding `rd` returned no value (log entry 7). -/
opaque freeReadValue : Nat → BitVec wordBits

end Sys2Proof.Config
end

