-- ==== Sys2Proof/Word.lean ====
section
/-! DEFINITION. The words of the block (spec 00_scope.md R11, R12) and the eight command names (30_encoding.md R86). -/

namespace Sys2Proof

/-- A Link Word (30_encoding.md R81), `WORD_BITS` wide (R9, R11).  The registers of the bus map and the command word are as
wide.  Every value is unsigned (R12). -/
abbrev Word := BitVec Config.wordBits

/-- A byte of the stream buffer. -/
abbrev Byte := BitVec 8

/-- The eight commands of the opcode map (30_encoding.md R86). -/
inductive Opcode where
  | init
  | exchange
  | encode
  | sendChunk
  | connected
  | sync
  | close
  | cooldownDone
  deriving DecidableEq, Repr

end Sys2Proof
end

