-- ==== Sys2Proof/Syntax.lean ====
section
/-! DEFINITION. The instructions: one constructor per row of spec/opcode_table.json, the eight commands of format CMD
(30_encoding.md R86) and the twelve host accesses of format BUS (20_memory.md R66, 30_encoding.md R88). -/

namespace Sys2Proof

inductive Instr where
  -- format CMD: a command has no operand fields (R85)
  | init
  | exchange
  | encode
  | sendChunk
  | connected
  | sync
  | close
  | cooldownDone
  -- format BUS: 32-bit register accesses
  | wrCmd (v : Word)
  | rdStatus
  | rdTxw
  | wrTxw (v : Word)
  | rdRxw
  | rdFramew
  | rdOff
  | wrOff (v : Word)
  | rdLen
  | wrLen (v : Word)
  -- format BUS: byte accesses of BUF[k], k in 0 to 63
  | wrbBuf (k : Nat) (v : Byte)
  | rdbBuf (k : Nat)
  deriving DecidableEq, Repr

end Sys2Proof
end

