-- ==== Sys2Proof/WellFormed.lean ====
section
/-! DEFINITION. Which instruction terms are instructions: the byte index of a BUF access is "k in 0 to 63" (43_control.md
R223, R224; 30_encoding.md R91).  Every other operand is any value of its width: a value the block does not accept is an
access that is refused when it runs (43_control.md R222, R225), not an ill-formed one. -/

namespace Sys2Proof

/-- The instruction is one the encodings of 30_encoding.md R86 and R88 can express. -/
def Instr.wellFormed : Instr → Bool
  | .wrbBuf k _ => decide (k < Config.bufSize)
  | .rdbBuf k => decide (k < Config.bufSize)
  | .init => true
  | .exchange => true
  | .encode => true
  | .sendChunk => true
  | .connected => true
  | .sync => true
  | .close => true
  | .cooldownDone => true
  | .wrCmd _ => true
  | .rdStatus => true
  | .rdTxw => true
  | .wrTxw _ => true
  | .rdRxw => true
  | .rdFramew => true
  | .rdOff => true
  | .wrOff _ => true
  | .rdLen => true
  | .wrLen _ => true

end Sys2Proof
end

