-- ==== Sys2Proof/Decode.lean ====
section
/-! DEFINITION. Decoding and encoding of the two instruction formats: the CMD word (30_encoding.md R85 to R87) and the BUS
access descriptor with its data (R88, 20_memory.md R66, R67, R69).  Decoding is total and refuses by name (R90). -/

namespace Sys2Proof

/-- One unit the block decodes (30_encoding.md R80): a 32-bit command word, or a 10-bit access descriptor with its data.
An 8-bit access uses data bits [7:0] and a read uses none (log entry 9). -/
inductive Encoded where
  | cmd (word : Word)
  | bus (desc : BitVec 10) (data : Word)
  deriving DecidableEq, Repr

/-- Why a unit is no instruction, under the names of 60_exceptions.md R242. -/
inductive DecodeReject where
  /-- A reserved command word (30_encoding.md R87). -/
  | reservedCommand (v : Word)
  /-- A reserved address (20_memory.md R69). -/
  | badAddress (a : Nat)
  /-- A width or alignment 20_memory.md R67 does not admit; `n` is the access width in bytes. -/
  | badAccessWidth (a : Nat) (n : Nat)
  /-- A write of STATUS, RXW or FRAMEW (43_control.md R222). -/
  | readOnly (a : Nat)
  /-- A read of CMD (43_control.md R221). -/
  | writeOnly (a : Nat)
  deriving DecidableEq, Repr

/-! ### The command word -/

/-- `OP = v[3:0]` (30_encoding.md R85). -/
def cmdOp (v : Word) : Nat := (v.extractLsb' 0 4).toNat

/-- `RSVD = v[31:4]`, which must be 0 (30_encoding.md R85). -/
def cmdReserved (v : Word) : BitVec (Config.wordBits - 4) := v.extractLsb' 4 (Config.wordBits - 4)

/-- The command a CMD word selects (30_encoding.md R86), or none when the word is reserved (R87). -/
def opcodeOf (v : Word) : Option Opcode :=
  if cmdReserved v = 0 then
    match cmdOp v with
    | 1 => some .init
    | 2 => some .exchange
    | 3 => some .encode
    | 4 => some .sendChunk
    | 5 => some .connected
    | 6 => some .sync
    | 7 => some .close
    | 8 => some .cooldownDone
    | _ => none
  else none

/-- The command word of a command (30_encoding.md R86). -/
def Opcode.word : Opcode → Word
  | .init => 0x00000001
  | .exchange => 0x00000002
  | .encode => 0x00000003
  | .sendChunk => 0x00000004
  | .connected => 0x00000005
  | .sync => 0x00000006
  | .close => 0x00000007
  | .cooldownDone => 0x00000008

/-- The instruction of a command. -/
def Opcode.instr : Opcode → Instr
  | .init => .init
  | .exchange => .exchange
  | .encode => .encode
  | .sendChunk => .sendChunk
  | .connected => .connected
  | .sync => .sync
  | .close => .close
  | .cooldownDone => .cooldownDone

/-- Decode a CMD word (30_encoding.md R86, R87). -/
def decodeCmd (v : Word) : Except DecodeReject Instr :=
  match opcodeOf v with
  | some op => .ok op.instr
  | none => .error (.reservedCommand v)

/-! ### The access descriptor -/

/-- `A = d[7:0]`, the byte address (30_encoding.md R88). -/
def busAddress (d : BitVec 10) : Nat := (d.extractLsb' 0 8).toNat

/-- `S = d[8]`: a 32-bit access, else an 8-bit one (30_encoding.md R88). -/
def busIsWord (d : BitVec 10) : Bool := d.getLsbD 8

/-- `W = d[9]`: a write, else a read (30_encoding.md R88). -/
def busIsWrite (d : BitVec 10) : Bool := d.getLsbD 9

/-- The access width in bytes. -/
def busWidth (d : BitVec 10) : Nat := if busIsWord d then 4 else 1

/-- A reserved address of the register map (20_memory.md R66): 0x1C to 0x3F, and from the end of BUF, 0x80, to 0xFF. -/
def addressReserved (a : Nat) : Bool :=
  (decide (0x1C ≤ a) && decide (a ≤ 0x3F)) || decide (0x40 + Config.bufSize ≤ a)

/-- The width and alignment 20_memory.md R67 admits at a mapped address. -/
def widthAdmitted (a : Nat) (isWord : Bool) : Bool :=
  if a ≤ 0x1B then isWord && decide (a % 4 = 0) else !isWord

/-- A 32-bit write of an aligned register address (20_memory.md R66, 43_control.md R222). -/
def decodeRegWrite (a : Nat) (v : Word) : Except DecodeReject Instr :=
  match a with
  | 0x00 => .ok (.wrCmd v)
  | 0x08 => .ok (.wrTxw v)
  | 0x14 => .ok (.wrOff v)
  | 0x18 => .ok (.wrLen v)
  | a => .error (.readOnly a)

/-- A 32-bit read of an aligned register address (20_memory.md R66, 43_control.md R221). -/
def decodeRegRead (a : Nat) : Except DecodeReject Instr :=
  match a with
  | 0x04 => .ok .rdStatus
  | 0x08 => .ok .rdTxw
  | 0x0C => .ok .rdRxw
  | 0x10 => .ok .rdFramew
  | 0x14 => .ok .rdOff
  | 0x18 => .ok .rdLen
  | a => .error (.writeOnly a)

/-- Decode a host access.  The checks stand in the order of 60_exceptions.md R243: address, width, then direction. -/
def decodeBus (d : BitVec 10) (v : Word) : Except DecodeReject Instr :=
  let a := busAddress d
  if addressReserved a then .error (.badAddress a)
  else if !widthAdmitted a (busIsWord d) then .error (.badAccessWidth a (busWidth d))
  else if a ≤ 0x1B then
    if busIsWrite d then decodeRegWrite a v else decodeRegRead a
  else if busIsWrite d then .ok (.wrbBuf (a - 0x40) (v.setWidth 8))
  else .ok (.rdbBuf (a - 0x40))

/-- The decoder: total on every unit (30_encoding.md R90). -/
def decode : Encoded → Except DecodeReject Instr
  | .cmd v => decodeCmd v
  | .bus d v => decodeBus d v

/-! ### The encoder -/

/-- A descriptor from its fields (30_encoding.md R88). -/
def busDesc (isWrite isWord : Bool) (a : BitVec 8) : BitVec 10 :=
  BitVec.ofBool isWrite ++ BitVec.ofBool isWord ++ a

/-- The unit of an instruction (30_encoding.md R86, R88; 20_memory.md R66). -/
def encode : Instr → Encoded
  | .init => .cmd Opcode.init.word
  | .exchange => .cmd Opcode.exchange.word
  | .encode => .cmd Opcode.encode.word
  | .sendChunk => .cmd Opcode.sendChunk.word
  | .connected => .cmd Opcode.connected.word
  | .sync => .cmd Opcode.sync.word
  | .close => .cmd Opcode.close.word
  | .cooldownDone => .cmd Opcode.cooldownDone.word
  | .wrCmd v => .bus (busDesc true true 0x00) v
  | .rdStatus => .bus (busDesc false true 0x04) 0
  | .rdTxw => .bus (busDesc false true 0x08) 0
  | .wrTxw v => .bus (busDesc true true 0x08) v
  | .rdRxw => .bus (busDesc false true 0x0C) 0
  | .rdFramew => .bus (busDesc false true 0x10) 0
  | .rdOff => .bus (busDesc false true 0x14) 0
  | .wrOff v => .bus (busDesc true true 0x14) v
  | .rdLen => .bus (busDesc false true 0x18) 0
  | .wrLen v => .bus (busDesc true true 0x18) v
  | .wrbBuf k v => .bus (busDesc true false (BitVec.ofNat 8 (0x40 + k))) (v.setWidth Config.wordBits)
  | .rdbBuf k => .bus (busDesc false false (BitVec.ofNat 8 (0x40 + k))) 0

/-- The host access that puts a unit on the bus: a command mnemonic alone means `wr CMD, word` (30_encoding.md R91). -/
def Encoded.access : Encoded → BitVec 10 × Word
  | .cmd v => (busDesc true true 0x00, v)
  | .bus d v => (d, v)

/-- The unit a row of spec/opcode_table.json stands for, from its bits: 32 bits are a CMD word; a shorter row is a BUS
descriptor in the first 16 bits, with the access data above it. -/
def tableUnit (nbits w : Nat) : Option Encoded :=
  if nbits = Config.wordBits then
    if w < 2 ^ Config.wordBits then some (.cmd (BitVec.ofNat Config.wordBits w)) else none
  else if w % 2 ^ 16 < 2 ^ 10 then
    some (.bus (BitVec.ofNat 10 (w % 2 ^ 16)) (BitVec.ofNat Config.wordBits (w / 2 ^ 16)))
  else none

/-- The instruction the decoder reads from an opcode-table row's bits. -/
def decodeTableWord (nbits w : Nat) : Option Instr :=
  match tableUnit nbits w with
  | none => none
  | some u =>
    match decode u with
    | .ok i => some i
    | .error _ => none

end Sys2Proof
end

