-- ==== Sys2Proof/Machine/State.lean ====
section
/-! DEFINITION. The state of the block and of the host and peer around it (10_state.md R20 to R42, 00_scope.md R15), as
plain data, and the state after reset (R41). -/

namespace Sys2Proof.Machine

/-- The value of an output line: 0, 1, or X, not yet driven (10_state.md R21). -/
inductive Level where
  | x
  | zero
  | one
  deriving DecidableEq, Repr

/-- The lines the block drives (00_scope.md R18, 40_link_phy.md R129). -/
inductive OutLine where
  | clkOut
  | dataOut
  | indOut
  deriving DecidableEq, Repr

/-- The lines the peer drives (10_state.md R22). -/
inductive InLine where
  | dataIn
  | busyIn
  deriving DecidableEq, Repr

/-- The handshake arbiter's states (10_state.md R28). -/
inductive ArbState where
  | connecting
  | syncing
  | streaming
  | cooldown
  deriving DecidableEq, Repr

/-- The sequencer phases (10_state.md R30).  The index of SETUP(i), LOW(i), HIGH(i) and SAMPLE(i) is the register `i` of
R31, which holds it (log entry 5). -/
inductive Phase where
  | idle
  | poll
  | setup
  | low
  | high
  | sample
  | restore
  | done
  | syncNext
  | chunkNext
  deriving DecidableEq, Repr

/-- The command that started the current exchange (10_state.md R31). -/
inductive Caller where
  | exchange
  | sync
  | sendChunk
  deriving DecidableEq, Repr

/-- The events of the trace (10_state.md R40). -/
inductive Event where
  | reset
  | configure
  | cmdBegin (op : Opcode)
  | cmdEnd (op : Opcode)
  | drive (l : OutLine) (v : Bool)
  | sample (l : InLine) (v : Bool)
  | xferBegin (tx : Word)
  | xferEnd (rx : Word)
  | busyBound
  | dataWord (w : Word)
  | collision (w : Word)
  | rendezvous (tries : Nat)
  | syncTimeout (tries : Nat)
  deriving DecidableEq, Repr

/-- The fault reasons of the sticky `faulted` mark (60_exceptions.md R241).  A fault is a NEXT state: it records its
reason, stops the command, and the host goes on. -/
inductive FaultReason where
  | unwrittenBufferByte (k : Nat)
  deriving DecidableEq, Repr

/-- The registers whose writes are range-checked (43_control.md R222). -/
inductive RangedReg where
  | off
  | len
  deriving DecidableEq, Repr

/-- The reasons of the sticky `refused` mark (60_exceptions.md R242).  A refusal is a NEXT state: it records its reason and
changes nothing else. -/
inductive RefuseReason where
  | reservedCommand (v : Word)
  | notInitialised (v : Word)
  | alreadyInitialised
  | wrongArbState (op : Opcode) (arb : ArbState)
  | outOfRange (reg : RangedReg) (v : Word)
  | readOnly (a : Nat)
  | writeOnly (a : Nat)
  | badAddress (a : Nat)
  | badAccessWidth (a : Nat) (n : Nat)
  deriving DecidableEq, Repr

/-- A STATUS field a host branch can test (30_encoding.md R91). -/
inductive StatusField where
  | initDone
  | active
  | idleDet
  | synced
  | arb
  | peerUnresp
  deriving DecidableEq, Repr

/-- What a host branch compares with 0: a STATUS field, or a whole register (30_encoding.md R91). -/
inductive BranchOperand where
  | field (f : StatusField)
  | register
  deriving DecidableEq, Repr

/-- A statement of the host program (30_encoding.md R91): a bus access, or host-side program control.  A label is the
index of its statement. -/
inductive HostStmt where
  | access (desc : BitVec 10) (data : Word)
  | bz (x : BranchOperand) (target : Nat)
  | bnz (x : BranchOperand) (target : Nat)
  deriving DecidableEq, Repr

/-- The output lines (10_state.md R20 a, R21). -/
structure Lines where
  clkOut  : Level
  dataOut : Level
  indOut  : Level
  deriving DecidableEq, Repr

/-- The fields of STATUS (10_state.md R27); `Status.toWord` gives the 32-bit register. -/
structure Status where
  initDone   : Bool
  active     : Bool
  idleDet    : Bool
  synced     : Bool
  arb        : ArbState
  peerUnresp : Bool
  deriving DecidableEq, Repr

/-- The phase and the hidden sequencer registers (10_state.md R30, R31). -/
structure Sequencer where
  phase  : Phase
  shift  : Word
  acc    : Word
  i      : BitVec Config.indexBits
  polls  : Nat
  tries  : Nat
  j      : Nat
  cmd    : Option Opcode
  caller : Caller
  deriving DecidableEq, Repr

/-- The peer agent as the block meets it (00_scope.md R15, 40_link_phy.md R111): the levels its next samples return, in
order, and how many samples of each line were drawn.  A sample beyond a list is a free value (log entry 2). -/
structure Peer where
  busyIn    : List Bool
  dataIn    : List Bool
  busyDrawn : Nat
  dataDrawn : Nat
  deriving DecidableEq, Repr

/-- The host agent (00_scope.md R15): its program, the index of its next statement, what its preceding `rd` and its
preceding `rdb` returned (none when it returned no value), and how many free values its branches drew.  A branch looks at
what `rd` returned (30_encoding.md R91). -/
structure HostAgent where
  program  : List HostStmt
  pc       : Nat
  lastRead : Option Word
  lastByte : Option Byte
  drawn    : Nat
  deriving DecidableEq, Repr

/-- The stream buffer as (byte index, byte) pairs in rising order; an unlisted byte is unwritten (20_memory.md R61). -/
abbrev Memory := List Host.Cell

structure State where
  -- 10_state.md R20 (a)
  lines   : Lines
  -- (b) the host-visible registers
  txw     : Word
  rxw     : Word
  framew  : Word
  off     : BitVec Config.offsetBits
  len     : BitVec Config.offsetBits
  status  : Status
  -- (c)
  buf     : Memory
  -- (d)
  seq     : Sequencer
  -- (e) the sticky marks, oldest first (R38)
  faulted : List FaultReason
  refused : List RefuseReason
  -- (f) the trace, oldest first (R40)
  trace   : List Event
  -- the peer and the host
  peer    : Peer
  host    : HostAgent
  -- the reset events to come: one entry a step, true for a reset (70_reset_and_hazards.md R270; log entry 4)
  resets  : List Bool
  -- the parameters a claim fixes, or none for the implementation's own (00_scope.md R10; log entry 1)
  config  : Option Config.Params
  deriving DecidableEq, Repr

/-- No step of this block ends in a fault: "The block raises no exceptions and has no trap mechanism" (60_exceptions.md
R240), and the model's faults of R241 are recorded in `faulted`, after which the host goes on. -/
inductive Fault where
  deriving DecidableEq, Repr

inductive Refusal where
  /-- An instruction whose arm of `exec` has no meaning yet; raised by `exec` alone, and safe.  No arm raises it. -/
  | notModelled (mnemonic : String)
  /-- A host access given to `exec` while a command runs: "While phase ≠ IDLE, the host has no step" (43_control.md R228).
  Raised by every meaning, and safe; `step` never gives `exec` an instruction in such a state. -/
  | hostHeld
  deriving DecidableEq, Repr

/-- The state after reset (10_state.md R41).  The sequencer's data registers have no reset value in the spec and hold 0
here (log entry 3).  The parts outside the block are empty: no program, no scripted sample, no reset to come, no fixed
parameter (log entry 6). -/
def State.reset : State :=
  { lines := { clkOut := .x, dataOut := .x, indOut := .x }
    txw := 0
    rxw := 0
    framew := 0
    off := 0
    len := 0
    status :=
      { initDone := false, active := false, idleDet := false, synced := false, arb := .connecting, peerUnresp := false }
    buf := []
    seq :=
      { phase := .idle, shift := 0, acc := 0, i := 0, polls := 0, tries := 0, j := 0, cmd := none, caller := .exchange }
    faulted := []
    refused := []
    trace := [.reset]
    peer := { busyIn := [], dataIn := [], busyDrawn := 0, dataDrawn := 0 }
    host := { program := [], pc := 0, lastRead := none, lastByte := none, drawn := 0 }
    resets := []
    config := none }

end Sys2Proof.Machine
end

