-- ==== Sys2Proof/Machine/Flags.lean ====
section
/-! DEFINITION. The STATUS register: its word and its fields (10_state.md R27, R28), and the flag the block computes from
data, the sentinel idle detect (41_framer.md R153). -/

namespace Sys2Proof.Machine

/-- The ARB encoding (10_state.md R28). -/
def ArbState.code : ArbState → BitVec 2
  | .connecting => 0b00
  | .syncing => 0b01
  | .streaming => 0b10
  | .cooldown => 0b11

/-- The STATUS register (10_state.md R27): bits [31:7] read 0 (R36). -/
def Status.toWord (st : Status) : Word :=
  (BitVec.ofBool st.peerUnresp ++ st.arb.code ++ BitVec.ofBool st.synced ++ BitVec.ofBool st.idleDet ++
    BitVec.ofBool st.active ++ BitVec.ofBool st.initDone).setWidth Config.wordBits

/-- A STATUS field read out of a word, zero-extended (10_state.md R27). -/
def StatusField.extract : StatusField → Word → Word
  | .initDone, w => (w.extractLsb' 0 1).setWidth Config.wordBits
  | .active, w => (w.extractLsb' 1 1).setWidth Config.wordBits
  | .idleDet, w => (w.extractLsb' 2 1).setWidth Config.wordBits
  | .synced, w => (w.extractLsb' 3 1).setWidth Config.wordBits
  | .arb, w => (w.extractLsb' 4 2).setWidth Config.wordBits
  | .peerUnresp, w => (w.extractLsb' 6 1).setWidth Config.wordBits

/-- `isIdle(w)`, the sentinel idle detect (41_framer.md R153, 10_state.md R33). -/
def isIdle (w : Word) : Bool := decide (w = Config.sentinel)

end Sys2Proof.Machine
end

