-- ==== Sys2Proof/Machine/Operands.lean ====
section
/-! DEFINITION. The operands of the commands and accesses (30_encoding.md R89): the bits of a Link Word, the bytes of the
stream buffer, the host-visible registers, the levels the peer supplies, and the parameters. -/

namespace Sys2Proof.Machine

/-! ### Link Words -/

/-- `w[31 − p]`, the bit that crosses the wire in bit period p (30_encoding.md R83). -/
def wireBit (w : Word) (p : Nat) : Bool := w.getLsbD (Config.wordBits - 1 - p)

/-- `b0 ‖ b1 ‖ b2 ‖ b3`: the first of a word's `STRIDE` bytes is the most significant (30_encoding.md R82). -/
def pack (bytes : List Byte) : Word := bytes.foldl (fun w b => w <<< 8 ||| b.setWidth Config.wordBits) 0

/-- `unpack(w)`, always `STRIDE` bytes, 4 (41_framer.md R152). -/
def unpack (w : Word) : List Byte :=
  (List.range Config.stride).map fun k => w.extractLsb' (8 * (Config.stride - 1 - k)) 8

/-- `decode(w)`: no payload for the sentinel, 4 literal bytes otherwise (41_framer.md R152). -/
def linkDecode (w : Word) : List Byte := if isIdle w then [] else unpack w

/-- `acc | (zext_32(s) << (31 − p))`, one step of the received-word assembly (30_encoding.md R84). -/
def accumulate (acc : Word) (p : Nat) (s : Bool) : Word :=
  acc ||| ((BitVec.ofBool s).setWidth Config.wordBits <<< (Config.wordBits - 1 - p))

/-- The word whose bit 31 − p is `f p` (40_link_phy.md R123). -/
def wordOfSamples (f : Nat → Bool) : Word := BitVec.ofFnLE fun k : Fin Config.wordBits => f (Config.wordBits - 1 - k.val)

/-! ### The stream buffer -/

/-- Byte k of BUF, or none when it is unwritten (20_memory.md R61). -/
def Memory.read : Memory → Nat → Option Byte
  | [], _ => none
  | (a, b) :: rest, k => if a = k then some b else Memory.read rest k

/-- Set byte k of BUF, keeping the list in rising order (20_memory.md R62). -/
def Memory.write : Memory → Nat → Byte → Memory
  | [], k, v => [(k, v)]
  | (a, b) :: rest, k, v =>
    if k < a then (k, v) :: (a, b) :: rest
    else if k = a then (k, v) :: rest
    else (a, b) :: Memory.write rest k v

/-- The cells have rising byte indexes, each at least `lo` and below 64. -/
def Memory.wfFrom : Nat → Memory → Bool
  | _, [] => true
  | lo, (a, _) :: rest => decide (lo ≤ a) && decide (a < Config.bufSize) && Memory.wfFrom (a + 1) rest

/-- The canonical form of BUF: strictly rising byte indexes below 64.  A listed byte is a written one, so no entry equals
what an unlisted byte reads as. -/
def Memory.wf (m : Memory) : Bool := Memory.wfFrom 0 m

/-- The byte at stream position q for `encode`: BUF[q] below the valid length, 0x00 at or above it (41_framer.md R150). -/
def frameByte (buf : Memory) (len q : Nat) : Except FaultReason Byte :=
  if q < len then
    match Memory.read buf q with
    | some b => .ok b
    | none => .error (.unwrittenBufferByte q)
  else .ok 0x00

/-- `encode(off, len)`: the bytes are read in increasing order, so the first unwritten one is the fault
(41_framer.md R150, 60_exceptions.md R243). -/
def frameWord (buf : Memory) (off len : Nat) : Except FaultReason Word := do
  let c ← (List.range Config.stride).mapM fun k => frameByte buf len (off + k)
  return pack c

/-! ### The host-visible registers (20_memory.md R66, 43_control.md R221) -/

/-- OFF as the host reads it: bits [31:7] are 0 (10_state.md R24). -/
def State.offWord (s : State) : Word := s.off.setWidth Config.wordBits

/-- LEN as the host reads it: bits [31:7] are 0 (10_state.md R24). -/
def State.lenWord (s : State) : Word := s.len.setWidth Config.wordBits

/-- The largest value OFF and LEN accept, `BUF_SIZE` (43_control.md R222, 00_scope.md R11). -/
def offsetLimit : Word := BitVec.ofNat Config.wordBits Config.bufSize

/-! ### The peer's levels and the parameters -/

/-- The level the n-th next sample of BUSY_IN returns (40_link_phy.md R111). -/
def Peer.busyAt (p : Peer) (n : Nat) : Bool :=
  match p.busyIn[n]? with
  | some b => b
  | none => Config.freeBusyIn (p.busyDrawn + n)

/-- The level the n-th next sample of DATA_IN returns (40_link_phy.md R111). -/
def Peer.dataAt (p : Peer) (n : Nat) : Bool :=
  match p.dataIn[n]? with
  | some b => b
  | none => Config.freeDataIn (p.dataDrawn + n)

/-- The parameters in force: those a claim fixes, else the implementation's own (00_scope.md R10). -/
def State.params (s : State) : Config.Params :=
  match s.config with
  | some p => p
  | none => Config.implementation

end Sys2Proof.Machine
end

