-- ==== Sys2Proof/Machine/Ops.lean ====
section
/-! DEFINITION. The shared operations, under the names of the pseudocode (00_scope.md R13): the trace, the lines, samples,
the sticky marks, the frame of a command, and the start of an exchange.  The block has no trap entry and no return from
one (60_exceptions.md R245); `State.raiseFault` and `State.raiseRefuse` are what stands in their place (R241, R242). -/

namespace Sys2Proof.Machine

/-- The level that drives a bit (10_state.md R21: the block writes a line only with v in {0, 1}). -/
def Level.ofBit (v : Bool) : Level := if v then .one else .zero

/-- Set one line. -/
def Lines.set (ls : Lines) (l : OutLine) (v : Bool) : Lines :=
  match l with
  | .clkOut => { ls with clkOut := .ofBit v }
  | .dataOut => { ls with dataOut := .ofBit v }
  | .indOut => { ls with indOut := .ofBit v }

/-- `emit(e)` (00_scope.md R13). -/
def State.emit (s : State) (e : Event) : State := { s with trace := s.trace ++ [e] }

/-- `line(L) <- v`: drive the line and append `Drive(L, v)` (00_scope.md R13). -/
def State.line (s : State) (l : OutLine) (v : Bool) : State :=
  { s with lines := s.lines.set l v, trace := s.trace ++ [.drive l v] }

/-- The level `sample(L)` returns now (40_link_phy.md R111). -/
def State.sampled (s : State) (l : InLine) : Bool :=
  match l with
  | .busyIn => s.peer.busyAt 0
  | .dataIn => s.peer.dataAt 0

/-- One sample of an input line has been taken. -/
def Peer.advance (p : Peer) (l : InLine) : Peer :=
  match l with
  | .busyIn => { p with busyIn := p.busyIn.tail, busyDrawn := p.busyDrawn + 1 }
  | .dataIn => { p with dataIn := p.dataIn.tail, dataDrawn := p.dataDrawn + 1 }

/-- The state after `sample(L)`: the draw is used up, and `Sample(L, v)` stands in the trace (00_scope.md R13). -/
def State.takeSample (s : State) (l : InLine) : State :=
  { s with peer := s.peer.advance l, trace := s.trace ++ [.sample l (s.sampled l)] }

/-- The sequencer goes to a phase. -/
def State.goto (s : State) (p : Phase) : State := { s with seq := { s.seq with phase := p } }

/-- `raise Fault(reason)`: record the reason, and stop the running command at once with phase ← IDLE; ACTIVE and `cmd`
follow the phase (60_exceptions.md R241, 10_state.md R31, R32).  The other sequencer registers keep their last values:
DESIGN CHOICE (log entry 3). -/
def State.raiseFault (s : State) (r : FaultReason) : State :=
  { s with
    faulted := s.faulted ++ [r]
    status := { s.status with active := false }
    seq := { s.seq with phase := .idle, cmd := none } }

/-- `raise Refuse(reason)`: record the reason and change nothing else (60_exceptions.md R242, 43_control.md R226). -/
def State.raiseRefuse (s : State) (r : RefuseReason) : State := { s with refused := s.refused ++ [r] }

/-- The reason a rejected access records (60_exceptions.md R242). -/
def refuseReasonOf : DecodeReject → RefuseReason
  | .reservedCommand v => .reservedCommand v
  | .badAddress a => .badAddress a
  | .badAccessWidth a n => .badAccessWidth a n
  | .readOnly a => .readOnly a
  | .writeOnly a => .writeOnly a

/-- What a host's `rd` returned: a value, or none when it returned none (30_encoding.md R91, 43_control.md R221). -/
def State.hostRead (s : State) (v : Option Word) : State := { s with host := { s.host with lastRead := v } }

/-- What a host's `rdb` returned: a byte, or none when it returned none (43_control.md R224, 20_memory.md R61). -/
def State.hostReadByte (s : State) (v : Option Byte) : State := { s with host := { s.host with lastByte := v } }

/-- A command starts: `CmdBegin(op)`, ACTIVE ← 1 (43_control.md R225 check 5), `cmd` holds it (10_state.md R31). -/
def State.beginCommand (s : State) (op : Opcode) : State :=
  { s with
    trace := s.trace ++ [.cmdBegin op]
    status := { s.status with active := true }
    seq := { s.seq with cmd := some op } }

/-- A command ends: `CmdEnd(op)`, ACTIVE ← 0, phase ← IDLE (10_state.md R32).  `shift`, `acc`, `i`, `polls`, `tries` and
`j` keep their last values: DESIGN CHOICE, as 93_implementation_defined.md row 36 gives them none between commands (log
entry 3). -/
def State.endCommand (s : State) (op : Opcode) : State :=
  { s with
    trace := s.trace ++ [.cmdEnd op]
    status := { s.status with active := false }
    seq := { s.seq with phase := .idle, cmd := none } }

/-- The ARB states a command may run in (42_handshake_arbiter.md R189). -/
def arbAllowed : Opcode → ArbState → Bool
  | .init, _ => true
  | .exchange, _ => true
  | .encode, _ => true
  | .sendChunk, a => decide (a = .streaming)
  | .connected, a => decide (a = .connecting)
  | .sync, a => decide (a = .syncing)
  | .close, a => decide (a = .streaming)
  | .cooldownDone, a => decide (a = .cooldown)

/-- The checks 2 to 4 of the command dispatch, in their order (43_control.md R225): the reason the command is refused, or
none when it runs. -/
def State.gate (s : State) (op : Opcode) : Option RefuseReason :=
  if op ≠ .init ∧ s.status.initDone = false then some (.notInitialised op.word)
  else if op = .init ∧ s.status.initDone = true then some .alreadyInitialised
  else if arbAllowed op s.status.arb = false then some (.wrongArbState op s.status.arb)
  else none

/-- A host access completes in one step, and only while no command runs (43_control.md R228, R229). -/
def hostAccess (effect : State → State) (s : State) : Host.Outcome State Fault Refusal :=
  if s.seq.phase = .idle then .next (effect s) else .refused .hostHeld

/-- A command: refused by the first check that fails, or begun (43_control.md R225). -/
def commandEffect (op : Opcode) (body : State → State) (s : State) : State :=
  match s.gate op with
  | some r => s.raiseRefuse r
  | none => body (s.beginCommand op)

/-- `XferBegin(word, caller)` (40_link_phy.md R112). -/
def State.xferBegin (s : State) (word : Word) (caller : Caller) : State :=
  { s with
    trace := s.trace ++ [.xferBegin word]
    seq := { s.seq with shift := word, acc := 0, polls := 0, i := 0, caller := caller, phase := .poll } }

end Sys2Proof.Machine
end

