-- ==== Sys2Proof/Machine/Arbiter.lean ====
section
/-! DEFINITION. The handshake arbiter (42_handshake_arbiter.md): CONNECTED, R181; SYNC with its micro-step SYNC_NEXT, R182,
R183, R185; CLOSE, R187; COOLDOWN_DONE, R188. -/

namespace Sys2Proof.Machine

/-- CONNECTED's effect (R181). -/
def connectedBody (s : State) : State :=
  { s with
    status := { s.status with arb := .syncing, synced := false, peerUnresp := false }
    off := 0
    len := 0 }.endCommand .connected

/-- CONNECTED (R181). -/
def execConnected (s : State) : Host.Outcome State Fault Refusal :=
  hostAccess (commandEffect .connected connectedBody) s

/-- The first step of SYNC (R183). -/
def syncBody (s : State) : State :=
  { s with seq := { s.seq with tries := 0 } }.xferBegin Config.sentinel .sync

/-- SYNC (R182): the command's first step; `step` runs the exchanges and SYNC_NEXT that follow. -/
def execSync (s : State) : Host.Outcome State Fault Refusal :=
  hostAccess (commandEffect .sync syncBody) s

/-- Whether SYNC gives up after `tries` exchanges (R183, R185): never in the reference, at the bound in the hardened one. -/
def syncExpired (limit : Option Nat) (tries : Nat) : Bool :=
  match limit with
  | none => false
  | some n => decide (n ≤ tries)

/-- SYNC_NEXT (R183): the rendezvous, the hardened bound, or the next exchange, in that order. -/
def stepSyncNext (s : State) : State :=
  let t : State := { s with seq := { s.seq with tries := s.seq.tries + 1 } }
  if isIdle s.rxw then
    ({ t with status := { t.status with synced := true, arb := .streaming, peerUnresp := false } }.emit
      (.rendezvous t.seq.tries)).endCommand .sync
  else if syncExpired s.params.syncLimit t.seq.tries then
    ({ t with status := { t.status with synced := false, arb := .cooldown, peerUnresp := true } }.emit
      (.syncTimeout t.seq.tries)).endCommand .sync
  else t.xferBegin Config.sentinel .sync

/-- CLOSE's effect (R187). -/
def closeBody (s : State) : State :=
  { s with status := { s.status with arb := .cooldown, synced := false } }.endCommand .close

/-- CLOSE (R187). -/
def execClose (s : State) : Host.Outcome State Fault Refusal :=
  hostAccess (commandEffect .close closeBody) s

/-- COOLDOWN_DONE's effect (R188). -/
def cooldownDoneBody (s : State) : State :=
  { s with status := { s.status with arb := .connecting } }.endCommand .cooldownDone

/-- COOLDOWN_DONE (R188). -/
def execCooldownDone (s : State) : Host.Outcome State Fault Refusal :=
  hostAccess (commandEffect .cooldownDone cooldownDoneBody) s

end Sys2Proof.Machine
end

