-- ==== Sys2Proof/Machine/Framer.lean ====
section
/-! DEFINITION. The word framer (41_framer.md): ENCODE, R151, and SEND_CHUNK with its micro-step CHUNK_NEXT, R156. -/

namespace Sys2Proof.Machine

/-- ENCODE's effect (R151). -/
def encodeBody (s : State) : State :=
  match frameWord s.buf s.off.toNat s.len.toNat with
  | .ok w => { s with framew := w }.endCommand .encode
  | .error r => s.raiseFault r

/-- ENCODE (R151). -/
def execEncode (s : State) : Host.Outcome State Fault Refusal :=
  hostAccess (commandEffect .encode encodeBody) s

/-- The first step of SEND_CHUNK (R156). -/
def sendChunkBody (s : State) : State := { s with seq := { s.seq with j := 0, phase := .chunkNext } }

/-- SEND_CHUNK (R156): the command's first step; `step` runs CHUNK_NEXT and the exchanges that follow. -/
def execSendChunk (s : State) : Host.Outcome State Fault Refusal :=
  hostAccess (commandEffect .sendChunk sendChunkBody) s

/-- `emit(DataWord(w))`, and `emit(Collision(w))` when w is the sentinel (R156, R161). -/
def State.emitDataWord (s : State) (w : Word) : State :=
  if w = Config.sentinel then (s.emit (.dataWord w)).emit (.collision w) else s.emit (.dataWord w)

/-- CHUNK_NEXT (R156): the next word of the walk, or the end of the command. -/
def stepChunkNext (s : State) : State :=
  let at_ := Config.stride * s.seq.j
  let t : State := { s with off := BitVec.ofNat Config.offsetBits at_ }
  if at_ < s.len.toNat then
    match frameWord s.buf t.off.toNat s.len.toNat with
    | .ok w =>
      let u := ({ t with framew := w } : State).emitDataWord w
      { u with seq := { u.seq with j := u.seq.j + 1 } }.xferBegin w .sendChunk
    | .error r => t.raiseFault r
  else t.endCommand .sendChunk

end Sys2Proof.Machine
end

