-- ==== Sys2Proof/Machine/Link.lean ====
section
/-! DEFINITION. The link physical layer (40_link_phy.md): the micro-steps of an exchange, R113 to R119, and EXCHANGE, R127. -/

namespace Sys2Proof.Machine

/-- POLL, the busy-wait (R113).  `SETUP(0)` is the phase SETUP with the bit index 0. -/
def stepPoll (s : State) : State :=
  if s.seq.polls = s.params.busyPollMax then
    { s.emit .busyBound with seq := { s.seq with phase := .setup, i := 0 } }
  else if s.sampled .busyIn = s.params.busyLevel then
    { s.takeSample .busyIn with seq := { s.seq with polls := s.seq.polls + 1, phase := .poll } }
  else
    { s.takeSample .busyIn with seq := { s.seq with polls := s.seq.polls + 1, phase := .setup, i := 0 } }

/-- SETUP(i) (R114). -/
def stepSetup (s : State) : State :=
  let d := wireBit s.seq.shift s.seq.i.toNat
  ((s.line .dataOut d).line .indOut d).goto .low

/-- LOW(i) (R115).  The dwell has no effect (70_reset_and_hazards.md R285). -/
def stepLow (s : State) : State := (s.line .clkOut false).goto .high

/-- HIGH(i) (R116). -/
def stepHigh (s : State) : State := (s.line .clkOut true).goto .sample

/-- SAMPLE(i) (R117). -/
def stepSample (s : State) : State :=
  let acc' := accumulate s.seq.acc s.seq.i.toNat (s.sampled .dataIn)
  if s.seq.i.toNat < Config.wordBits - 1 then
    { s.takeSample .dataIn with seq := { s.seq with acc := acc', i := s.seq.i + 1, phase := .setup } }
  else
    { s.takeSample .dataIn with seq := { s.seq with acc := acc', phase := .restore } }

/-- RESTORE (R118).  IND_OUT is not written. -/
def stepRestore (s : State) : State :=
  ((s.line .clkOut Config.clkIdle).line .dataOut Config.doutIdle).goto .done

/-- DONE (R119). -/
def stepDone (s : State) : State :=
  let rx := s.seq.acc
  let t : State := { s with rxw := rx, status := { s.status with idleDet := isIdle rx } }.emit (.xferEnd rx)
  match s.seq.caller with
  | .exchange => t.endCommand .exchange
  | .sync => t.goto .syncNext
  | .sendChunk => t.goto .chunkNext

/-- The first step of EXCHANGE (R127). -/
def exchangeBody (s : State) : State := s.xferBegin s.txw .exchange

/-- EXCHANGE (R127): the command's first step; `step` runs the micro-steps R113 to R119 that follow. -/
def execExchange (s : State) : Host.Outcome State Fault Refusal :=
  hostAccess (commandEffect .exchange exchangeBody) s

end Sys2Proof.Machine
end

