-- ==== Sys2Proof/Machine/Control.lean ====
section
/-! DEFINITION. Control (43_control.md): INIT, R220; the host accesses RD, WR, WRB and RDB, R221 to R224; and the command
dispatch of a CMD write, R225. -/

namespace Sys2Proof.Machine

/-- INIT's effect (R220).  INIT_DONE records that DATA_IN and BUSY_IN are inputs (10_state.md R35). -/
def initBody (s : State) : State :=
  let t := ((s.line .clkOut Config.clkIdle).line .dataOut Config.doutIdle).emit .configure
  { t with status := { t.status with initDone := true, arb := .connecting } }.endCommand .init

/-- INIT (R220). -/
def execInit (s : State) : Host.Outcome State Fault Refusal := hostAccess (commandEffect .init initBody) s

/-! ### Register writes (R222) -/

/-- WR CMD, the command dispatch (R225): a reserved word is refused first, else the command of the word runs. -/
def execWrCmd (v : Word) (s : State) : Host.Outcome State Fault Refusal :=
  match opcodeOf v with
  | none => hostAccess (fun s => s.raiseRefuse (.reservedCommand v)) s
  | some .init => execInit s
  | some .exchange => execExchange s
  | some .encode => execEncode s
  | some .sendChunk => execSendChunk s
  | some .connected => execConnected s
  | some .sync => execSync s
  | some .close => execClose s
  | some .cooldownDone => execCooldownDone s

/-- WR TXW (R222). -/
def execWrTxw (v : Word) (s : State) : Host.Outcome State Fault Refusal :=
  hostAccess (fun s => { s with txw := v }) s

/-- WR OFF: above 64, unsigned on all 32 bits, the whole write is refused (R222). -/
def execWrOff (v : Word) (s : State) : Host.Outcome State Fault Refusal :=
  hostAccess (fun s =>
    if offsetLimit < v then s.raiseRefuse (.outOfRange .off v)
    else { s with off := v.setWidth Config.offsetBits }) s

/-- WR LEN: above 64, unsigned on all 32 bits, the whole write is refused (R222). -/
def execWrLen (v : Word) (s : State) : Host.Outcome State Fault Refusal :=
  hostAccess (fun s =>
    if offsetLimit < v then s.raiseRefuse (.outOfRange .len v)
    else { s with len := v.setWidth Config.offsetBits }) s

/-! ### Register reads (R221) -/

/-- RD STATUS (R221). -/
def execRdStatus (s : State) : Host.Outcome State Fault Refusal :=
  hostAccess (fun s => s.hostRead (some s.status.toWord)) s

/-- RD TXW (R221). -/
def execRdTxw (s : State) : Host.Outcome State Fault Refusal := hostAccess (fun s => s.hostRead (some s.txw)) s

/-- RD RXW (R221). -/
def execRdRxw (s : State) : Host.Outcome State Fault Refusal := hostAccess (fun s => s.hostRead (some s.rxw)) s

/-- RD FRAMEW (R221). -/
def execRdFramew (s : State) : Host.Outcome State Fault Refusal := hostAccess (fun s => s.hostRead (some s.framew)) s

/-- RD OFF (R221). -/
def execRdOff (s : State) : Host.Outcome State Fault Refusal := hostAccess (fun s => s.hostRead (some s.offWord)) s

/-- RD LEN (R221). -/
def execRdLen (s : State) : Host.Outcome State Fault Refusal := hostAccess (fun s => s.hostRead (some s.lenWord)) s

/-! ### Buffer accesses (R223, R224).  A term with k above 63 names an address outside BUF, which is refused (log entry 8). -/

/-- WRB BUF+k: `BufWrite(k, v)` (R223, 20_memory.md R62). -/
def execWrbBuf (k : Nat) (v : Byte) (s : State) : Host.Outcome State Fault Refusal :=
  hostAccess (fun s =>
    if k < Config.bufSize then { s with buf := Memory.write s.buf k v }
    else s.raiseRefuse (.badAddress (0x40 + k))) s

/-- RDB BUF+k: `BufRead(k)`, which faults on an unwritten byte and then returns no value (R224, 20_memory.md R61). -/
def execRdbBuf (k : Nat) (s : State) : Host.Outcome State Fault Refusal :=
  hostAccess (fun s =>
    if k < Config.bufSize then
      match Memory.read s.buf k with
      | some b => s.hostReadByte (some b)
      | none => (s.raiseFault (.unwrittenBufferByte k)).hostReadByte none
    else (s.raiseRefuse (.badAddress (0x40 + k))).hostReadByte none) s

end Sys2Proof.Machine
end

