-- ==== Sys2Proof/Machine/Dispatch.lean ====
section
/-! DEFINITION. The meaning of every instruction: one arm per constructor of Instr. -/

namespace Sys2Proof.Machine

def exec (i : Instr) (s : State) : Host.Outcome State Fault Refusal :=
  match i with
  | .init => Sys2Proof.Machine.execInit s
  | .exchange => Sys2Proof.Machine.execExchange s
  | .encode => Sys2Proof.Machine.execEncode s
  | .sendChunk => Sys2Proof.Machine.execSendChunk s
  | .connected => Sys2Proof.Machine.execConnected s
  | .sync => Sys2Proof.Machine.execSync s
  | .close => Sys2Proof.Machine.execClose s
  | .cooldownDone => Sys2Proof.Machine.execCooldownDone s
  | .wrCmd v => Sys2Proof.Machine.execWrCmd v s
  | .rdStatus => Sys2Proof.Machine.execRdStatus s
  | .rdTxw => Sys2Proof.Machine.execRdTxw s
  | .wrTxw v => Sys2Proof.Machine.execWrTxw v s
  | .rdRxw => Sys2Proof.Machine.execRdRxw s
  | .rdFramew => Sys2Proof.Machine.execRdFramew s
  | .rdOff => Sys2Proof.Machine.execRdOff s
  | .wrOff v => Sys2Proof.Machine.execWrOff v s
  | .rdLen => Sys2Proof.Machine.execRdLen s
  | .wrLen v => Sys2Proof.Machine.execWrLen v s
  | .wrbBuf k v => Sys2Proof.Machine.execWrbBuf k v s
  | .rdbBuf k => Sys2Proof.Machine.execRdbBuf k s

end Sys2Proof.Machine
end

