-- ==== Sys2Proof/Machine/HostProgram.lean ====
section
/-! DEFINITION. The host agent (00_scope.md R15): fetching the next statement of its program, its program control
(30_encoding.md R91), and placing a statement there. -/

namespace Sys2Proof.Machine

/-- What the host does next. -/
inductive HostMove where
  /-- No statement is left: "A host that never issues the next command has no move" (42_handshake_arbiter.md R194). -/
  | idle
  /-- An access the register map admits. -/
  | access (i : Instr)
  /-- An access that is refused (60_exceptions.md R242), by its descriptor. -/
  | rejected (desc : BitVec 10) (r : DecodeReject)
  /-- `bz` (`onZero`) or `bnz`, to a statement index. -/
  | branch (onZero : Bool) (x : BranchOperand) (target : Nat)
  deriving DecidableEq, Repr

/-- Fetch and decode the host's next statement. -/
def State.hostMove (s : State) : HostMove :=
  match s.host.program[s.host.pc]? with
  | none => .idle
  | some (.access d v) =>
    match decode (.bus d v) with
    | .ok i => .access i
    | .error r => .rejected d r
  | some (.bz x l) => .branch true x l
  | some (.bnz x l) => .branch false x l

/-- The host's program goes on to the next statement (43_control.md R229). -/
def State.advanceHost (s : State) : State := { s with host := { s.host with pc := s.host.pc + 1 } }

/-- A refused access records its reason; a refused `rd` or `rdb` returns no value (60_exceptions.md R242; log entry 7). -/
def State.rejectAccess (s : State) (d : BitVec 10) (r : DecodeReject) : State :=
  let t := s.raiseRefuse (refuseReasonOf r)
  if busIsWrite d then t else if busIsWord d then t.hostRead none else t.hostReadByte none

/-- The value a branch looks at: what the preceding `rd` returned, a free value when it returned none (log entry 7). -/
def State.branchValue (s : State) (x : BranchOperand) : Word :=
  let w := match s.host.lastRead with
    | some w => w
    | none => Config.freeReadValue s.host.drawn
  match x with
  | .field f => f.extract w
  | .register => w

/-- A host branch (30_encoding.md R91): host program control, with no effect on the block. -/
def State.hostBranch (s : State) (onZero : Bool) (x : BranchOperand) (target : Nat) : State :=
  let taken := decide (s.branchValue x = 0) == onZero
  let drawn := match s.host.lastRead with
    | some _ => s.host.drawn
    | none => s.host.drawn + 1
  { s with host := { s.host with pc := if taken then target else s.host.pc + 1, drawn := drawn } }

/-- Put a statement at an index of a program; a program shorter than the index is filled up with copies of it. -/
def placeStmt (program : List HostStmt) (at_ : Nat) (x : HostStmt) : List HostStmt :=
  program.take at_ ++ List.replicate (at_ + 1 - (program.take at_).length) x ++ program.drop (at_ + 1)

/-- The state whose next step is the host access of a unit: it is the host's next statement, no command runs, and no reset
is to come (log entry 10). -/
def State.withAccess (s : State) (u : Encoded) : State :=
  { s with
    host := { s.host with program := placeStmt s.host.program s.host.pc (.access u.access.1 u.access.2) }
    status := { s.status with active := false }
    seq := { s.seq with phase := .idle, cmd := none }
    resets := [] }

end Sys2Proof.Machine
end

