-- ==== Sys2Proof/Machine/Sequencer.lean ====
section
/-! DEFINITION. The block agent (00_scope.md R15): one micro-step of the running command, by its phase (10_state.md R30),
and the reset event (70_reset_and_hazards.md R270). -/

namespace Sys2Proof.Machine

/-- One micro-step of the block.  In IDLE the block has none. -/
def blockStep (s : State) : State :=
  match s.seq.phase with
  | .idle => s
  | .poll => stepPoll s
  | .setup => stepSetup s
  | .low => stepLow s
  | .high => stepHigh s
  | .sample => stepSample s
  | .restore => stepRestore s
  | .done => stepDone s
  | .syncNext => stepSyncNext s
  | .chunkNext => stepChunkNext s

/-- The reset event: every piece of the block's state takes its value of 10_state.md R41.  The peer, the host, the resets
still to come and the parameters are not the block's and stay (log entry 6). -/
def State.applyReset (s : State) : State :=
  { State.reset with peer := s.peer, host := s.host, resets := s.resets, config := s.config }

/-- Whether the reset event occurs at this step. -/
def State.resetDue (s : State) : Bool :=
  match s.resets with
  | [] => false
  | r :: _ => r

/-- The state with this step's entry of the reset schedule used up. -/
def State.passReset (s : State) : State := { s with resets := s.resets.tail }

end Sys2Proof.Machine
end

