-- ==== Sys2Proof/Machine/Step.lean ====
section
/-! DEFINITION. One step of the whole machine: the reset event before everything (60_exceptions.md R246), else a micro-step
of the running command, else, in phase IDLE, the host's next statement (43_control.md R228, R229). -/

namespace Sys2Proof.Machine

def step (s : State) : Host.Outcome State Fault Refusal :=
  let t := s.passReset
  if s.resetDue then .next t.applyReset
  else if t.seq.phase = .idle then
    match t.hostMove with
    | .idle => .next t
    | .access i => exec i t.advanceHost
    | .rejected d r => .next (t.advanceHost.rejectAccess d r)
    | .branch onZero x target => .next (t.hostBranch onZero x target)
  else .next (blockStep t)

/-- The state whose next step fetches and runs the instruction of an opcode-table row's bits: a command word is the data
of a write of CMD, and a descriptor is the access itself (30_encoding.md R86, R88, R91; log entry 10). -/
def State.withFetchWord (s : State) (nbits w : Nat) : State :=
  match tableUnit nbits w with
  | some u => s.withAccess u
  | none => s

end Sys2Proof.Machine
end

