-- ==== Sys2Proof/Machine/Assembler.lean ====
section
/-! DEFINITION. The host programs of 30_encoding.md R91 and R92: the statement of an instruction, and the
pseudo-operations.  A label is the index of its statement. -/

namespace Sys2Proof.Machine

/-- The program statement of an instruction: its bus access; a command mnemonic alone means `wr CMD, word` (R91). -/
def stmtOf (i : Instr) : HostStmt := .access (encode i).access.1 (encode i).access.2

/-- `xchg imm32` (R92). -/
def asmXchg (w : Word) : List HostStmt := [stmtOf (.wrTxw w), stmtOf .exchange]

/-- The byte writes of `load`, from a buffer index on (R92). -/
def asmBytes : Nat → List Byte → List HostStmt
  | _, [] => []
  | k, b :: rest => stmtOf (.wrbBuf k b) :: asmBytes (k + 1) rest

/-- `load b0, ..., b(n−1)` with n at most 64 (R92). -/
def asmLoad (bytes : List Byte) : List HostStmt :=
  asmBytes 0 bytes ++ [stmtOf (.wrLen (BitVec.ofNat Config.wordBits bytes.length))]

/-- `send b0, ..., b(n−1)` (R92). -/
def asmSend (bytes : List Byte) : List HostStmt := asmLoad bytes ++ [stmtOf .sendChunk]

/-- `frame k` (R92). -/
def asmFrame (k : Word) : List HostStmt := [stmtOf (.wrOff k), stmtOf .encode]

end Sys2Proof.Machine
end

