-- ==== Sys2Proof/Machine/Console.lean ====
section
/-! DEFINITION. The peer agent (00_scope.md R15): the named environment assumptions EA1 to EA5 (40_link_phy.md R111,
42_handshake_arbiter.md R192, R193), as predicates a claim may take as a premise, and what the console does with a word it
receives (R192).  Each speaks of a state at the start of an exchange, of the draws that are still to come. -/

namespace Sys2Proof.Machine

/-- The word the m-th exchange from now receives: bit 31 − p is its sample of bit period p (40_link_phy.md R123). -/
def Peer.wordAt (p : Peer) (m : Nat) : Word := wordOfSamples fun k => p.dataAt (Config.wordBits * m + k)

/-- EA1 PeerSends(P): the sample of bit period p of the m-th exchange from now is `P[31 − p]` (R111). -/
def peerSends (p : Peer) (m : Nat) (w : Word) : Prop :=
  ∀ k, k < Config.wordBits → p.dataAt (Config.wordBits * m + k) = wireBit w k

/-- EA3 PeerReady(k): the k-th poll of the next busy-wait returns "not busy", and the polls before it "busy" (R111). -/
def peerReady (p : Peer) (busyLevel : Bool) (k : Nat) : Prop :=
  1 ≤ k ∧ p.busyAt (k - 1) ≠ busyLevel ∧ ∀ n, n < k - 1 → p.busyAt n = busyLevel

/-- EA4 ConsoleLoop, for the next `n` exchanges: the console's loaded word is SENTINEL in each (R192). -/
def consoleLoop (p : Peer) (n : Nat) : Prop := ∀ m, m < n → peerSends p m Config.sentinel

/-- EA5 EventuallyIdle: some exchange to come returns SENTINEL (R193). -/
def eventuallyIdle (p : Peer) : Prop := ∃ m, peerSends p m Config.sentinel

/-- What the console makes of a received word (R192): still idle, or literal text content. -/
inductive ConsoleView where
  | stillIdle
  | text (bytes : List Byte)
  deriving DecidableEq, Repr

/-- The console's reading of one received word (R192); it keeps no mode between words. -/
def consoleReads (w : Word) : ConsoleView := if isIdle w then .stillIdle else .text (linkDecode w)

/-! ### What the peer latches (EA2 PeerReceives, R111)

Each speaks of a trace that begins after INIT.  A drive of CLK_OUT from X, INIT's, is no edge here: DESIGN CHOICE, as the
document does not say whether the peer counts it (91_not_in_source.md, 43_control; log entry 17). -/

/-- The level of DATA_OUT after a trace, from its level before it. -/
def dataAfter : Level → List Event → Level
  | data, [] => data
  | _, .drive .dataOut v :: rest => dataAfter (.ofBit v) rest
  | data, _ :: rest => dataAfter data rest

/-- The bits a trace drives DATA_OUT to, in order. -/
def dataDrives : List Event → List Bool
  | [] => []
  | .drive .dataOut v :: rest => v :: dataDrives rest
  | _ :: rest => dataDrives rest

/-- EA2's instants, for the m-th exchange of a trace: the peer latches once in each bit period p, when `latch p` events have
happened, which is after SETUP(p) drove DATA_OUT and before DATA_OUT is driven again, "while DATA_OUT holds the value of
that period" (R111, R121).  An exchange drives DATA_OUT 33 times: 32 bits, and the restore.  At which clock edge the
instant lies is left open. -/
def latchesEachPeriod (ev : List Event) (m : Nat) (latch : Nat → Nat) : Prop :=
  ∀ p, p < Config.wordBits → latch p ≤ ev.length ∧
    (dataDrives (ev.take (latch p))).length = (Config.wordBits + 1) * m + p + 1

/-- EA2's received word: a peer that latches at those instants receives w, bit 31 first; `data` is the level of DATA_OUT
before the trace (R111). -/
def peerReceives (data : Level) (ev : List Event) (latch : Nat → Nat) (w : Word) : Prop :=
  ∀ p, p < Config.wordBits → dataAfter data (ev.take (latch p)) = Level.ofBit (wireBit w p)

/-- The levels a peer latches that latches DATA_OUT at each clock edge to `edge`, one case of EA2: `clk` and `data` are the
levels before the trace. -/
def latchedBits (edge : Bool) : Level → Level → List Event → List Level
  | _, _, [] => []
  | clk, data, .drive .clkOut v :: rest =>
    if v = edge ∧ clk = Level.ofBit (!edge) then data :: latchedBits edge (.ofBit v) data rest
    else latchedBits edge (.ofBit v) data rest
  | clk, _, .drive .dataOut v :: rest => latchedBits edge clk (.ofBit v) rest
  | clk, data, _ :: rest => latchedBits edge clk data rest

end Sys2Proof.Machine
end

