-- ==== Sys2Proof/Safety.lean ====
section
/-! DEFINITION. The terms claims use: the good final state, the observations on a trace, the trace and the result of one
exchange in closed form, and the invariants of the machine. -/

namespace Sys2Proof.Machine

/-- A good final state: no command runs and neither sticky mark holds an entry (10_state.md R38). -/
def State.good (s : State) : Prop := s.seq.phase = .idle ∧ s.faulted = [] ∧ s.refused = []

/-! ### Observations on a trace (10_state.md R40) -/

/-- The edges of CLK_OUT to the level `edge`; `clk` is its level before the trace.  A clock pulse is a falling edge
followed by a rising one (00_scope.md R17).  A drive from X, INIT's, counts as no edge: DESIGN CHOICE (log entry 17). -/
def clockEdges (edge : Bool) : Level → List Event → Nat
  | _, [] => 0
  | clk, .drive .clkOut v :: rest =>
    (if v = edge ∧ clk = Level.ofBit (!edge) then 1 else 0) + clockEdges edge (.ofBit v) rest
  | clk, _ :: rest => clockEdges edge clk rest

/-- DATA_OUT changes only while CLK_OUT is 1 (40_link_phy.md R121); `clk` and `data` are the levels before the trace.  A
CLK_OUT at X does not count as 1: DESIGN CHOICE (log entry 17). -/
def dataStable : Level → Level → List Event → Bool
  | _, _, [] => true
  | _, data, .drive .clkOut v :: rest => dataStable (.ofBit v) data rest
  | clk, data, .drive .dataOut v :: rest =>
    (decide (Level.ofBit v = data) || decide (clk = .one)) && dataStable clk (.ofBit v) rest
  | clk, data, _ :: rest => dataStable clk data rest

/-- The data words of SEND_CHUNK in a trace, in order. -/
def dataWords : List Event → List Word
  | [] => []
  | .dataWord w :: rest => w :: dataWords rest
  | _ :: rest => dataWords rest

/-- The words the peer was sent, in order: one exchange each. -/
def sentWords : List Event → List Word
  | [] => []
  | .xferBegin w :: rest => w :: sentWords rest
  | _ :: rest => sentWords rest

/-- Every data word has an earlier rendezvous after the most recent CmdBegin(CONNECTED), and that rendezvous ends an
exchange that received SENTINEL (42_handshake_arbiter.md R191). -/
def handshakePrecedes (tr : List Event) : Prop :=
  ∀ before w after, tr = before ++ .dataWord w :: after →
    ∃ a k b, before = a ++ [.xferEnd Config.sentinel, .rendezvous k] ++ b ∧ Event.cmdBegin .connected ∉ b

/-! ### One exchange in closed form (40_link_phy.md R113, R123, R130) -/

/-- How many BUSY_IN samples a busy-wait takes when `fuel` attempts are left and `f n` is its next level (R113). -/
def pollSamples (busyLevel : Bool) (f : Nat → Bool) : Nat → Nat → Nat
  | 0, _ => 0
  | fuel + 1, n => if f n = busyLevel then pollSamples busyLevel f fuel (n + 1) + 1 else 1

/-- Whether the busy-wait ends at its bound: no attempt reports "not busy" (R113). -/
def pollsBound (busyLevel : Bool) (f : Nat → Bool) : Nat → Nat → Bool
  | 0, _ => true
  | fuel + 1, n => decide (f n = busyLevel) && pollsBound busyLevel f fuel (n + 1)

/-- The samples of the busy-wait a state is about to make. -/
def State.pollCount (s : State) : Nat := pollSamples s.params.busyLevel s.peer.busyAt s.params.busyPollMax 0

/-- Whether that busy-wait ends at its bound. -/
def State.pollBound (s : State) : Bool := pollsBound s.params.busyLevel s.peer.busyAt s.params.busyPollMax 0

/-- The events of the busy-wait (R130). -/
def State.pollTrace (s : State) : List Event :=
  ((List.range s.pollCount).map fun n => Event.sample .busyIn (s.peer.busyAt n)) ++
    if s.pollBound then [.busyBound] else []

/-- The events of bit period p (R130). -/
def periodTrace (tx : Word) (f : Nat → Bool) (p : Nat) : List Event :=
  [.drive .dataOut (wireBit tx p), .drive .indOut (wireBit tx p), .drive .clkOut false, .drive .clkOut true,
    .sample .dataIn (f p)]

/-- The trace of one exchange (R130). -/
def State.exchangeTrace (s : State) (tx : Word) : List Event :=
  .xferBegin tx :: (s.pollTrace ++ (List.range Config.wordBits).flatMap (periodTrace tx s.peer.dataAt) ++
    [.drive .clkOut true, .drive .dataOut true, .xferEnd (s.peer.wordAt 0)])

/-- The peer's inputs after one exchange: 32 draws of DATA_IN and the polls of BUSY_IN are used up. -/
def State.peerAfterExchange (s : State) : Peer :=
  { busyIn := s.peer.busyIn.drop s.pollCount
    dataIn := s.peer.dataIn.drop Config.wordBits
    busyDrawn := s.peer.busyDrawn + s.pollCount
    dataDrawn := s.peer.dataDrawn + Config.wordBits }

/-- The state an exchange of `tx` ends in, started from `s` by `caller`, up to what DONE does for the caller. -/
def State.afterExchange (s : State) (tx : Word) (caller : Caller) : State :=
  { s with
    lines := { clkOut := .one, dataOut := .one, indOut := .ofBit (wireBit tx (Config.wordBits - 1)) }
    rxw := s.peer.wordAt 0
    status := { s.status with idleDet := isIdle (s.peer.wordAt 0) }
    seq :=
      { s.seq with
        phase := .done, shift := tx, acc := s.peer.wordAt 0, i := BitVec.ofNat Config.indexBits (Config.wordBits - 1)
        polls := s.pollCount, caller := caller }
    peer := s.peerAfterExchange
    trace := s.trace ++ s.exchangeTrace tx }

/-- The micro-steps of an exchange from POLL to DONE, both included. -/
def State.exchangeSteps (s : State) : Nat := s.pollCount + (if s.pollBound then 1 else 0) + (4 * Config.wordBits + 2)

/-- The words of one SEND_CHUNK: ⌈LEN/4⌉ of them (41_framer.md R157). -/
def chunkCount (len : Nat) : Nat := (len + Config.stride - 1) / Config.stride

/-- Byte q of the chunk, 0x00 past its end (41_framer.md R150, R158). -/
def chunkByte (buf : Memory) (len q : Nat) : Byte :=
  if q < len then (Memory.read buf q).getD 0 else 0

/-- Word j of the chunk: `encode(4j, LEN)` (41_framer.md R157). -/
def chunkWord (buf : Memory) (len j : Nat) : Word :=
  pack ((List.range Config.stride).map fun k => chunkByte buf len (Config.stride * j + k))

/-- Every byte below the valid length is written (70_reset_and_hazards.md R276). -/
def chunkWritten (buf : Memory) (len : Nat) : Prop := ∀ k, k < len → (Memory.read buf k).isSome

/-! ### What an instruction does, as one function of the state -/

/-- What a command does once it has begun (43_control.md R225 check 5). -/
def commandBody : Opcode → State → State
  | .init => initBody
  | .exchange => exchangeBody
  | .encode => encodeBody
  | .sendChunk => sendChunkBody
  | .connected => connectedBody
  | .sync => syncBody
  | .close => closeBody
  | .cooldownDone => cooldownDoneBody

/-! ### The invariants -/

/-- The level of DATA_OUT at each phase, after INIT (40_link_phy.md R121, R122; 10_state.md R21). -/
def dataOutExpected (q : Sequencer) : Level :=
  match q.phase with
  | .idle => .one
  | .poll => .one
  | .setup => if q.i = 0 then .one else .ofBit (wireBit q.shift (q.i.toNat - 1))
  | .low => .ofBit (wireBit q.shift q.i.toNat)
  | .high => .ofBit (wireBit q.shift q.i.toNat)
  | .sample => .ofBit (wireBit q.shift q.i.toNat)
  | .restore => .ofBit (wireBit q.shift (Config.wordBits - 1))
  | .done => .one
  | .syncNext => .one
  | .chunkNext => .one

/-- Which command runs at each phase, and the arbiter state it needs (10_state.md R30, R31; 42_handshake_arbiter.md R189). -/
def commandMatches (q : Sequencer) (arb : ArbState) : Prop :=
  match q.phase with
  | .idle => q.cmd = none
  | .syncNext => q.cmd = some .sync ∧ arb = .syncing
  | .chunkNext => q.cmd = some .sendChunk ∧ arb = .streaming
  | _ =>
    match q.caller with
    | .exchange => q.cmd = some .exchange
    | .sync => q.cmd = some .sync ∧ arb = .syncing
    | .sendChunk => q.cmd = some .sendChunk ∧ arb = .streaming

/-- What holds in every state that runs from reset reach, and every step keeps. -/
structure State.Inv (s : State) : Prop where
  /-- BUF is in canonical form. -/
  bufWf : Memory.wf s.buf = true
  /-- OFF and LEN hold 0 to 64 (10_state.md R24). -/
  offRange : s.off.toNat ≤ Config.bufSize
  lenRange : s.len.toNat ≤ Config.bufSize
  /-- ACTIVE is 1 exactly when the phase is not IDLE (10_state.md R32). -/
  activePhase : s.status.active = true ↔ s.seq.phase ≠ .idle
  /-- SYNCED = 1 ⇔ ARB = STREAMING (42_handshake_arbiter.md R190). -/
  syncedArb : s.status.synced = true ↔ s.status.arb = .streaming
  /-- IDLE_DET is 1 exactly when the last received word is SENTINEL (10_state.md R27, R33). -/
  idleDetRxw : s.status.idleDet = isIdle s.rxw
  /-- The running command and its phase agree. -/
  command : commandMatches s.seq s.status.arb
  /-- Before INIT no line is driven, no command runs and ARB is CONNECTING (10_state.md R21, R41; 43_control.md R227). -/
  beforeInit : s.status.initDone = false →
    s.lines = { clkOut := .x, dataOut := .x, indOut := .x } ∧ s.seq.phase = .idle ∧ s.status.arb = .connecting
  /-- After INIT CLK_OUT is low only between LOW and HIGH (40_link_phy.md R115, R116, R121). -/
  clkLevel : s.status.initDone = true → s.lines.clkOut = if s.seq.phase = .high then .zero else .one
  /-- After INIT DATA_OUT holds the bit of its period, and is high when no exchange runs (R121, R122). -/
  dataLevel : s.status.initDone = true → s.lines.dataOut = dataOutExpected s.seq
  /-- An exchange reaches RESTORE after bit period 31 (40_link_phy.md R117). -/
  restoreIndex : s.seq.phase = .restore → s.seq.i = BitVec.ofNat Config.indexBits (Config.wordBits - 1)
  /-- The poll counter stays within its bound (10_state.md R31). -/
  pollsBound : s.seq.polls ≤ s.params.busyPollMax
  /-- The word index stays within 0 to 16 (10_state.md R31). -/
  wordIndex : s.seq.j ≤ Config.bufSize / Config.stride
  /-- While SEND_CHUNK runs, the word index is at most ⌈LEN/4⌉ (41_framer.md R157). -/
  walkIndex : s.seq.cmd = some .sendChunk → s.seq.j ≤ chunkCount s.len.toNat
  /-- PEER_UNRESP needs the hardened bound (10_state.md R34). -/
  unrespBound : s.status.peerUnresp = true → s.params.syncLimit ≠ none

/-- The trace part of the machine's invariant: handshake precedence, and what carries it from step to step. -/
structure State.TraceInv (s : State) : Prop where
  /-- Handshake precedence (42_handshake_arbiter.md R191). -/
  precedence : handshakePrecedes s.trace
  /-- In STREAMING the session's rendezvous stands in the trace. -/
  streaming : s.status.arb = .streaming →
    ∃ a k b, s.trace = a ++ [.xferEnd Config.sentinel, .rendezvous k] ++ b ∧ Event.cmdBegin .connected ∉ b
  /-- SYNC_NEXT comes right after the end of the exchange it judges. -/
  afterSync : s.seq.phase = .syncNext → ∃ a, s.trace = a ++ [.xferEnd s.rxw]

end Sys2Proof.Machine
end

