-- ==== Sys2Proof/Certificates/Slice0/Obligations.lean ====
section
/-! DEFINITION. The statements about the model, for the provers.  Rule numbers are those of spec/. -/

open Sys2Proof Sys2Proof.Machine

/-! ### Encodings -/

/-- 30_encoding.md R90: the decoder gives back every well-formed instruction from its unit, with every operand. -/
def Obligations.DecodeInvertsEncode : Prop :=
  ∀ i : Instr, i.wellFormed = true → decode (encode i) = .ok i

/-- 30_encoding.md R86, R87: a command word is reserved exactly when a bit of [31:4] is set or OP is 0x0 or 0x9 to 0xF, and
selects a command exactly when it is that command's word. -/
def Obligations.CommandWordsSelectOneCommandOrAreReserved : Prop :=
  ∀ v : Word,
    (decode (.cmd v) = .error (.reservedCommand v) ↔
      v.extractLsb' 4 28 ≠ 0 ∨ (v.extractLsb' 0 4).toNat = 0 ∨ 9 ≤ (v.extractLsb' 0 4).toNat) ∧
    (decode (.cmd v) = .ok .init ↔ v = 0x00000001) ∧
    (decode (.cmd v) = .ok .exchange ↔ v = 0x00000002) ∧
    (decode (.cmd v) = .ok .encode ↔ v = 0x00000003) ∧
    (decode (.cmd v) = .ok .sendChunk ↔ v = 0x00000004) ∧
    (decode (.cmd v) = .ok .connected ↔ v = 0x00000005) ∧
    (decode (.cmd v) = .ok .sync ↔ v = 0x00000006) ∧
    (decode (.cmd v) = .ok .close ↔ v = 0x00000007) ∧
    (decode (.cmd v) = .ok .cooldownDone ↔ v = 0x00000008)

/-- 20_memory.md R66, R67, R69 and 60_exceptions.md R243: every access the map does not admit is rejected by the first
reason that applies, address before width before direction. -/
def Obligations.InadmissibleAccessesAreRejectedInOrder : Prop :=
  ∀ (w s : Bool) (a : BitVec 8) (v : Word),
    let d := BitVec.ofBool w ++ BitVec.ofBool s ++ a
    let n := if s then 4 else 1
    ((0x1C ≤ a.toNat ∧ a.toNat ≤ 0x3F ∨ 0x80 ≤ a.toNat) → decode (.bus d v) = .error (.badAddress a.toNat)) ∧
    (a.toNat ≤ 0x1B → (s = false ∨ a.toNat % 4 ≠ 0) → decode (.bus d v) = .error (.badAccessWidth a.toNat n)) ∧
    (0x40 ≤ a.toNat → a.toNat ≤ 0x7F → s = true → decode (.bus d v) = .error (.badAccessWidth a.toNat n)) ∧
    (a = 0x00 → s = true → w = false → decode (.bus d v) = .error (.writeOnly 0x00)) ∧
    (a = 0x04 ∨ a = 0x0C ∨ a = 0x10 → s = true → w = true → decode (.bus d v) = .error (.readOnly a.toNat))

/-- 30_encoding.md R88, R90: an accepted access descriptor is the one of the instruction it decodes to, with its data.  That
an 8-bit write uses the low byte of the 32-bit data and ignores the rest is the model's reading (log entry 9). -/
def Obligations.AcceptedDescriptorIsItsInstructions : Prop :=
  ∀ (d : BitVec 10) (v : Word) (i : Instr), decode (.bus d v) = .ok i →
    i.wellFormed = true ∧ ∃ v', encode i = .bus d v' ∧
      (d.getLsbD 9 = true → d.getLsbD 8 = true → v' = v) ∧
      (d.getLsbD 9 = true → d.getLsbD 8 = false → v' = (v.setWidth 8).setWidth 32)

/-- 30_encoding.md R86, R88 and the descriptors of 95_test_vectors.md: some words decode to what they stand for. -/
def Obligations.SpecWordsDecode : Prop :=
  decodeTableWord 32 0x00000002 = some .exchange ∧ decodeTableWord 32 0x00000006 = some .sync ∧
    decodeTableWord 32 0x00000012 = none ∧ decodeTableWord 16 0x300 = some (.wrCmd 0) ∧
    decodeTableWord 16 0x104 = some .rdStatus ∧ decodeTableWord 16 0x314 = some (.wrOff 0) ∧
    decodeTableWord 16 0x27F = some (.wrbBuf 63 0) ∧ decodeTableWord 16 0x040 = some (.rdbBuf 0) ∧
    decodeTableWord 16 0x100 = none

/-! ### Steps -/

/-- The host's next access, decoded, is what a step runs (30_encoding.md R88, 43_control.md R229).  The reset
schedule and the statement index are the model's own (log entries 4, 11). -/
def Obligations.StepRunsTheDecodedAccess : Prop :=
  ∀ (s : State) (d : BitVec 10) (v : Word) (i : Instr), s.resets.head? ≠ some true → s.seq.phase = .idle →
    s.host.program[s.host.pc]? = some (.access d v) → decode (.bus d v) = .ok i →
    step s = exec i { s with resets := s.resets.tail, host := { s.host with pc := s.host.pc + 1 } }

/-- 30_encoding.md R91: the statement of any well-formed instruction runs that instruction; a command mnemonic alone means
`wr CMD` of its word. -/
def Obligations.InstructionStatementsRunTheirInstruction : Prop :=
  ∀ (s : State) (i : Instr), i.wellFormed = true → s.resets.head? ≠ some true → s.seq.phase = .idle →
    s.host.program[s.host.pc]? = some (stmtOf i) →
    step s = exec i { s with resets := s.resets.tail, host := { s.host with pc := s.host.pc + 1 } }

/-- The host places a row's word and the next step runs the instruction the decoder reads from it, on the given state: only
the host's program and statement index, the reset schedule, ACTIVE, the phase and the running command are set (the placing
is the model's, log entry 10). -/
def Obligations.TableWordRunsItsInstruction : Prop :=
  ∀ (s : State) (nbits w : Nat) (i : Instr), decodeTableWord nbits w = some i →
    ∃ program : List HostStmt, step (s.withFetchWord nbits w) = exec i { s with
      host := { s.host with program := program, pc := s.host.pc + 1 }
      status := { s.status with active := false }
      seq := { s.seq with phase := .idle, cmd := none }
      resets := [] }

/-- 60_exceptions.md R242, 43_control.md R226: a rejected access is recorded, and changes no register, BUF byte, line or
phase.  That it is a next state after which the host goes on, and that a refused read leaves the host no value, are the
model's readings (log entries 12 and 7). -/
def Obligations.RejectedAccessIsRecordedOnly : Prop :=
  ∀ (s : State) (d : BitVec 10) (v : Word) (r : DecodeReject), s.resets.head? ≠ some true → s.seq.phase = .idle →
    s.host.program[s.host.pc]? = some (.access d v) → decode (.bus d v) = .error r →
    step s = .next { s with
      resets := s.resets.tail
      refused := s.refused ++ [refuseReasonOf r]
      host := { s.host with
        pc := s.host.pc + 1
        lastRead := if d.getLsbD 9 = false ∧ d.getLsbD 8 = true then none else s.host.lastRead
        lastByte := if d.getLsbD 9 = false ∧ d.getLsbD 8 = false then none else s.host.lastByte } }

/-- 30_encoding.md R91: `bz` and `bnz` are host control that reads what the preceding `rd` returned; the block is
untouched.  A label is a statement index (log entry 11). -/
def Obligations.HostBranchesOnThePrecedingRead : Prop :=
  ∀ (s : State) (x : BranchOperand) (l : Nat) (w : Word), s.resets.head? ≠ some true → s.seq.phase = .idle →
    s.host.lastRead = some w →
    let value : Word := match x with
      | .field f => f.extract w
      | .register => w
    (s.host.program[s.host.pc]? = some (.bz x l) →
      step s = .next { s with
        resets := s.resets.tail
        host := { s.host with pc := if value = 0 then l else s.host.pc + 1 } }) ∧
    (s.host.program[s.host.pc]? = some (.bnz x l) →
      step s = .next { s with
        resets := s.resets.tail
        host := { s.host with pc := if value = 0 then s.host.pc + 1 else l } })

/-- 43_control.md R228: while a command runs the host has no step, and what it owns does not move.  That
`exec` answers such an access with a refusal is the model's choice (log entry 12). -/
def Obligations.HostIsHeldWhileACommandRuns : Prop :=
  ∀ s : State, s.seq.phase ≠ .idle →
    (∀ i, exec i s = .refused .hostHeld) ∧
    (s.resets.head? ≠ some true →
      ∃ t, step s = .next t ∧ t.host = s.host ∧ t.txw = s.txw ∧ t.len = s.len ∧ t.buf = s.buf ∧ t.refused = s.refused)

/-- 60_exceptions.md R240: "The block raises no exceptions": from every state the machine steps on (the
model's choice of a next state for every fault and refusal is log entry 12). -/
def Obligations.EveryStepAnswersANextState : Prop :=
  ∀ s : State, ∃ t, step s = .next t

/-- 70_reset_and_hazards.md R270, 60_exceptions.md R246: reset takes precedence over everything and sets every piece of the
block's state that has a reset value. -/
def Obligations.ResetTakesPrecedence : Prop :=
  ∀ s : State, s.resets.head? = some true →
    ∃ t, step s = .next t ∧ t.lines = { clkOut := .x, dataOut := .x, indOut := .x } ∧
      t.txw = 0 ∧ t.rxw = 0 ∧ t.framew = 0 ∧ t.off = 0 ∧ t.len = 0 ∧ t.status.toWord = 0 ∧
      (∀ k, Memory.read t.buf k = none) ∧ t.seq.phase = .idle ∧ t.faulted = [] ∧ t.refused = [] ∧ t.trace = [.reset]

/-- 70_reset_and_hazards.md R271: after reset the block is idle and accepts INIT alone. -/
def Obligations.AfterResetOnlyInitIsAccepted : Prop :=
  State.reset.seq.phase = .idle ∧ State.reset.status.initDone = false ∧ State.reset.status.arb = .connecting ∧
    ∀ op : Opcode, op ≠ .init →
      exec (.wrCmd op.word) State.reset = .next { State.reset with refused := [.notInitialised op.word] }

/-! ### Host accesses -/

/-- 43_control.md R221: the 32-bit reads and their addresses; each returns its register and has no side effect. -/
def Obligations.RegisterReadsReturnTheirRegister : Prop :=
  ∀ s : State, s.seq.phase = .idle →
    exec .rdStatus s = .next { s with host := { s.host with lastRead := some s.status.toWord } } ∧
    exec .rdTxw s = .next { s with host := { s.host with lastRead := some s.txw } } ∧
    exec .rdRxw s = .next { s with host := { s.host with lastRead := some s.rxw } } ∧
    exec .rdFramew s = .next { s with host := { s.host with lastRead := some s.framew } } ∧
    exec .rdOff s = .next { s with host := { s.host with lastRead := some ((0 : BitVec 25) ++ s.off) } } ∧
    exec .rdLen s = .next { s with host := { s.host with lastRead := some ((0 : BitVec 25) ++ s.len) } } ∧
    ∀ v, decode (.bus 0x104 v) = .ok .rdStatus ∧ decode (.bus 0x108 v) = .ok .rdTxw ∧
      decode (.bus 0x10C v) = .ok .rdRxw ∧ decode (.bus 0x110 v) = .ok .rdFramew ∧
      decode (.bus 0x114 v) = .ok .rdOff ∧ decode (.bus 0x118 v) = .ok .rdLen ∧
      decode (.bus 0x100 v) = .error (.writeOnly 0x00)

/-- 43_control.md R222: the 32-bit writes and their addresses (what a CMD write does is R225); the comparison with 64 is
unsigned on all 32 bits and a refused write stores nothing. -/
def Obligations.RegisterWritesStoreOrAreRefused : Prop :=
  ∀ (s : State) (v : Word), s.seq.phase = .idle →
    exec (.wrTxw v) s = .next { s with txw := v } ∧
    (v.toNat ≤ 64 → ∃ o : BitVec 7, o.toNat = v.toNat ∧ exec (.wrOff v) s = .next { s with off := o }) ∧
    (v.toNat ≤ 64 → ∃ o : BitVec 7, o.toNat = v.toNat ∧ exec (.wrLen v) s = .next { s with len := o }) ∧
    (64 < v.toNat → exec (.wrOff v) s = .next { s with refused := s.refused ++ [.outOfRange .off v] }) ∧
    (64 < v.toNat → exec (.wrLen v) s = .next { s with refused := s.refused ++ [.outOfRange .len v] }) ∧
    decode (.bus 0x300 v) = .ok (.wrCmd v) ∧ decode (.bus 0x308 v) = .ok (.wrTxw v) ∧
    decode (.bus 0x314 v) = .ok (.wrOff v) ∧ decode (.bus 0x318 v) = .ok (.wrLen v) ∧
    decode (.bus 0x304 v) = .error (.readOnly 0x04) ∧ decode (.bus 0x30C v) = .error (.readOnly 0x0C) ∧
    decode (.bus 0x310 v) = .error (.readOnly 0x10)

/-- 43_control.md R223, 20_memory.md R62: a buffer write sets its byte and no other, and nothing else. -/
def Obligations.BufferWriteSetsItsByteOnly : Prop :=
  ∀ (s : State) (k : Nat) (v : Byte), s.seq.phase = .idle → k < 64 →
    ∃ m, exec (.wrbBuf k v) s = .next { s with buf := m } ∧ Memory.read m k = some v ∧
      ∀ q, q ≠ k → Memory.read m q = Memory.read s.buf q

/-- 43_control.md R224, 20_memory.md R61: a buffer read returns a written byte; an unwritten one faults, returns no value,
and leaves the rest as it was (of the sequencer's registers the model's choice, log entry 3). -/
def Obligations.BufferReadReturnsOrFaults : Prop :=
  ∀ (s : State) (k : Nat), s.seq.phase = .idle → k < 64 →
    (∀ b, Memory.read s.buf k = some b →
      exec (.rdbBuf k) s = .next { s with host := { s.host with lastByte := some b } }) ∧
    (Memory.read s.buf k = none →
      exec (.rdbBuf k) s = .next { s with
        faulted := s.faulted ++ [.unwrittenBufferByte k]
        status := { s.status with active := false }
        seq := { s.seq with phase := .idle, cmd := none }
        host := { s.host with lastByte := none } })

/-- 10_state.md R27, R28, R36: the STATUS word, bit by bit; a branch's field extraction reads it back. -/
def Obligations.StatusWordHoldsItsFields : Prop :=
  ∀ st : Status,
    let arb : Word := match st.arb with
      | .connecting => 0b00
      | .syncing => 0b01
      | .streaming => 0b10
      | .cooldown => 0b11
    st.toWord.getLsbD 0 = st.initDone ∧ st.toWord.getLsbD 1 = st.active ∧ st.toWord.getLsbD 2 = st.idleDet ∧
    st.toWord.getLsbD 3 = st.synced ∧ st.toWord.getLsbD 6 = st.peerUnresp ∧ st.toWord.extractLsb' 7 25 = 0 ∧
    (st.toWord.extractLsb' 4 2).setWidth 32 = arb ∧
    StatusField.extract .initDone st.toWord = (if st.initDone then 1 else 0) ∧
    StatusField.extract .active st.toWord = (if st.active then 1 else 0) ∧
    StatusField.extract .idleDet st.toWord = (if st.idleDet then 1 else 0) ∧
    StatusField.extract .synced st.toWord = (if st.synced then 1 else 0) ∧
    StatusField.extract .arb st.toWord = arb ∧
    StatusField.extract .peerUnresp st.toWord = (if st.peerUnresp then 1 else 0)

/-- 43_control.md R225, 60_exceptions.md R243: a CMD write records the first check that fails; otherwise the command
begins, with ACTIVE ← 1, and runs from its first step. -/
def Obligations.CmdWriteDispatchesByTheFirstFailingCheck : Prop :=
  ∀ (s : State) (v : Word), s.seq.phase = .idle →
    (v.extractLsb' 4 28 ≠ 0 ∨ (v.extractLsb' 0 4).toNat = 0 ∨ 9 ≤ (v.extractLsb' 0 4).toNat →
      exec (.wrCmd v) s = .next { s with refused := s.refused ++ [.reservedCommand v] }) ∧
    ∀ op : Opcode, v = op.word →
      (op ≠ .init → s.status.initDone = false →
        exec (.wrCmd v) s = .next { s with refused := s.refused ++ [.notInitialised v] }) ∧
      (op = .init → s.status.initDone = true →
        exec (.wrCmd v) s = .next { s with refused := s.refused ++ [.alreadyInitialised] }) ∧
      (op ≠ .init → s.status.initDone = true → arbAllowed op s.status.arb = false →
        exec (.wrCmd v) s = .next { s with refused := s.refused ++ [.wrongArbState op s.status.arb] }) ∧
      ((op = .init ↔ s.status.initDone = false) → arbAllowed op s.status.arb = true →
        exec (.wrCmd v) s = .next (commandBody op { s with
          trace := s.trace ++ [.cmdBegin op]
          status := { s.status with active := true }
          seq := { s.seq with cmd := some op } })) ∧
      exec (.wrCmd v) s = exec op.instr s

/-- 42_handshake_arbiter.md R189: after INIT a gated command outside its ARB state is refused and changes nothing;
EXCHANGE and ENCODE begin in any. -/
def Obligations.GatedCommandsAreRefusedInOtherArbStates : Prop :=
  ∀ s : State, s.seq.phase = .idle → s.status.initDone = true →
    (s.status.arb ≠ .streaming →
      exec .sendChunk s = .next { s with refused := s.refused ++ [.wrongArbState .sendChunk s.status.arb] } ∧
      exec .close s = .next { s with refused := s.refused ++ [.wrongArbState .close s.status.arb] }) ∧
    (s.status.arb ≠ .connecting →
      exec .connected s = .next { s with refused := s.refused ++ [.wrongArbState .connected s.status.arb] }) ∧
    (s.status.arb ≠ .syncing →
      exec .sync s = .next { s with refused := s.refused ++ [.wrongArbState .sync s.status.arb] }) ∧
    (s.status.arb ≠ .cooldown →
      exec .cooldownDone s = .next { s with refused := s.refused ++ [.wrongArbState .cooldownDone s.status.arb] }) ∧
    (∃ t, exec .exchange s = .next t ∧ t.refused = s.refused ∧ t.seq.phase = .poll) ∧
    (∃ t, exec .encode s = .next t ∧ t.refused = s.refused ∧ t.trace ≠ s.trace)

/-- 43_control.md R226: an instruction that records a refusal changes no register, BUF byte, line, phase or event.  That it
is a next state, and may leave the host no byte read, are the model's readings (log entries 12 and 8). -/
def Obligations.RefusalsChangeNothingElse : Prop :=
  ∀ (i : Instr) (s t : State), exec i s = .next t → t.refused ≠ s.refused →
    ∃ r l, t = { s with refused := s.refused ++ [r], host := { s.host with lastByte := l } } ∧
      (l = s.host.lastByte ∨ l = none)

/-! ### The commands that end in one step

That the sequencer's other registers keep their values when a command ends is the model's choice (log entry 3), in every
statement here. -/

/-- 43_control.md R220: INIT before INIT_DONE.  The sequencer's other registers: log entry 3. -/
def Obligations.InitConfiguresTheLines : Prop :=
  ∀ s : State, s.seq.phase = .idle → s.status.initDone = false →
    exec .init s = .next { s with
      lines := { s.lines with clkOut := .one, dataOut := .one }
      status := { s.status with initDone := true, active := false, arb := .connecting }
      seq := { s.seq with phase := .idle, cmd := none }
      trace := s.trace ++ [.cmdBegin .init, .drive .clkOut true, .drive .dataOut true, .configure, .cmdEnd .init] }

/-- 42_handshake_arbiter.md R181: CONNECTED from CONNECTING.  The sequencer's other registers: log entry 3. -/
def Obligations.ConnectedStartsASession : Prop :=
  ∀ s : State, s.seq.phase = .idle → s.status.initDone = true → s.status.arb = .connecting →
    exec .connected s = .next { s with
      off := 0
      len := 0
      status := { s.status with active := false, arb := .syncing, synced := false, peerUnresp := false }
      seq := { s.seq with phase := .idle, cmd := none }
      trace := s.trace ++ [.cmdBegin .connected, .cmdEnd .connected] }

/-- 42_handshake_arbiter.md R187: CLOSE from STREAMING.  The sequencer's other registers: log entry 3. -/
def Obligations.CloseEndsTheSession : Prop :=
  ∀ s : State, s.seq.phase = .idle → s.status.initDone = true → s.status.arb = .streaming →
    exec .close s = .next { s with
      status := { s.status with active := false, arb := .cooldown, synced := false }
      seq := { s.seq with phase := .idle, cmd := none }
      trace := s.trace ++ [.cmdBegin .close, .cmdEnd .close] }

/-- 42_handshake_arbiter.md R188: COOLDOWN_DONE from COOLDOWN.  The sequencer's other registers: log entry 3. -/
def Obligations.CooldownDoneReturnsToConnecting : Prop :=
  ∀ s : State, s.seq.phase = .idle → s.status.initDone = true → s.status.arb = .cooldown →
    exec .cooldownDone s = .next { s with
      status := { s.status with active := false, arb := .connecting }
      seq := { s.seq with phase := .idle, cmd := none }
      trace := s.trace ++ [.cmdBegin .cooldownDone, .cmdEnd .cooldownDone] }

/-- 41_framer.md R151: ENCODE writes FRAMEW when every byte it needs is written, and faults on the first that is not, with
FRAMEW unchanged.  The sequencer's other registers: log entry 3. -/
def Obligations.EncodeWritesFramewOrFaults : Prop :=
  ∀ s : State, s.seq.phase = .idle → s.status.initDone = true →
    (∀ w, frameWord s.buf s.off.toNat s.len.toNat = .ok w →
      exec .encode s = .next { s with
        framew := w
        status := { s.status with active := false }
        seq := { s.seq with phase := .idle, cmd := none }
        trace := s.trace ++ [.cmdBegin .encode, .cmdEnd .encode] }) ∧
    (∀ r, frameWord s.buf s.off.toNat s.len.toNat = .error r →
      exec .encode s = .next { s with
        faulted := s.faulted ++ [r]
        status := { s.status with active := false }
        seq := { s.seq with phase := .idle, cmd := none }
        trace := s.trace ++ [.cmdBegin .encode] })

/-! ### The framer -/

/-- 41_framer.md R150: the word of `encode(off, len)`, byte by byte, and its fault: the lowest unwritten position below
`len`. -/
def Obligations.EncodePacksBigEndianWithZeroFill : Prop :=
  ∀ (buf : Memory) (off len : Nat),
    ((∀ k, k < 4 → off + k < len → (Memory.read buf (off + k)).isSome) →
      ∃ w : Word, frameWord buf off len = .ok w ∧
        ∀ k, k < 4 → w.extractLsb' (24 - 8 * k) 8 =
          if off + k < len then (Memory.read buf (off + k)).getD 0 else 0x00) ∧
    (∀ k, k < 4 → off + k < len → Memory.read buf (off + k) = none →
      (∀ m, m < k → off + m < len → (Memory.read buf (off + m)).isSome) →
      frameWord buf off len = .error (.unwrittenBufferByte (off + k)))

/-- 41_framer.md R154: only a full word of the bytes DE AD B0 0F collides with the sentinel. -/
def Obligations.OnlyAFullSentinelWordCollides : Prop :=
  ∀ (buf : Memory) (off len : Nat),
    frameWord buf off len = .ok Config.sentinel ↔
      off + 4 ≤ len ∧ Memory.read buf off = some 0xDE ∧ Memory.read buf (off + 1) = some 0xAD ∧
        Memory.read buf (off + 2) = some 0xB0 ∧ Memory.read buf (off + 3) = some 0x0F

/-- 41_framer.md R155: any four bytes round-trip through encode and unpack, and through decode unless they collide. -/
def Obligations.FourBytesRoundTrip : Prop :=
  ∀ (buf : Memory) (off len : Nat) (b0 b1 b2 b3 : Byte), off + 4 ≤ len →
    Memory.read buf off = some b0 → Memory.read buf (off + 1) = some b1 → Memory.read buf (off + 2) = some b2 →
    Memory.read buf (off + 3) = some b3 →
    ∃ w, frameWord buf off len = .ok w ∧ unpack w = [b0, b1, b2, b3] ∧
      linkDecode w = (if w = 0xDEADB00F then [] else [b0, b1, b2, b3])

/-- 41_framer.md R158: the words of one SEND_CHUNK, which are `encode`'s at each stride, unpacked and truncated to LEN are
BUF[0..LEN−1]; the bytes past LEN are 0. -/
def Obligations.ChunkWordsUnpackToTheChunk : Prop :=
  ∀ s : State, s.seq.phase = .idle → s.status.initDone = true → s.status.arb = .streaming → s.resets = [] →
    s.len.toNat ≤ 64 → chunkWritten s.buf s.len.toNat →
    ∃ (t₁ t : State) (k : Nat) (ev : List Event), exec .sendChunk s = .next t₁ ∧
      Host.Core.run Sys2Proof.core k t₁ = .next t ∧ t.seq.phase = .idle ∧ t.trace = s.trace ++ ev ∧
      dataWords ev = sentWords ev ∧
      (sentWords ev).map Except.ok =
        (List.range (chunkCount s.len.toNat)).map (fun j => frameWord s.buf (4 * j) s.len.toNat) ∧
      (((sentWords ev).flatMap unpack).take s.len.toNat).map some =
        (List.range s.len.toNat).map (Memory.read s.buf) ∧
      ∀ b ∈ ((sentWords ev).flatMap unpack).drop s.len.toNat, b = 0x00

/-! ### The micro-steps of an exchange -/

/-- 40_link_phy.md R113: the busy-wait. -/
def Obligations.PollSamplesBusyUntilReadyOrBound : Prop :=
  ∀ s : State, s.seq.phase = .poll → s.resets.head? ≠ some true →
    (s.seq.polls = s.params.busyPollMax →
      step s = .next { s with
        resets := s.resets.tail
        trace := s.trace ++ [.busyBound]
        seq := { s.seq with phase := .setup, i := 0 } }) ∧
    (s.seq.polls ≠ s.params.busyPollMax →
      ∃ b, b = s.peer.busyAt 0 ∧
        step s = .next { s with
          resets := s.resets.tail
          trace := s.trace ++ [.sample .busyIn b]
          peer := { s.peer with busyIn := s.peer.busyIn.tail, busyDrawn := s.peer.busyDrawn + 1 }
          seq := { s.seq with
            polls := s.seq.polls + 1
            phase := if b ≠ s.params.busyLevel then .setup else .poll
            i := if b ≠ s.params.busyLevel then 0 else s.seq.i } })

/-- 40_link_phy.md R114, R115, R116: SETUP, LOW and HIGH. -/
def Obligations.SetupLowAndHighDriveTheirLines : Prop :=
  ∀ s : State, s.resets.head? ≠ some true →
    (s.seq.phase = .setup →
      ∃ d, d = s.seq.shift.getLsbD (31 - s.seq.i.toNat) ∧
        step s = .next { s with
          resets := s.resets.tail
          lines := { s.lines with dataOut := Level.ofBit d, indOut := Level.ofBit d }
          trace := s.trace ++ [.drive .dataOut d, .drive .indOut d]
          seq := { s.seq with phase := .low } }) ∧
    (s.seq.phase = .low →
      step s = .next { s with
        resets := s.resets.tail
        lines := { s.lines with clkOut := .zero }
        trace := s.trace ++ [.drive .clkOut false]
        seq := { s.seq with phase := .high } }) ∧
    (s.seq.phase = .high →
      step s = .next { s with
        resets := s.resets.tail
        lines := { s.lines with clkOut := .one }
        trace := s.trace ++ [.drive .clkOut true]
        seq := { s.seq with phase := .sample } })

/-- 40_link_phy.md R117: SAMPLE(i). -/
def Obligations.SampleAccumulatesAtItsBitPosition : Prop :=
  ∀ s : State, s.seq.phase = .sample → s.resets.head? ≠ some true →
    ∃ (b : Bool) (acc : Word), b = s.peer.dataAt 0 ∧
      (∀ k, acc.getLsbD k = (s.seq.acc.getLsbD k || (b && decide (k = 31 - s.seq.i.toNat)))) ∧
      step s = .next { s with
        resets := s.resets.tail
        trace := s.trace ++ [.sample .dataIn b]
        peer := { s.peer with dataIn := s.peer.dataIn.tail, dataDrawn := s.peer.dataDrawn + 1 }
        seq := { s.seq with
          acc := acc
          phase := if s.seq.i.toNat < 31 then .setup else .restore
          i := if s.seq.i.toNat < 31 then s.seq.i + 1 else s.seq.i } }

/-- 40_link_phy.md R118, R119: RESTORE and DONE.  At the end of EXCHANGE the sequencer's other registers: log entry 3. -/
def Obligations.RestoreAndDoneEndTheExchange : Prop :=
  ∀ s : State, s.resets.head? ≠ some true →
    (s.seq.phase = .restore →
      step s = .next { s with
        resets := s.resets.tail
        lines := { s.lines with clkOut := .one, dataOut := .one }
        trace := s.trace ++ [.drive .clkOut true, .drive .dataOut true]
        seq := { s.seq with phase := .done } }) ∧
    (s.seq.phase = .done → s.seq.caller = .exchange →
      step s = .next { s with
        resets := s.resets.tail
        rxw := s.seq.acc
        status := { s.status with active := false, idleDet := decide (s.seq.acc = 0xDEADB00F) }
        trace := s.trace ++ [.xferEnd s.seq.acc, .cmdEnd .exchange]
        seq := { s.seq with phase := .idle, cmd := none } }) ∧
    (s.seq.phase = .done → s.seq.caller ≠ .exchange →
      step s = .next { s with
        resets := s.resets.tail
        rxw := s.seq.acc
        status := { s.status with idleDet := decide (s.seq.acc = 0xDEADB00F) }
        trace := s.trace ++ [.xferEnd s.seq.acc]
        seq := { s.seq with phase := if s.seq.caller = .sync then .syncNext else .chunkNext } })

/-- 42_handshake_arbiter.md R183: SYNC_NEXT; the rendezvous is checked before the bound.  At the end of SYNC the
sequencer's other registers: log entry 3. -/
def Obligations.SyncNextJudgesTheExchange : Prop :=
  ∀ s : State, s.seq.phase = .syncNext → s.resets.head? ≠ some true →
    (s.rxw = 0xDEADB00F →
      step s = .next { s with
        resets := s.resets.tail
        status := { s.status with active := false, synced := true, arb := .streaming, peerUnresp := false }
        trace := s.trace ++ [.rendezvous (s.seq.tries + 1), .cmdEnd .sync]
        seq := { s.seq with phase := .idle, cmd := none, tries := s.seq.tries + 1 } }) ∧
    (s.rxw ≠ 0xDEADB00F → (∃ n, s.params.syncLimit = some n ∧ n ≤ s.seq.tries + 1) →
      step s = .next { s with
        resets := s.resets.tail
        status := { s.status with active := false, synced := false, arb := .cooldown, peerUnresp := true }
        trace := s.trace ++ [.syncTimeout (s.seq.tries + 1), .cmdEnd .sync]
        seq := { s.seq with phase := .idle, cmd := none, tries := s.seq.tries + 1 } }) ∧
    (s.rxw ≠ 0xDEADB00F → (∀ n, s.params.syncLimit = some n → s.seq.tries + 1 < n) →
      step s = .next { s with
        resets := s.resets.tail
        trace := s.trace ++ [.xferBegin 0xDEADB00F]
        seq := { s.seq with
          tries := s.seq.tries + 1, shift := 0xDEADB00F, acc := 0, polls := 0, i := 0, caller := .sync, phase := .poll } })

/-- 41_framer.md R156, R161: CHUNK_NEXT; a colliding word is marked and still sent.  At the end of SEND_CHUNK the
sequencer's other registers: log entry 3. -/
def Obligations.ChunkNextSendsTheNextWordOrEnds : Prop :=
  ∀ s : State, s.seq.phase = .chunkNext → s.resets.head? ≠ some true →
    (s.len.toNat ≤ 4 * s.seq.j →
      step s = .next { s with
        resets := s.resets.tail
        off := BitVec.ofNat 7 (4 * s.seq.j)
        status := { s.status with active := false }
        trace := s.trace ++ [.cmdEnd .sendChunk]
        seq := { s.seq with phase := .idle, cmd := none } }) ∧
    (4 * s.seq.j < s.len.toNat → ∀ w, frameWord s.buf (4 * s.seq.j) s.len.toNat = .ok w →
      step s = .next { s with
        resets := s.resets.tail
        off := BitVec.ofNat 7 (4 * s.seq.j)
        framew := w
        trace := s.trace ++ .dataWord w :: (if w = 0xDEADB00F then [.collision w] else []) ++ [.xferBegin w]
        seq := { s.seq with
          j := s.seq.j + 1, shift := w, acc := 0, polls := 0, i := 0, caller := .sendChunk, phase := .poll } }) ∧
    (4 * s.seq.j < s.len.toNat → ∀ r, frameWord s.buf (4 * s.seq.j) s.len.toNat = .error r →
      step s = .next { s with
        resets := s.resets.tail
        off := BitVec.ofNat 7 (4 * s.seq.j)
        faulted := s.faulted ++ [r]
        status := { s.status with active := false }
        seq := { s.seq with phase := .idle, cmd := none } })

/-! ### The commands that run over many steps -/

/-- 40_link_phy.md R112, R127, 42_handshake_arbiter.md R183, 41_framer.md R156: how EXCHANGE, SYNC and SEND_CHUNK begin. -/
def Obligations.ExchangeSyncAndSendChunkBegin : Prop :=
  ∀ s : State, s.seq.phase = .idle → s.status.initDone = true →
    exec .exchange s = .next { s with
      status := { s.status with active := true }
      trace := s.trace ++ [.cmdBegin .exchange, .xferBegin s.txw]
      seq := { s.seq with
        cmd := some .exchange, shift := s.txw, acc := 0, polls := 0, i := 0, caller := .exchange, phase := .poll } } ∧
    (s.status.arb = .syncing →
      exec .sync s = .next { s with
        status := { s.status with active := true }
        trace := s.trace ++ [.cmdBegin .sync, .xferBegin 0xDEADB00F]
        seq := { s.seq with
          cmd := some .sync, tries := 0, shift := 0xDEADB00F, acc := 0, polls := 0, i := 0, caller := .sync
          phase := .poll } }) ∧
    (s.status.arb = .streaming →
      exec .sendChunk s = .next { s with
        status := { s.status with active := true }
        trace := s.trace ++ [.cmdBegin .sendChunk]
        seq := { s.seq with cmd := some .sendChunk, j := 0, phase := .chunkNext } })

/-- 40_link_phy.md R127: EXCHANGE runs to its end, within BUSY_POLL_MAX + 131 steps, and this is all it changes.
The values of tries and j in IDLE are the model's choice (log entry 3). -/
def Obligations.ExchangeRunsToItsEnd : Prop :=
  ∀ s : State, s.seq.phase = .idle → s.status.initDone = true → s.resets = [] →
    ∃ (t₁ t : State) (k : Nat), exec .exchange s = .next t₁ ∧ k ≤ s.params.busyPollMax + 131 ∧
      Host.Core.run Sys2Proof.core k t₁ = .next t ∧
      t.seq.phase = .idle ∧ t.seq.cmd = none ∧
      t.rxw = s.peer.wordAt 0 ∧
      t.status = { s.status with active := false, idleDet := decide (s.peer.wordAt 0 = 0xDEADB00F) } ∧
      t.lines = { clkOut := .one, dataOut := .one, indOut := Level.ofBit (s.txw.getLsbD 0) } ∧
      t.txw = s.txw ∧ t.framew = s.framew ∧ t.off = s.off ∧ t.len = s.len ∧ t.buf = s.buf ∧
      t.peer = s.peerAfterExchange ∧ t.seq.tries = s.seq.tries ∧ t.seq.j = s.seq.j ∧
      t.faulted = s.faulted ∧ t.refused = s.refused ∧ t.host = s.host ∧ t.config = s.config

/-- 40_link_phy.md R130: the trace of one EXCHANGE, event by event. -/
def Obligations.ExchangeTraceIsTheWireProtocol : Prop :=
  ∀ s : State, s.seq.phase = .idle → s.status.initDone = true → s.resets = [] →
    ∃ (t₁ t : State) (k : Nat) (polls : List Bool) (bound : Bool), exec .exchange s = .next t₁ ∧
      Host.Core.run Sys2Proof.core k t₁ = .next t ∧ t.seq.phase = .idle ∧
      t.trace = s.trace ++ [.cmdBegin .exchange, .xferBegin s.txw] ++ polls.map (Event.sample .busyIn) ++
        (if bound then [.busyBound] else []) ++
        ((List.range 32).flatMap fun p =>
          [.drive .dataOut (s.txw.getLsbD (31 - p)), .drive .indOut (s.txw.getLsbD (31 - p)), .drive .clkOut false,
            .drive .clkOut true, .sample .dataIn (t.rxw.getLsbD (31 - p))]) ++
        [.drive .clkOut true, .drive .dataOut true, .xferEnd t.rxw, .cmdEnd .exchange] ∧
      polls.length ≤ s.params.busyPollMax ∧
      (∀ n, n + 1 < polls.length → polls[n]? = some s.params.busyLevel) ∧
      (bound = true ↔ polls.length = s.params.busyPollMax ∧ (polls = [] ∨ polls.getLast? = some s.params.busyLevel)) ∧
      (bound = false → polls.getLast? = some (!s.params.busyLevel))

/-- 40_link_phy.md R120, R121, R122: 32 clock pulses, DATA_OUT stable while CLK_OUT is 0, and both lines high at the end,
whatever the word and the peer. -/
def Obligations.ExchangeMakesThirtyTwoClockPulses : Prop :=
  ∀ s : State, s.seq.phase = .idle → s.status.initDone = true → s.resets = [] →
    s.lines.clkOut = .one → s.lines.dataOut = .one →
    ∃ (t₁ t : State) (k : Nat) (ev : List Event), exec .exchange s = .next t₁ ∧
      Host.Core.run Sys2Proof.core k t₁ = .next t ∧ t.seq.phase = .idle ∧ t.trace = s.trace ++ ev ∧
      clockEdges false .one ev = 32 ∧ clockEdges true .one ev = 32 ∧ dataStable .one .one ev = true ∧
      t.lines.clkOut = .one ∧ t.lines.dataOut = .one ∧ t.lines.indOut = Level.ofBit (s.txw.getLsbD 0)

/-- 40_link_phy.md R123 and R111 (EA1, EA2): the received word is the samples, bit 31 first; a peer that latches DATA_OUT once
in each bit period, at whatever instants, receives the word sent, and one that latches at the clock edges is such a peer
(an edge from X is none, log entry 17; here CLK_OUT starts at 1). -/
def Obligations.BothEndsReceiveTheWordSent : Prop :=
  ∀ s : State, s.seq.phase = .idle → s.status.initDone = true → s.resets = [] →
    s.lines.clkOut = .one → s.lines.dataOut = .one →
    ∃ (t₁ t : State) (k : Nat) (ev : List Event), exec .exchange s = .next t₁ ∧
      Host.Core.run Sys2Proof.core k t₁ = .next t ∧ t.seq.phase = .idle ∧ t.trace = s.trace ++ ev ∧
      (∀ p, p < 32 → t.rxw.getLsbD (31 - p) = s.peer.dataAt p) ∧
      (∀ w, peerSends s.peer 0 w → t.rxw = w) ∧
      (∃ latch, latchesEachPeriod ev 0 latch) ∧
      (∀ latch w, latchesEachPeriod ev 0 latch → (peerReceives .one ev latch w ↔ w = s.txw)) ∧
      ∀ edge, latchedBits edge .one .one ev = (List.range 32).map fun p => Level.ofBit (s.txw.getLsbD (31 - p))

/-- 40_link_phy.md R124: an exchange depends on its word, the draws and the parameters alone. -/
def Obligations.ExchangesAreStateless : Prop :=
  ∀ s u : State, s.seq.phase = .idle → s.status.initDone = true → s.resets = [] → u.seq.phase = .idle →
    u.status.initDone = true → u.resets = [] → u.txw = s.txw → u.peer = s.peer → u.params = s.params →
    ∃ (s₁ u₁ s₂ u₂ : State) (k : Nat) (ev : List Event), exec .exchange s = .next s₁ ∧ exec .exchange u = .next u₁ ∧
      Host.Core.run Sys2Proof.core k s₁ = .next s₂ ∧ Host.Core.run Sys2Proof.core k u₁ = .next u₂ ∧
      s₂.seq.phase = .idle ∧ u₂.seq.phase = .idle ∧ s₂.trace = s.trace ++ ev ∧ u₂.trace = u.trace ++ ev ∧
      s₂.rxw = u₂.rxw ∧ s₂.status.idleDet = u₂.status.idleDet ∧ s₂.lines = u₂.lines

/-- 41_framer.md R156, R157: SEND_CHUNK sends word j = encode(4j, LEN) for j = 0 to ⌈LEN/4⌉ − 1, each one exchange of 32
pulses, and this is all it changes.  The value of tries in IDLE is the model's choice (log entry 3). -/
def Obligations.SendChunkSendsTheWordsOfTheChunk : Prop :=
  ∀ s : State, s.seq.phase = .idle → s.status.initDone = true → s.status.arb = .streaming → s.resets = [] →
    s.len.toNat ≤ 64 → chunkWritten s.buf s.len.toNat →
    ∃ (t₁ t : State) (k : Nat) (ev : List Event), exec .sendChunk s = .next t₁ ∧
      k ≤ chunkCount s.len.toNat * (s.params.busyPollMax + 132) + 1 ∧
      Host.Core.run Sys2Proof.core k t₁ = .next t ∧ t.seq.phase = .idle ∧ t.seq.cmd = none ∧ t.trace = s.trace ++ ev ∧
      dataWords ev = (List.range (chunkCount s.len.toNat)).map (chunkWord s.buf s.len.toNat) ∧
      sentWords ev = (List.range (chunkCount s.len.toNat)).map (chunkWord s.buf s.len.toNat) ∧
      (∀ j, frameWord s.buf (4 * j) s.len.toNat = .ok (chunkWord s.buf s.len.toNat j)) ∧
      clockEdges false .one ev = 32 * chunkCount s.len.toNat ∧ clockEdges true .one ev = 32 * chunkCount s.len.toNat ∧
      t.off.toNat = 4 * chunkCount s.len.toNat ∧
      t.framew =
        (if s.len = 0 then s.framew else chunkWord s.buf s.len.toNat (chunkCount s.len.toNat - 1)) ∧
      t.rxw = (if s.len = 0 then s.rxw else s.peer.wordAt (chunkCount s.len.toNat - 1)) ∧
      t.status = { s.status with
        active := false
        idleDet := if s.len = 0 then s.status.idleDet else decide (t.rxw = 0xDEADB00F) } ∧
      t.lines = (if s.len = 0 then s.lines else
        { clkOut := .one, dataOut := .one
          indOut := Level.ofBit ((chunkWord s.buf s.len.toNat (chunkCount s.len.toNat - 1)).getLsbD 0) }) ∧
      t.txw = s.txw ∧ t.len = s.len ∧ t.buf = s.buf ∧ t.seq.tries = s.seq.tries ∧
      t.faulted = s.faulted ∧ t.refused = s.refused ∧ t.host = s.host ∧ t.config = s.config

/-- 41_framer.md R156, 60_exceptions.md R241: SEND_CHUNK stops at the first unwritten byte below LEN: the words before its
word are sent with their pulses, neither FRAMEW nor a line moves for the word that faults, and this is all it changes.
The value of tries in IDLE is the model's choice (log entry 3). -/
def Obligations.SendChunkFaultsAtTheFirstUnwrittenByte : Prop :=
  ∀ (s : State) (q : Nat), s.seq.phase = .idle → s.status.initDone = true → s.status.arb = .streaming → s.resets = [] →
    s.len.toNat ≤ 64 → q < s.len.toNat → Memory.read s.buf q = none →
    (∀ m, m < q → (Memory.read s.buf m).isSome) →
    ∃ (t₁ t : State) (k : Nat) (ev : List Event), exec .sendChunk s = .next t₁ ∧
      k ≤ q / 4 * (s.params.busyPollMax + 132) + 1 ∧
      Host.Core.run Sys2Proof.core k t₁ = .next t ∧ t.seq.phase = .idle ∧ t.seq.cmd = none ∧
      t.faulted = s.faulted ++ [.unwrittenBufferByte q] ∧ t.trace = s.trace ++ ev ∧
      dataWords ev = (List.range (q / 4)).map (chunkWord s.buf s.len.toNat) ∧
      sentWords ev = (List.range (q / 4)).map (chunkWord s.buf s.len.toNat) ∧
      (∀ j, j < q / 4 → frameWord s.buf (4 * j) s.len.toNat = .ok (chunkWord s.buf s.len.toNat j)) ∧
      clockEdges false .one ev = 32 * (q / 4) ∧ clockEdges true .one ev = 32 * (q / 4) ∧
      Event.cmdEnd .sendChunk ∉ ev ∧ t.off.toNat = 4 * (q / 4) ∧
      t.framew = (if q / 4 = 0 then s.framew else chunkWord s.buf s.len.toNat (q / 4 - 1)) ∧
      t.rxw = (if q / 4 = 0 then s.rxw else s.peer.wordAt (q / 4 - 1)) ∧
      t.status = { s.status with
        active := false
        idleDet := if q / 4 = 0 then s.status.idleDet else decide (t.rxw = 0xDEADB00F) } ∧
      t.lines = (if q / 4 = 0 then s.lines else
        { clkOut := .one, dataOut := .one
          indOut := Level.ofBit ((chunkWord s.buf s.len.toNat (q / 4 - 1)).getLsbD 0) }) ∧
      t.txw = s.txw ∧ t.len = s.len ∧ t.buf = s.buf ∧ t.seq.tries = s.seq.tries ∧ t.refused = s.refused ∧
      t.host = s.host ∧ t.config = s.config

/-- 42_handshake_arbiter.md R183, R193: SYNC ends at the first exchange that returns SENTINEL, within the hardened bound
where there is one; TXW is not read or written.  The values of tries and j in IDLE are the model's choice (log entry 3). -/
def Obligations.SyncEndsInTheRendezvous : Prop :=
  ∀ (s : State) (m : Nat), s.seq.phase = .idle → s.status.initDone = true → s.status.arb = .syncing → s.resets = [] →
    s.peer.wordAt m = 0xDEADB00F → (∀ n, n < m → s.peer.wordAt n ≠ 0xDEADB00F) →
    (∀ n, s.params.syncLimit = some n → m < n) →
    ∃ (t₁ t : State) (k : Nat) (ev : List Event), exec .sync s = .next t₁ ∧
      k ≤ (m + 1) * (s.params.busyPollMax + 132) ∧
      Host.Core.run Sys2Proof.core k t₁ = .next t ∧ t.seq.phase = .idle ∧ t.seq.cmd = none ∧ t.seq.tries = m + 1 ∧
      t.rxw = 0xDEADB00F ∧
      t.status = { s.status with active := false, idleDet := true, synced := true, arb := .streaming, peerUnresp := false } ∧
      t.trace = s.trace ++ ev ++ [.xferEnd 0xDEADB00F, .rendezvous (m + 1), .cmdEnd .sync] ∧
      sentWords ev = List.replicate (m + 1) 0xDEADB00F ∧ clockEdges false .one ev = 32 * (m + 1) ∧
      t.lines = { clkOut := .one, dataOut := .one, indOut := .one } ∧
      t.txw = s.txw ∧ t.framew = s.framew ∧ t.off = s.off ∧ t.len = s.len ∧ t.buf = s.buf ∧ t.seq.j = s.seq.j ∧
      t.faulted = s.faulted ∧ t.refused = s.refused ∧ t.host = s.host ∧ t.config = s.config

/-- 42_handshake_arbiter.md R185: the hardened SYNC ends after n exchanges none of which returned SENTINEL.  The
values of tries and j in IDLE are the model's choice (log entry 3). -/
def Obligations.SyncTimesOutAtTheHardenedBound : Prop :=
  ∀ (s : State) (n : Nat), s.seq.phase = .idle → s.status.initDone = true → s.status.arb = .syncing → s.resets = [] →
    s.params.syncLimit = some n → 1 ≤ n → (∀ m, m < n → s.peer.wordAt m ≠ 0xDEADB00F) →
    ∃ (t₁ t : State) (k : Nat) (ev : List Event), exec .sync s = .next t₁ ∧
      k ≤ n * (s.params.busyPollMax + 132) ∧
      Host.Core.run Sys2Proof.core k t₁ = .next t ∧ t.seq.phase = .idle ∧ t.seq.cmd = none ∧ t.seq.tries = n ∧
      t.rxw = s.peer.wordAt (n - 1) ∧
      t.status = { s.status with active := false, idleDet := false, synced := false, arb := .cooldown, peerUnresp := true } ∧
      t.trace = s.trace ++ ev ++ [.syncTimeout n, .cmdEnd .sync] ∧
      sentWords ev = List.replicate n 0xDEADB00F ∧ clockEdges false .one ev = 32 * n ∧
      t.txw = s.txw ∧ t.framew = s.framew ∧ t.off = s.off ∧ t.len = s.len ∧ t.buf = s.buf ∧ t.seq.j = s.seq.j ∧
      t.faulted = s.faulted ∧ t.refused = s.refused ∧ t.host = s.host ∧ t.config = s.config

/-- 42_handshake_arbiter.md R186: the reference SYNC spins as long as no exchange returns SENTINEL: through M such exchanges
the command still runs. -/
def Obligations.ReferenceSyncSpinsWithoutTheSentinel : Prop :=
  ∀ (s : State) (bound : Nat), s.seq.phase = .idle → s.status.initDone = true → s.status.arb = .syncing → s.resets = [] →
    s.params.syncLimit = none → (∀ m, m < bound → s.peer.wordAt m ≠ 0xDEADB00F) →
    ∃ t₁, exec .sync s = .next t₁ ∧
      ∀ k, k ≤ 131 * bound → ∃ t, Host.Core.run Sys2Proof.core k t₁ = .next t ∧ t.seq.phase ≠ .idle ∧
        t.seq.cmd = some .sync ∧ t.status.arb = .syncing ∧ t.status.synced = s.status.synced ∧ t.host = s.host

/-! ### What the whole machine keeps -/

/-- The invariants hold after reset (10_state.md R41; the sequencer's registers there are the model's choice, log
entry 3). -/
def Obligations.ResetMeetsTheInvariants : Prop := State.reset.Inv ∧ State.reset.TraceInv

/-- Every step keeps the invariants: the buffer's form, OFF and LEN in range (10_state.md R24), ACTIVE (R32), SYNCED and ARB
(42_handshake_arbiter.md R190), IDLE_DET (10_state.md R33), PEER_UNRESP (R34), the lines (R21; 40_link_phy.md R121, R122,
70_reset_and_hazards.md R273), and the sequencer (10_state.md R30, R31).  The buffer's form is the
model's choice (log entry 14). -/
def Obligations.EveryStepKeepsTheInvariants : Prop :=
  ∀ s t : State, s.Inv → step s = .next t → t.Inv

/-- 42_handshake_arbiter.md R191: in every trace no data word comes before the session's rendezvous. -/
def Obligations.EveryStepKeepsHandshakePrecedence : Prop :=
  ∀ s t : State, s.Inv → s.TraceInv → step s = .next t → t.TraceInv

/-- 42_handshake_arbiter.md R180, R190: ARB moves only along the document's machine, into STREAMING only on a received
SENTINEL, and SYNCED rises only there. -/
def Obligations.ArbiterMovesOnlyAlongItsMachine : Prop :=
  ∀ s t : State, s.Inv → s.resets.head? ≠ some true → step s = .next t →
    (t.status.arb ≠ s.status.arb →
      (s.status.arb = .connecting ∧ t.status.arb = .syncing ∧ s.seq.phase = .idle) ∨
      (s.status.arb = .syncing ∧ t.status.arb = .streaming ∧ s.seq.phase = .syncNext ∧ s.rxw = 0xDEADB00F) ∨
      (s.status.arb = .syncing ∧ t.status.arb = .cooldown ∧ s.seq.phase = .syncNext ∧ s.rxw ≠ 0xDEADB00F ∧
        s.params.syncLimit ≠ none) ∨
      (s.status.arb = .streaming ∧ t.status.arb = .cooldown ∧ s.seq.phase = .idle) ∨
      (s.status.arb = .cooldown ∧ t.status.arb = .connecting ∧ s.seq.phase = .idle)) ∧
    (s.status.synced = false → t.status.synced = true → s.seq.phase = .syncNext ∧ s.rxw = 0xDEADB00F)

/-- 10_state.md R35, R38, R39, R40: without a reset the marks and the trace only grow, INIT_DONE stays, and the
configuration never changes. -/
def Obligations.MarksAndTraceOnlyGrow : Prop :=
  ∀ s t : State, s.resets.head? ≠ some true → step s = .next t →
    s.faulted <+: t.faulted ∧ s.refused <+: t.refused ∧ s.trace <+: t.trace ∧
      (s.status.initDone = true → t.status.initDone = true) ∧ t.config = s.config

/-- 10_state.md R42: the write matrix, for the steps of the host (`is op` is the command or a CMD write of its word). -/
def Obligations.HostStepsWriteByTheMatrix : Prop :=
  ∀ (i : Instr) (s t : State), exec i s = .next t →
    let is (op : Opcode) : Prop := i = op.instr ∨ i = .wrCmd op.word
    (t.txw ≠ s.txw → ∃ v, i = .wrTxw v) ∧
    t.rxw = s.rxw ∧
    (t.framew ≠ s.framew → is .encode) ∧
    (t.off ≠ s.off → (∃ v, i = .wrOff v) ∨ is .connected) ∧
    (t.len ≠ s.len → (∃ v, i = .wrLen v) ∨ is .connected) ∧
    (t.status.initDone ≠ s.status.initDone → is .init) ∧
    t.status.idleDet = s.status.idleDet ∧
    (t.status.synced ≠ s.status.synced → is .connected ∨ is .close) ∧
    (t.status.arb ≠ s.status.arb → is .init ∨ is .connected ∨ is .close ∨ is .cooldownDone) ∧
    (t.status.peerUnresp ≠ s.status.peerUnresp → is .connected) ∧
    (t.lines ≠ s.lines → is .init) ∧
    (∀ k, Memory.read t.buf k ≠ Memory.read s.buf k → ∃ v, i = .wrbBuf k v) ∧
    (t.faulted ≠ s.faulted → is .encode ∨ ∃ k, i = .rdbBuf k)

/-- 10_state.md R42, 20_memory.md R62: the write matrix, for the micro-steps of a running command. -/
def Obligations.MicroStepsWriteByTheMatrix : Prop :=
  ∀ s t : State, s.seq.phase ≠ .idle → s.resets.head? ≠ some true → step s = .next t →
    t.txw = s.txw ∧ t.len = s.len ∧ t.buf = s.buf ∧ t.status.initDone = s.status.initDone ∧
    (t.rxw ≠ s.rxw ∨ t.status.idleDet ≠ s.status.idleDet → s.seq.phase = .done) ∧
    (t.framew ≠ s.framew ∨ t.off ≠ s.off ∨ t.faulted ≠ s.faulted → s.seq.phase = .chunkNext) ∧
    (t.status.synced ≠ s.status.synced ∨ t.status.arb ≠ s.status.arb ∨ t.status.peerUnresp ≠ s.status.peerUnresp →
      s.seq.phase = .syncNext) ∧
    (t.lines ≠ s.lines → s.seq.phase = .setup ∨ s.seq.phase = .low ∨ s.seq.phase = .high ∨ s.seq.phase = .restore) ∧
    (t.peer.busyIn ≠ s.peer.busyIn ∨ t.peer.busyDrawn ≠ s.peer.busyDrawn → s.seq.phase = .poll) ∧
    (t.peer.dataIn ≠ s.peer.dataIn ∨ t.peer.dataDrawn ≠ s.peer.dataDrawn → s.seq.phase = .sample)

/-- The buffer's operations (20_memory.md R61, R62): a write keeps the canonical form, reads back, and leaves every other
byte; two buffers in canonical form that read alike are the same data (the model's form of BUF, log entry 14). -/
def Obligations.BufferFormIsCanonical : Prop :=
  (∀ (m : Memory) (k : Nat) (v : Byte), Memory.wf m = true → k < 64 →
    Memory.wf (Memory.write m k v) = true ∧ Memory.read (Memory.write m k v) k = some v ∧
      ∀ q, q ≠ k → Memory.read (Memory.write m k v) q = Memory.read m q) ∧
  ∀ m n : Memory, Memory.wf m = true → Memory.wf n = true → (∀ k, Memory.read m k = Memory.read n k) → m = n

/-- 30_encoding.md R92: `load b0, ..., b(n−1)` writes BUF[0..n−1] and then LEN ← n, and of all else only the host's statement
index moves (log entry 11). -/
def Obligations.LoadFillsTheBuffer : Prop :=
  ∀ (s : State) (bytes : List Byte) (rest : List HostStmt), s.seq.phase = .idle → s.resets = [] → bytes.length ≤ 64 →
    s.host.program.drop s.host.pc = asmLoad bytes ++ rest →
    ∃ t : State, Host.Core.run Sys2Proof.core (bytes.length + 1) s = .next t ∧
      (∀ k, k < bytes.length → Memory.read t.buf k = bytes[k]?) ∧
      (∀ k, bytes.length ≤ k → Memory.read t.buf k = Memory.read s.buf k) ∧
      t.len.toNat = bytes.length ∧
      t = { s with
        buf := t.buf
        len := t.len
        host := { s.host with pc := s.host.pc + bytes.length + 1 } }

/-- 40_link_phy.md R111 (EA2), 41_framer.md R157: a peer that latches DATA_OUT once in each bit period of exchange m of a
SEND_CHUNK, at whatever instants, receives word m of the chunk, and such instants exist. -/
def Obligations.PeerReceivesTheWordsOfTheChunk : Prop :=
  ∀ s : State, s.seq.phase = .idle → s.status.initDone = true → s.status.arb = .streaming → s.resets = [] →
    s.len.toNat ≤ 64 → chunkWritten s.buf s.len.toNat →
    ∃ (t₁ t : State) (k : Nat) (ev : List Event), exec .sendChunk s = .next t₁ ∧
      Host.Core.run Sys2Proof.core k t₁ = .next t ∧ t.seq.phase = .idle ∧ t.trace = s.trace ++ ev ∧
      ∀ m, m < chunkCount s.len.toNat → (∃ latch, latchesEachPeriod ev m latch) ∧
        ∀ latch w, latchesEachPeriod ev m latch →
          (peerReceives s.lines.dataOut ev latch w ↔ frameWord s.buf (4 * m) s.len.toNat = .ok w)
end

