-- ==== Sys2Proof/Laws/Config.lean ====
section
/-! SUPPORT. The fixed parameters as numbers, and the bounds they give. -/

namespace Sys2Proof

namespace Config

theorem wordBits_eq : wordBits = 32 := rfl
theorem indexBits_eq : indexBits = 5 := rfl
theorem offsetBits_eq : offsetBits = 7 := rfl
theorem bufSize_eq : bufSize = 64 := rfl
theorem stride_eq : stride = 4 := rfl

/-- A Link Word carries `STRIDE` bytes (00_scope.md R9). -/
theorem wordBits_eq_bytes : wordBits = 8 * stride := rfl

/-- The bit index counts 0 to `WORD_BITS` − 1 (00_scope.md R11). -/
theorem two_pow_indexBits : 2 ^ indexBits = wordBits := rfl

/-- OFF and LEN hold 0 to `BUF_SIZE` (00_scope.md R11). -/
theorem bufSize_lt_offsets : bufSize < 2 ^ offsetBits := by decide

end Config

theorem Word.toNat_lt (v : Word) : v.toNat < 4294967296 := v.isLt

namespace Machine

theorem State.off_lt (s : State) : s.off.toNat < 128 := s.off.isLt
theorem State.len_lt (s : State) : s.len.toNat < 128 := s.len.isLt
theorem State.index_lt (s : State) : s.seq.i.toNat < 32 := s.seq.i.isLt

end Machine

end Sys2Proof
end

