-- ==== Sys2Proof/Laws/Memory.lean ====
section
/-! SUPPORT. The stream buffer: read after write, the canonical form, and what `encode` reads. -/

namespace Sys2Proof.Machine

theorem Memory.read_write_same (m : Memory) (k : Nat) (v : Byte) : Memory.read (Memory.write m k v) k = some v := by
  induction m with
  | nil => simp [Memory.write, Memory.read]
  | cons c rest ih =>
    obtain ⟨a, b⟩ := c
    simp only [Memory.write]
    split
    · simp [Memory.read]
    · split
      · simp [Memory.read]
      · rename_i h
        simp [Memory.read, Ne.symm h, ih]

theorem Memory.read_write_other (m : Memory) {k q : Nat} (v : Byte) (h : q ≠ k) :
    Memory.read (Memory.write m k v) q = Memory.read m q := by
  induction m with
  | nil => simp [Memory.write, Memory.read, Ne.symm h]
  | cons c rest ih =>
    obtain ⟨a, b⟩ := c
    simp only [Memory.write]
    split
    · simp [Memory.read, Ne.symm h]
    · split
      · rename_i hk
        subst hk
        simp [Memory.read, Ne.symm h]
      · simp [Memory.read, ih]

theorem Memory.wfFrom_write {lo : Nat} {m : Memory} (k : Nat) (v : Byte) (h : Memory.wfFrom lo m = true) (hlo : lo ≤ k)
    (hk : k < Config.bufSize) : Memory.wfFrom lo (Memory.write m k v) = true := by
  induction m generalizing lo with
  | nil => simp [Memory.write, Memory.wfFrom, hlo, hk]
  | cons c rest ih =>
    obtain ⟨a, b⟩ := c
    simp only [Memory.wfFrom, Bool.and_eq_true, decide_eq_true_eq] at h
    simp only [Memory.write]
    split
    · rename_i ha
      simp only [Memory.wfFrom, Bool.and_eq_true, decide_eq_true_eq]
      exact ⟨⟨hlo, hk⟩, ⟨ha, h.1.2⟩, h.2⟩
    · split
      · rename_i hak
        subst hak
        simpa [Memory.wfFrom, hlo, hk] using h.2
      · simp only [Memory.wfFrom, Bool.and_eq_true, decide_eq_true_eq]
        exact ⟨h.1, ih h.2 (by omega)⟩

/-- A buffer write keeps the canonical form. -/
theorem Memory.wf_write {m : Memory} (k : Nat) (v : Byte) (h : Memory.wf m = true) (hk : k < Config.bufSize) :
    Memory.wf (Memory.write m k v) = true := Memory.wfFrom_write k v h (Nat.zero_le k) hk

/-- A buffer in canonical form has no byte below its first index. -/
theorem Memory.read_below {lo : Nat} {m : Memory} {k : Nat} (h : Memory.wfFrom lo m = true) (hk : k < lo) :
    Memory.read m k = none := by
  induction m generalizing lo with
  | nil => rfl
  | cons c rest ih =>
    obtain ⟨a, b⟩ := c
    simp only [Memory.wfFrom, Bool.and_eq_true, decide_eq_true_eq] at h
    have hne : a ≠ k := by omega
    simp [Memory.read, hne, ih h.2 (by omega)]

theorem Memory.ext_from {lo : Nat} {m n : Memory} (hm : Memory.wfFrom lo m = true) (hn : Memory.wfFrom lo n = true)
    (h : ∀ k, Memory.read m k = Memory.read n k) : m = n := by
  induction m generalizing lo n with
  | nil =>
    cases n with
    | nil => rfl
    | cons c rest =>
      have := h c.1
      simp [Memory.read] at this
  | cons c rest ih =>
    obtain ⟨a, b⟩ := c
    cases n with
    | nil =>
      have := h a
      simp [Memory.read] at this
    | cons d rest' =>
      obtain ⟨a', b'⟩ := d
      simp only [Memory.wfFrom, Bool.and_eq_true, decide_eq_true_eq] at hm hn
      have haa : a = a' := by
        rcases Nat.lt_trichotomy a a' with hlt | heq | hgt
        · have := h a
          simp [Memory.read, Nat.ne_of_gt hlt, Memory.read_below hn.2 (show a < a' + 1 by omega)] at this
        · exact heq
        · have := h a'
          simp [Memory.read, Nat.ne_of_gt hgt, Memory.read_below hm.2 (show a' < a + 1 by omega)] at this
      subst haa
      have hb := h a
      simp only [Memory.read, if_true, Option.some.injEq] at hb
      subst hb
      rw [ih hm.2 hn.2 (fun k => ?_)]
      by_cases hk : k < a + 1
      · rw [Memory.read_below hm.2 hk, Memory.read_below hn.2 hk]
      · have := h k
        simpa [Memory.read, show a ≠ k by omega] using this

/-- Two buffers in canonical form that read alike are equal data. -/
theorem Memory.ext {m n : Memory} (hm : Memory.wf m = true) (hn : Memory.wf n = true)
    (h : ∀ k, Memory.read m k = Memory.read n k) : m = n := Memory.ext_from hm hn h

theorem frameByte_past {buf : Memory} {len q : Nat} (h : len ≤ q) : frameByte buf len q = .ok 0 := by
  simp [frameByte, Nat.not_lt.mpr h]

theorem frameByte_written {buf : Memory} {len q : Nat} {b : Byte} (h : q < len) (hb : Memory.read buf q = some b) :
    frameByte buf len q = .ok b := by simp [frameByte, h, hb]

theorem frameByte_unwritten {buf : Memory} {len q : Nat} (h : q < len) (hb : Memory.read buf q = none) :
    frameByte buf len q = .error (.unwrittenBufferByte q) := by simp [frameByte, h, hb]

/-- The limit of OFF and LEN, as a number (43_control.md R222). -/
theorem offsetLimit_lt (v : Word) : offsetLimit < v ↔ 64 < v.toNat := by
  change (BitVec.ofNat 32 64).toNat < v.toNat ↔ _
  simp

/-! ### A word of `STRIDE` = 4 bytes -/

theorem frameWord_eq_bind (buf : Memory) (off len : Nat) :
    frameWord buf off len =
      (frameByte buf len off).bind fun c0 => (frameByte buf len (off + 1)).bind fun c1 =>
        (frameByte buf len (off + 2)).bind fun c2 => (frameByte buf len (off + 3)).bind fun c3 =>
          .ok (pack [c0, c1, c2, c3]) := by
  simp only [frameWord, Config.stride, show List.range 4 = [0, 1, 2, 3] from rfl, List.mapM_cons, List.mapM_nil, Nat.add_zero]
  cases frameByte buf len off <;> try rfl
  cases frameByte buf len (off + 1) <;> try rfl
  cases frameByte buf len (off + 2) <;> try rfl
  cases frameByte buf len (off + 3) <;> rfl

/-- When each of the four positions yields its byte, `encode` packs them. -/
theorem frameWord_of_bytes {buf : Memory} {off len : Nat} {c0 c1 c2 c3 : Byte} (h0 : frameByte buf len off = .ok c0)
    (h1 : frameByte buf len (off + 1) = .ok c1) (h2 : frameByte buf len (off + 2) = .ok c2)
    (h3 : frameByte buf len (off + 3) = .ok c3) : frameWord buf off len = .ok (pack [c0, c1, c2, c3]) := by
  rw [frameWord_eq_bind, h0, h1, h2, h3]
  rfl

/-- The bits of a packed word, byte by byte: the first byte is the most significant. -/
theorem getLsbD_pack (b0 b1 b2 b3 : Byte) (n : Nat) :
    (pack [b0, b1, b2, b3]).getLsbD n =
      if n < 8 then b3.getLsbD n else if n < 16 then b2.getLsbD (n - 8)
      else if n < 24 then b1.getLsbD (n - 16) else b0.getLsbD (n - 24) := by
  simp only [pack, List.foldl_cons, List.foldl_nil, BitVec.getLsbD_or, BitVec.getLsbD_shiftLeft, BitVec.getLsbD_setWidth,
    Config.wordBits]
  have out : ∀ (b : Byte) (k : Nat), ¬k < 8 → b.getLsbD k = false := fun b k h => BitVec.getLsbD_of_ge b k (by omega)
  by_cases h1 : n < 8
  · simp [h1, show n < 32 by omega]
  by_cases h2 : n < 16
  · simp [h1, h2, out b3 n h1, show n < 32 by omega, show n - 8 < 32 by omega, show n - 8 < 8 by omega]
  by_cases h3 : n < 24
  · simp [h1, h2, h3, out b3 n h1, out b2 (n - 8) (by omega), show n < 32 by omega, show n - 8 < 32 by omega,
      show ¬n - 8 < 8 by omega, show n - 8 - 8 = n - 16 by omega, show n - 16 < 32 by omega, show n - 16 < 8 by omega]
  by_cases h4 : n < 32
  · simp [h1, h2, h3, h4, out b3 n h1, out b2 (n - 8) (by omega), out b1 (n - 16) (by omega),
      show n - 8 < 32 by omega, show ¬n - 8 < 8 by omega, show n - 8 - 8 = n - 16 by omega, show n - 16 < 32 by omega,
      show ¬n - 16 < 8 by omega, show n - 16 - 8 = n - 24 by omega, show n - 24 < 32 by omega, show n - 24 < 8 by omega]
  · simp [h1, h2, h3, h4, out b0 (n - 24) (by omega)]

theorem unpack_eq (w : Word) :
    unpack w = [w.extractLsb' 24 8, w.extractLsb' 16 8, w.extractLsb' 8 8, w.extractLsb' 0 8] := rfl

theorem unpack_pack (b0 b1 b2 b3 : Byte) : unpack (pack [b0, b1, b2, b3]) = [b0, b1, b2, b3] := by
  simp only [unpack_eq, List.cons.injEq, and_true]
  refine ⟨?_, ?_, ?_, ?_⟩ <;> ext i hi <;> rw [BitVec.getElem_extractLsb', getLsbD_pack]
  · rw [if_neg (by omega), if_neg (by omega), if_neg (by omega), BitVec.getLsbD_eq_getElem (by omega)]
    congr 1
    omega
  · rw [if_neg (by omega), if_neg (by omega), if_pos (by omega), BitVec.getLsbD_eq_getElem (by omega)]
    congr 1
    omega
  · rw [if_neg (by omega), if_pos (by omega), BitVec.getLsbD_eq_getElem (by omega)]
    congr 1
    omega
  · rw [if_pos (by omega), BitVec.getLsbD_eq_getElem (by omega)]
    congr 1
    omega

end Sys2Proof.Machine
end

