-- ==== Sys2Proof/Laws/Decode.lean ====
section
/-! SUPPORT. What the decoder and the encoder do, field by field and word by word. -/

namespace Sys2Proof

theorem opcodeOf_word (op : Opcode) : opcodeOf op.word = some op := by cases op <;> decide

theorem word_of_fields (v : Word) (n : Nat) (h1 : v.extractLsb' 4 28 = 0) (h2 : (v.extractLsb' 0 4).toNat = n) :
    v = BitVec.ofNat 32 n := by
  have h1' := congrArg BitVec.toNat h1
  simp only [BitVec.extractLsb'_toNat] at h1' h2
  apply BitVec.eq_of_toNat_eq
  have := v.toNat_lt
  simp only [BitVec.toNat_ofNat, Config.wordBits]
  simp at h1' h2
  simp [Nat.shiftRight_eq_div_pow] at h1'
  omega

/-- A word selects a command exactly when it is that command's word (30_encoding.md R86). -/
theorem opcodeOf_eq_some (v : Word) (op : Opcode) : opcodeOf v = some op ↔ v = op.word := by
  constructor
  · intro h
    unfold opcodeOf at h
    split at h
    · rename_i hr
      split at h <;> simp only [Option.some.injEq, reduceCtorEq] at h <;> subst h <;> rename_i ho <;>
        exact word_of_fields v _ hr ho
    · cases h
  · rintro rfl
    exact opcodeOf_word op

/-- The reserved words (30_encoding.md R87). -/
theorem opcodeOf_eq_none (v : Word) : opcodeOf v = none ↔
    v.extractLsb' 4 28 ≠ 0 ∨ (v.extractLsb' 0 4).toNat = 0 ∨ 9 ≤ (v.extractLsb' 0 4).toNat := by
  unfold opcodeOf cmdReserved cmdOp
  have hlt : (v.extractLsb' 0 4).toNat < 16 := (v.extractLsb' 0 4).isLt
  generalize (v.extractLsb' 0 4).toNat = n at *
  split
  · rename_i h
    have h' : v.extractLsb' 4 28 = 0 := h
    simp only [h', ne_eq, not_true, false_or]
    interval_cases n <;> simp
  · rename_i h
    simp only [true_iff]
    exact .inl h

/-- The reserved addresses, as numbers (20_memory.md R66). -/
theorem addressReserved_eq (a : Nat) :
    addressReserved a = ((decide (0x1C ≤ a) && decide (a ≤ 0x3F)) || decide (0x80 ≤ a)) := rfl

theorem Opcode.instr_injective {a b : Opcode} (h : a.instr = b.instr) : a = b := by
  cases a <;> cases b <;> first | rfl | cases h

/-- The bits of a descriptor put together from its fields (30_encoding.md R88). -/
theorem getLsbD_busDesc (isWrite isWord : Bool) (a : BitVec 8) (n : Nat) :
    (busDesc isWrite isWord a).getLsbD n =
      if n < 8 then a.getLsbD n else if n - 8 < 1 then (BitVec.ofBool isWord).getLsbD (n - 8)
      else (BitVec.ofBool isWrite).getLsbD (n - 8 - 1) := by
  have h := BitVec.getLsbD_append (x := BitVec.ofBool isWrite ++ BitVec.ofBool isWord) (y := a) (i := n)
  rwa [BitVec.getLsbD_append (x := BitVec.ofBool isWrite)] at h

theorem desc_fields (isWrite isWord : Bool) (a : BitVec 8) :
    busAddress (busDesc isWrite isWord a) = a.toNat ∧ busIsWord (busDesc isWrite isWord a) = isWord ∧
      busIsWrite (busDesc isWrite isWord a) = isWrite := by
  refine ⟨?_, ?_, ?_⟩
  · unfold busAddress
    congr 1
    apply BitVec.eq_of_getLsbD_eq
    intro i hi
    rw [BitVec.getLsbD_extractLsb', getLsbD_busDesc]
    simp [hi]
  · rw [busIsWord, getLsbD_busDesc]
    simp
  · rw [busIsWrite, getLsbD_busDesc]
    simp

end Sys2Proof
end

