-- ==== Sys2Proof/Laws/State.lean ====
section
/-! SUPPORT. One lemma per field of the state and per named update: what the update leaves the field at. -/

namespace Sys2Proof.Machine

variable (s : State)

/-! ### emit -/
@[simp] theorem emit_lines (e : Event) : (s.emit e).lines = s.lines := rfl
@[simp] theorem emit_txw (e : Event) : (s.emit e).txw = s.txw := rfl
@[simp] theorem emit_rxw (e : Event) : (s.emit e).rxw = s.rxw := rfl
@[simp] theorem emit_framew (e : Event) : (s.emit e).framew = s.framew := rfl
@[simp] theorem emit_off (e : Event) : (s.emit e).off = s.off := rfl
@[simp] theorem emit_len (e : Event) : (s.emit e).len = s.len := rfl
@[simp] theorem emit_status (e : Event) : (s.emit e).status = s.status := rfl
@[simp] theorem emit_buf (e : Event) : (s.emit e).buf = s.buf := rfl
@[simp] theorem emit_seq (e : Event) : (s.emit e).seq = s.seq := rfl
@[simp] theorem emit_faulted (e : Event) : (s.emit e).faulted = s.faulted := rfl
@[simp] theorem emit_refused (e : Event) : (s.emit e).refused = s.refused := rfl
@[simp] theorem emit_trace (e : Event) : (s.emit e).trace = s.trace ++ [e] := rfl
@[simp] theorem emit_peer (e : Event) : (s.emit e).peer = s.peer := rfl
@[simp] theorem emit_host (e : Event) : (s.emit e).host = s.host := rfl
@[simp] theorem emit_resets (e : Event) : (s.emit e).resets = s.resets := rfl
@[simp] theorem emit_config (e : Event) : (s.emit e).config = s.config := rfl
@[simp] theorem emit_params (e : Event) : (s.emit e).params = s.params := rfl
@[simp] theorem emit_sampled (e : Event) (m : InLine) : (s.emit e).sampled m = s.sampled m := rfl

/-! ### line -/
@[simp] theorem line_lines (l : OutLine) (v : Bool) : (s.line l v).lines = s.lines.set l v := rfl
@[simp] theorem line_txw (l : OutLine) (v : Bool) : (s.line l v).txw = s.txw := rfl
@[simp] theorem line_rxw (l : OutLine) (v : Bool) : (s.line l v).rxw = s.rxw := rfl
@[simp] theorem line_framew (l : OutLine) (v : Bool) : (s.line l v).framew = s.framew := rfl
@[simp] theorem line_off (l : OutLine) (v : Bool) : (s.line l v).off = s.off := rfl
@[simp] theorem line_len (l : OutLine) (v : Bool) : (s.line l v).len = s.len := rfl
@[simp] theorem line_status (l : OutLine) (v : Bool) : (s.line l v).status = s.status := rfl
@[simp] theorem line_buf (l : OutLine) (v : Bool) : (s.line l v).buf = s.buf := rfl
@[simp] theorem line_seq (l : OutLine) (v : Bool) : (s.line l v).seq = s.seq := rfl
@[simp] theorem line_faulted (l : OutLine) (v : Bool) : (s.line l v).faulted = s.faulted := rfl
@[simp] theorem line_refused (l : OutLine) (v : Bool) : (s.line l v).refused = s.refused := rfl
@[simp] theorem line_trace (l : OutLine) (v : Bool) : (s.line l v).trace = s.trace ++ [.drive l v] := rfl
@[simp] theorem line_peer (l : OutLine) (v : Bool) : (s.line l v).peer = s.peer := rfl
@[simp] theorem line_host (l : OutLine) (v : Bool) : (s.line l v).host = s.host := rfl
@[simp] theorem line_resets (l : OutLine) (v : Bool) : (s.line l v).resets = s.resets := rfl
@[simp] theorem line_config (l : OutLine) (v : Bool) : (s.line l v).config = s.config := rfl
@[simp] theorem line_params (l : OutLine) (v : Bool) : (s.line l v).params = s.params := rfl
@[simp] theorem line_sampled (l : OutLine) (v : Bool) (m : InLine) : (s.line l v).sampled m = s.sampled m := rfl

/-! ### takeSample -/
@[simp] theorem takeSample_lines (l : InLine) : (s.takeSample l).lines = s.lines := rfl
@[simp] theorem takeSample_txw (l : InLine) : (s.takeSample l).txw = s.txw := rfl
@[simp] theorem takeSample_rxw (l : InLine) : (s.takeSample l).rxw = s.rxw := rfl
@[simp] theorem takeSample_framew (l : InLine) : (s.takeSample l).framew = s.framew := rfl
@[simp] theorem takeSample_off (l : InLine) : (s.takeSample l).off = s.off := rfl
@[simp] theorem takeSample_len (l : InLine) : (s.takeSample l).len = s.len := rfl
@[simp] theorem takeSample_status (l : InLine) : (s.takeSample l).status = s.status := rfl
@[simp] theorem takeSample_buf (l : InLine) : (s.takeSample l).buf = s.buf := rfl
@[simp] theorem takeSample_seq (l : InLine) : (s.takeSample l).seq = s.seq := rfl
@[simp] theorem takeSample_faulted (l : InLine) : (s.takeSample l).faulted = s.faulted := rfl
@[simp] theorem takeSample_refused (l : InLine) : (s.takeSample l).refused = s.refused := rfl
@[simp] theorem takeSample_trace (l : InLine) : (s.takeSample l).trace = s.trace ++ [.sample l (s.sampled l)] := rfl
@[simp] theorem takeSample_peer (l : InLine) : (s.takeSample l).peer = s.peer.advance l := rfl
@[simp] theorem takeSample_host (l : InLine) : (s.takeSample l).host = s.host := rfl
@[simp] theorem takeSample_resets (l : InLine) : (s.takeSample l).resets = s.resets := rfl
@[simp] theorem takeSample_config (l : InLine) : (s.takeSample l).config = s.config := rfl
@[simp] theorem takeSample_params (l : InLine) : (s.takeSample l).params = s.params := rfl

/-! ### goto -/
@[simp] theorem goto_lines (p : Phase) : (s.goto p).lines = s.lines := rfl
@[simp] theorem goto_txw (p : Phase) : (s.goto p).txw = s.txw := rfl
@[simp] theorem goto_rxw (p : Phase) : (s.goto p).rxw = s.rxw := rfl
@[simp] theorem goto_framew (p : Phase) : (s.goto p).framew = s.framew := rfl
@[simp] theorem goto_off (p : Phase) : (s.goto p).off = s.off := rfl
@[simp] theorem goto_len (p : Phase) : (s.goto p).len = s.len := rfl
@[simp] theorem goto_status (p : Phase) : (s.goto p).status = s.status := rfl
@[simp] theorem goto_buf (p : Phase) : (s.goto p).buf = s.buf := rfl
@[simp] theorem goto_seq (p : Phase) : (s.goto p).seq = { s.seq with phase := p } := rfl
@[simp] theorem goto_faulted (p : Phase) : (s.goto p).faulted = s.faulted := rfl
@[simp] theorem goto_refused (p : Phase) : (s.goto p).refused = s.refused := rfl
@[simp] theorem goto_trace (p : Phase) : (s.goto p).trace = s.trace := rfl
@[simp] theorem goto_peer (p : Phase) : (s.goto p).peer = s.peer := rfl
@[simp] theorem goto_host (p : Phase) : (s.goto p).host = s.host := rfl
@[simp] theorem goto_resets (p : Phase) : (s.goto p).resets = s.resets := rfl
@[simp] theorem goto_config (p : Phase) : (s.goto p).config = s.config := rfl
@[simp] theorem goto_params (p : Phase) : (s.goto p).params = s.params := rfl
@[simp] theorem goto_sampled (p : Phase) (m : InLine) : (s.goto p).sampled m = s.sampled m := rfl

/-! ### raiseFault -/
@[simp] theorem raiseFault_lines (r : FaultReason) : (s.raiseFault r).lines = s.lines := rfl
@[simp] theorem raiseFault_txw (r : FaultReason) : (s.raiseFault r).txw = s.txw := rfl
@[simp] theorem raiseFault_rxw (r : FaultReason) : (s.raiseFault r).rxw = s.rxw := rfl
@[simp] theorem raiseFault_framew (r : FaultReason) : (s.raiseFault r).framew = s.framew := rfl
@[simp] theorem raiseFault_off (r : FaultReason) : (s.raiseFault r).off = s.off := rfl
@[simp] theorem raiseFault_len (r : FaultReason) : (s.raiseFault r).len = s.len := rfl
@[simp] theorem raiseFault_status (r : FaultReason) : (s.raiseFault r).status = { s.status with active := false } := rfl
@[simp] theorem raiseFault_buf (r : FaultReason) : (s.raiseFault r).buf = s.buf := rfl
@[simp] theorem raiseFault_seq (r : FaultReason) : (s.raiseFault r).seq = { s.seq with phase := .idle, cmd := none } := rfl
@[simp] theorem raiseFault_faulted (r : FaultReason) : (s.raiseFault r).faulted = s.faulted ++ [r] := rfl
@[simp] theorem raiseFault_refused (r : FaultReason) : (s.raiseFault r).refused = s.refused := rfl
@[simp] theorem raiseFault_trace (r : FaultReason) : (s.raiseFault r).trace = s.trace := rfl
@[simp] theorem raiseFault_peer (r : FaultReason) : (s.raiseFault r).peer = s.peer := rfl
@[simp] theorem raiseFault_host (r : FaultReason) : (s.raiseFault r).host = s.host := rfl
@[simp] theorem raiseFault_resets (r : FaultReason) : (s.raiseFault r).resets = s.resets := rfl
@[simp] theorem raiseFault_config (r : FaultReason) : (s.raiseFault r).config = s.config := rfl
@[simp] theorem raiseFault_params (r : FaultReason) : (s.raiseFault r).params = s.params := rfl
@[simp] theorem raiseFault_sampled (r : FaultReason) (m : InLine) : (s.raiseFault r).sampled m = s.sampled m := rfl

/-! ### raiseRefuse -/
@[simp] theorem raiseRefuse_lines (r : RefuseReason) : (s.raiseRefuse r).lines = s.lines := rfl
@[simp] theorem raiseRefuse_txw (r : RefuseReason) : (s.raiseRefuse r).txw = s.txw := rfl
@[simp] theorem raiseRefuse_rxw (r : RefuseReason) : (s.raiseRefuse r).rxw = s.rxw := rfl
@[simp] theorem raiseRefuse_framew (r : RefuseReason) : (s.raiseRefuse r).framew = s.framew := rfl
@[simp] theorem raiseRefuse_off (r : RefuseReason) : (s.raiseRefuse r).off = s.off := rfl
@[simp] theorem raiseRefuse_len (r : RefuseReason) : (s.raiseRefuse r).len = s.len := rfl
@[simp] theorem raiseRefuse_status (r : RefuseReason) : (s.raiseRefuse r).status = s.status := rfl
@[simp] theorem raiseRefuse_buf (r : RefuseReason) : (s.raiseRefuse r).buf = s.buf := rfl
@[simp] theorem raiseRefuse_seq (r : RefuseReason) : (s.raiseRefuse r).seq = s.seq := rfl
@[simp] theorem raiseRefuse_faulted (r : RefuseReason) : (s.raiseRefuse r).faulted = s.faulted := rfl
@[simp] theorem raiseRefuse_refused (r : RefuseReason) : (s.raiseRefuse r).refused = s.refused ++ [r] := rfl
@[simp] theorem raiseRefuse_trace (r : RefuseReason) : (s.raiseRefuse r).trace = s.trace := rfl
@[simp] theorem raiseRefuse_peer (r : RefuseReason) : (s.raiseRefuse r).peer = s.peer := rfl
@[simp] theorem raiseRefuse_host (r : RefuseReason) : (s.raiseRefuse r).host = s.host := rfl
@[simp] theorem raiseRefuse_resets (r : RefuseReason) : (s.raiseRefuse r).resets = s.resets := rfl
@[simp] theorem raiseRefuse_config (r : RefuseReason) : (s.raiseRefuse r).config = s.config := rfl
@[simp] theorem raiseRefuse_params (r : RefuseReason) : (s.raiseRefuse r).params = s.params := rfl
@[simp] theorem raiseRefuse_sampled (r : RefuseReason) (m : InLine) : (s.raiseRefuse r).sampled m = s.sampled m := rfl

/-! ### hostRead -/
@[simp] theorem hostRead_lines (v : Option Word) : (s.hostRead v).lines = s.lines := rfl
@[simp] theorem hostRead_txw (v : Option Word) : (s.hostRead v).txw = s.txw := rfl
@[simp] theorem hostRead_rxw (v : Option Word) : (s.hostRead v).rxw = s.rxw := rfl
@[simp] theorem hostRead_framew (v : Option Word) : (s.hostRead v).framew = s.framew := rfl
@[simp] theorem hostRead_off (v : Option Word) : (s.hostRead v).off = s.off := rfl
@[simp] theorem hostRead_len (v : Option Word) : (s.hostRead v).len = s.len := rfl
@[simp] theorem hostRead_status (v : Option Word) : (s.hostRead v).status = s.status := rfl
@[simp] theorem hostRead_buf (v : Option Word) : (s.hostRead v).buf = s.buf := rfl
@[simp] theorem hostRead_seq (v : Option Word) : (s.hostRead v).seq = s.seq := rfl
@[simp] theorem hostRead_faulted (v : Option Word) : (s.hostRead v).faulted = s.faulted := rfl
@[simp] theorem hostRead_refused (v : Option Word) : (s.hostRead v).refused = s.refused := rfl
@[simp] theorem hostRead_trace (v : Option Word) : (s.hostRead v).trace = s.trace := rfl
@[simp] theorem hostRead_peer (v : Option Word) : (s.hostRead v).peer = s.peer := rfl
@[simp] theorem hostRead_host (v : Option Word) : (s.hostRead v).host = { s.host with lastRead := v } := rfl
@[simp] theorem hostRead_resets (v : Option Word) : (s.hostRead v).resets = s.resets := rfl
@[simp] theorem hostRead_config (v : Option Word) : (s.hostRead v).config = s.config := rfl
@[simp] theorem hostRead_params (v : Option Word) : (s.hostRead v).params = s.params := rfl
@[simp] theorem hostRead_sampled (v : Option Word) (m : InLine) : (s.hostRead v).sampled m = s.sampled m := rfl

/-! ### hostReadByte -/
@[simp] theorem hostReadByte_lines (v : Option Byte) : (s.hostReadByte v).lines = s.lines := rfl
@[simp] theorem hostReadByte_txw (v : Option Byte) : (s.hostReadByte v).txw = s.txw := rfl
@[simp] theorem hostReadByte_rxw (v : Option Byte) : (s.hostReadByte v).rxw = s.rxw := rfl
@[simp] theorem hostReadByte_framew (v : Option Byte) : (s.hostReadByte v).framew = s.framew := rfl
@[simp] theorem hostReadByte_off (v : Option Byte) : (s.hostReadByte v).off = s.off := rfl
@[simp] theorem hostReadByte_len (v : Option Byte) : (s.hostReadByte v).len = s.len := rfl
@[simp] theorem hostReadByte_status (v : Option Byte) : (s.hostReadByte v).status = s.status := rfl
@[simp] theorem hostReadByte_buf (v : Option Byte) : (s.hostReadByte v).buf = s.buf := rfl
@[simp] theorem hostReadByte_seq (v : Option Byte) : (s.hostReadByte v).seq = s.seq := rfl
@[simp] theorem hostReadByte_faulted (v : Option Byte) : (s.hostReadByte v).faulted = s.faulted := rfl
@[simp] theorem hostReadByte_refused (v : Option Byte) : (s.hostReadByte v).refused = s.refused := rfl
@[simp] theorem hostReadByte_trace (v : Option Byte) : (s.hostReadByte v).trace = s.trace := rfl
@[simp] theorem hostReadByte_peer (v : Option Byte) : (s.hostReadByte v).peer = s.peer := rfl
@[simp] theorem hostReadByte_host (v : Option Byte) : (s.hostReadByte v).host = { s.host with lastByte := v } := rfl
@[simp] theorem hostReadByte_resets (v : Option Byte) : (s.hostReadByte v).resets = s.resets := rfl
@[simp] theorem hostReadByte_config (v : Option Byte) : (s.hostReadByte v).config = s.config := rfl
@[simp] theorem hostReadByte_params (v : Option Byte) : (s.hostReadByte v).params = s.params := rfl
@[simp] theorem hostReadByte_sampled (v : Option Byte) (m : InLine) : (s.hostReadByte v).sampled m = s.sampled m := rfl

/-! ### beginCommand -/
@[simp] theorem beginCommand_lines (op : Opcode) : (s.beginCommand op).lines = s.lines := rfl
@[simp] theorem beginCommand_txw (op : Opcode) : (s.beginCommand op).txw = s.txw := rfl
@[simp] theorem beginCommand_rxw (op : Opcode) : (s.beginCommand op).rxw = s.rxw := rfl
@[simp] theorem beginCommand_framew (op : Opcode) : (s.beginCommand op).framew = s.framew := rfl
@[simp] theorem beginCommand_off (op : Opcode) : (s.beginCommand op).off = s.off := rfl
@[simp] theorem beginCommand_len (op : Opcode) : (s.beginCommand op).len = s.len := rfl
@[simp] theorem beginCommand_status (op : Opcode) : (s.beginCommand op).status = { s.status with active := true } := rfl
@[simp] theorem beginCommand_buf (op : Opcode) : (s.beginCommand op).buf = s.buf := rfl
@[simp] theorem beginCommand_seq (op : Opcode) : (s.beginCommand op).seq = { s.seq with cmd := some op } := rfl
@[simp] theorem beginCommand_faulted (op : Opcode) : (s.beginCommand op).faulted = s.faulted := rfl
@[simp] theorem beginCommand_refused (op : Opcode) : (s.beginCommand op).refused = s.refused := rfl
@[simp] theorem beginCommand_trace (op : Opcode) : (s.beginCommand op).trace = s.trace ++ [.cmdBegin op] := rfl
@[simp] theorem beginCommand_peer (op : Opcode) : (s.beginCommand op).peer = s.peer := rfl
@[simp] theorem beginCommand_host (op : Opcode) : (s.beginCommand op).host = s.host := rfl
@[simp] theorem beginCommand_resets (op : Opcode) : (s.beginCommand op).resets = s.resets := rfl
@[simp] theorem beginCommand_config (op : Opcode) : (s.beginCommand op).config = s.config := rfl
@[simp] theorem beginCommand_params (op : Opcode) : (s.beginCommand op).params = s.params := rfl
@[simp] theorem beginCommand_sampled (op : Opcode) (m : InLine) : (s.beginCommand op).sampled m = s.sampled m := rfl

/-! ### endCommand -/
@[simp] theorem endCommand_lines (op : Opcode) : (s.endCommand op).lines = s.lines := rfl
@[simp] theorem endCommand_txw (op : Opcode) : (s.endCommand op).txw = s.txw := rfl
@[simp] theorem endCommand_rxw (op : Opcode) : (s.endCommand op).rxw = s.rxw := rfl
@[simp] theorem endCommand_framew (op : Opcode) : (s.endCommand op).framew = s.framew := rfl
@[simp] theorem endCommand_off (op : Opcode) : (s.endCommand op).off = s.off := rfl
@[simp] theorem endCommand_len (op : Opcode) : (s.endCommand op).len = s.len := rfl
@[simp] theorem endCommand_status (op : Opcode) : (s.endCommand op).status = { s.status with active := false } := rfl
@[simp] theorem endCommand_buf (op : Opcode) : (s.endCommand op).buf = s.buf := rfl
@[simp] theorem endCommand_seq (op : Opcode) : (s.endCommand op).seq = { s.seq with phase := .idle, cmd := none } := rfl
@[simp] theorem endCommand_faulted (op : Opcode) : (s.endCommand op).faulted = s.faulted := rfl
@[simp] theorem endCommand_refused (op : Opcode) : (s.endCommand op).refused = s.refused := rfl
@[simp] theorem endCommand_trace (op : Opcode) : (s.endCommand op).trace = s.trace ++ [.cmdEnd op] := rfl
@[simp] theorem endCommand_peer (op : Opcode) : (s.endCommand op).peer = s.peer := rfl
@[simp] theorem endCommand_host (op : Opcode) : (s.endCommand op).host = s.host := rfl
@[simp] theorem endCommand_resets (op : Opcode) : (s.endCommand op).resets = s.resets := rfl
@[simp] theorem endCommand_config (op : Opcode) : (s.endCommand op).config = s.config := rfl
@[simp] theorem endCommand_params (op : Opcode) : (s.endCommand op).params = s.params := rfl
@[simp] theorem endCommand_sampled (op : Opcode) (m : InLine) : (s.endCommand op).sampled m = s.sampled m := rfl

/-! ### xferBegin -/
@[simp] theorem xferBegin_lines (w : Word) (c : Caller) : (s.xferBegin w c).lines = s.lines := rfl
@[simp] theorem xferBegin_txw (w : Word) (c : Caller) : (s.xferBegin w c).txw = s.txw := rfl
@[simp] theorem xferBegin_rxw (w : Word) (c : Caller) : (s.xferBegin w c).rxw = s.rxw := rfl
@[simp] theorem xferBegin_framew (w : Word) (c : Caller) : (s.xferBegin w c).framew = s.framew := rfl
@[simp] theorem xferBegin_off (w : Word) (c : Caller) : (s.xferBegin w c).off = s.off := rfl
@[simp] theorem xferBegin_len (w : Word) (c : Caller) : (s.xferBegin w c).len = s.len := rfl
@[simp] theorem xferBegin_status (w : Word) (c : Caller) : (s.xferBegin w c).status = s.status := rfl
@[simp] theorem xferBegin_buf (w : Word) (c : Caller) : (s.xferBegin w c).buf = s.buf := rfl
@[simp] theorem xferBegin_seq (w : Word) (c : Caller) : (s.xferBegin w c).seq = { s.seq with shift := w, acc := 0, polls := 0, i := 0, caller := c, phase := .poll } := rfl
@[simp] theorem xferBegin_faulted (w : Word) (c : Caller) : (s.xferBegin w c).faulted = s.faulted := rfl
@[simp] theorem xferBegin_refused (w : Word) (c : Caller) : (s.xferBegin w c).refused = s.refused := rfl
@[simp] theorem xferBegin_trace (w : Word) (c : Caller) : (s.xferBegin w c).trace = s.trace ++ [.xferBegin w] := rfl
@[simp] theorem xferBegin_peer (w : Word) (c : Caller) : (s.xferBegin w c).peer = s.peer := rfl
@[simp] theorem xferBegin_host (w : Word) (c : Caller) : (s.xferBegin w c).host = s.host := rfl
@[simp] theorem xferBegin_resets (w : Word) (c : Caller) : (s.xferBegin w c).resets = s.resets := rfl
@[simp] theorem xferBegin_config (w : Word) (c : Caller) : (s.xferBegin w c).config = s.config := rfl
@[simp] theorem xferBegin_params (w : Word) (c : Caller) : (s.xferBegin w c).params = s.params := rfl
@[simp] theorem xferBegin_sampled (w : Word) (c : Caller) (m : InLine) : (s.xferBegin w c).sampled m = s.sampled m := rfl

/-! ### passReset -/
@[simp] theorem passReset_lines : s.passReset.lines = s.lines := rfl
@[simp] theorem passReset_txw : s.passReset.txw = s.txw := rfl
@[simp] theorem passReset_rxw : s.passReset.rxw = s.rxw := rfl
@[simp] theorem passReset_framew : s.passReset.framew = s.framew := rfl
@[simp] theorem passReset_off : s.passReset.off = s.off := rfl
@[simp] theorem passReset_len : s.passReset.len = s.len := rfl
@[simp] theorem passReset_status : s.passReset.status = s.status := rfl
@[simp] theorem passReset_buf : s.passReset.buf = s.buf := rfl
@[simp] theorem passReset_seq : s.passReset.seq = s.seq := rfl
@[simp] theorem passReset_faulted : s.passReset.faulted = s.faulted := rfl
@[simp] theorem passReset_refused : s.passReset.refused = s.refused := rfl
@[simp] theorem passReset_trace : s.passReset.trace = s.trace := rfl
@[simp] theorem passReset_peer : s.passReset.peer = s.peer := rfl
@[simp] theorem passReset_host : s.passReset.host = s.host := rfl
@[simp] theorem passReset_resets : s.passReset.resets = s.resets.tail := rfl
@[simp] theorem passReset_config : s.passReset.config = s.config := rfl
@[simp] theorem passReset_params : s.passReset.params = s.params := rfl
@[simp] theorem passReset_sampled (m : InLine) : s.passReset.sampled m = s.sampled m := rfl

/-! ### advanceHost -/
@[simp] theorem advanceHost_lines : s.advanceHost.lines = s.lines := rfl
@[simp] theorem advanceHost_txw : s.advanceHost.txw = s.txw := rfl
@[simp] theorem advanceHost_rxw : s.advanceHost.rxw = s.rxw := rfl
@[simp] theorem advanceHost_framew : s.advanceHost.framew = s.framew := rfl
@[simp] theorem advanceHost_off : s.advanceHost.off = s.off := rfl
@[simp] theorem advanceHost_len : s.advanceHost.len = s.len := rfl
@[simp] theorem advanceHost_status : s.advanceHost.status = s.status := rfl
@[simp] theorem advanceHost_buf : s.advanceHost.buf = s.buf := rfl
@[simp] theorem advanceHost_seq : s.advanceHost.seq = s.seq := rfl
@[simp] theorem advanceHost_faulted : s.advanceHost.faulted = s.faulted := rfl
@[simp] theorem advanceHost_refused : s.advanceHost.refused = s.refused := rfl
@[simp] theorem advanceHost_trace : s.advanceHost.trace = s.trace := rfl
@[simp] theorem advanceHost_peer : s.advanceHost.peer = s.peer := rfl
@[simp] theorem advanceHost_host : s.advanceHost.host = { s.host with pc := s.host.pc + 1 } := rfl
@[simp] theorem advanceHost_resets : s.advanceHost.resets = s.resets := rfl
@[simp] theorem advanceHost_config : s.advanceHost.config = s.config := rfl
@[simp] theorem advanceHost_params : s.advanceHost.params = s.params := rfl
@[simp] theorem advanceHost_sampled (m : InLine) : s.advanceHost.sampled m = s.sampled m := rfl

/-! ### The lines, the peer and the parameters -/

@[simp] theorem Level.ofBit_true : Level.ofBit true = .one := rfl
@[simp] theorem Level.ofBit_false : Level.ofBit false = .zero := rfl
theorem Level.ofBit_injective {a b : Bool} (h : Level.ofBit a = Level.ofBit b) : a = b := by
  cases a <;> cases b <;> simp_all
theorem Level.ofBit_ne_x (a : Bool) : Level.ofBit a ≠ .x := by cases a <;> decide
@[simp] theorem Lines.set_clkOut (ls : Lines) (v : Bool) : ls.set .clkOut v = { ls with clkOut := .ofBit v } := rfl
@[simp] theorem Lines.set_dataOut (ls : Lines) (v : Bool) : ls.set .dataOut v = { ls with dataOut := .ofBit v } := rfl
@[simp] theorem Lines.set_indOut (ls : Lines) (v : Bool) : ls.set .indOut v = { ls with indOut := .ofBit v } := rfl
@[simp] theorem sampled_busyIn : s.sampled .busyIn = s.peer.busyAt 0 := rfl
@[simp] theorem sampled_dataIn : s.sampled .dataIn = s.peer.dataAt 0 := rfl

/-- The draws that follow a sample of DATA_IN are the later draws. -/
@[simp] theorem dataAt_advance_dataIn (p : Peer) (n : Nat) : (p.advance .dataIn).dataAt n = p.dataAt (n + 1) := by
  simp only [Peer.dataAt, Peer.advance, List.getElem?_tail]
  cases p.dataIn[n + 1]? <;> simp [Nat.add_comm, Nat.add_left_comm]

/-- The draws that follow a sample of BUSY_IN are the later draws. -/
@[simp] theorem busyAt_advance_busyIn (p : Peer) (n : Nat) : (p.advance .busyIn).busyAt n = p.busyAt (n + 1) := by
  simp only [Peer.busyAt, Peer.advance, List.getElem?_tail]
  cases p.busyIn[n + 1]? <;> simp [Nat.add_comm, Nat.add_left_comm]

@[simp] theorem dataAt_advance_busyIn (p : Peer) (n : Nat) : (p.advance .busyIn).dataAt n = p.dataAt n := rfl
@[simp] theorem busyAt_advance_dataIn (p : Peer) (n : Nat) : (p.advance .dataIn).busyAt n = p.busyAt n := rfl

end Sys2Proof.Machine
end

