-- ==== Sys2Proof/Laws/Ops.lean ====
section
/-! SUPPORT. What the shared operations can do: a host access, the gate of a command, a step. -/

namespace Sys2Proof.Machine

variable {s t : State}

theorem hostAccess_idle {f : State → State} (h : s.seq.phase = .idle) : hostAccess f s = .next (f s) := by
  simp [hostAccess, h]

theorem hostAccess_held {f : State → State} (h : s.seq.phase ≠ .idle) : hostAccess f s = .refused .hostHeld := by
  simp [hostAccess, h]

/-- A host access that answers a next state ran in IDLE, and the state is its effect. -/
theorem hostAccess_next {f : State → State} (h : hostAccess f s = .next t) : s.seq.phase = .idle ∧ t = f s := by
  unfold hostAccess at h
  split at h
  · rename_i hp
    exact ⟨hp, by simpa using h.symm⟩
  · cases h

theorem commandEffect_refused {op : Opcode} {body : State → State} {r : RefuseReason} (h : s.gate op = some r) :
    commandEffect op body s = s.raiseRefuse r := by simp [commandEffect, h]

theorem commandEffect_runs {op : Opcode} {body : State → State} (h : s.gate op = none) :
    commandEffect op body s = body (s.beginCommand op) := by simp [commandEffect, h]

/-- A command is refused, or it begins and its body runs. -/
theorem commandEffect_cases (op : Opcode) (body : State → State) (s : State) :
    (∃ r, s.gate op = some r ∧ commandEffect op body s = s.raiseRefuse r) ∨
      (s.gate op = none ∧ commandEffect op body s = body (s.beginCommand op)) := by
  cases h : s.gate op with
  | some r => exact .inl ⟨r, rfl, commandEffect_refused h⟩
  | none => exact .inr ⟨rfl, commandEffect_runs h⟩

/-- The gate lets a command other than INIT pass exactly in its ARB states after INIT. -/
theorem gate_none_of {op : Opcode} (hop : op ≠ .init) :
    s.gate op = none ↔ s.status.initDone = true ∧ arbAllowed op s.status.arb = true := by
  unfold State.gate
  cases s.status.initDone <;> cases arbAllowed op s.status.arb <;> simp [hop]

theorem gate_init : s.gate .init = none ↔ s.status.initDone = false := by
  unfold State.gate
  cases s.status.initDone <;> simp [arbAllowed]

/-! ### Steps -/

theorem step_reset (h : s.resetDue = true) : step s = .next s.passReset.applyReset := by simp [step, h]

@[simp] theorem resetDue_of_nil (h : s.resets = []) : s.resetDue = false := by simp [State.resetDue, h]

/-- Where the schedule's first entry is not a reset, none occurs at this step. -/
theorem resetDue_false (h : s.resets.head? ≠ some true) : s.resetDue = false := by
  unfold State.resetDue
  cases hr : s.resets with
  | nil => rfl
  | cons a l => rw [hr] at h; cases a <;> simp_all

theorem resetDue_true (h : s.resets.head? = some true) : s.resetDue = true := by
  unfold State.resetDue
  cases hr : s.resets with
  | nil => rw [hr] at h; cases h
  | cons a l => rw [hr] at h; simpa using h

theorem passReset_of_nil (h : s.resets = []) : s.passReset = s := by
  cases s
  simp_all [State.passReset]

/-- While a command runs and no reset occurs, a step is a micro-step of the block. -/
theorem step_block (hr : s.resetDue = false) (hp : s.seq.phase ≠ .idle) : step s = .next (blockStep s.passReset) := by
  simp [step, hr, hp]

/-- In IDLE with no reset, a step is the host's next move. -/
theorem step_host (hr : s.resetDue = false) (hp : s.seq.phase = .idle) :
    step s = match s.passReset.hostMove with
      | .idle => .next s.passReset
      | .access i => exec i s.passReset.advanceHost
      | .rejected d r => .next (s.passReset.advanceHost.rejectAccess d r)
      | .branch onZero x target => .next (s.passReset.hostBranch onZero x target) := by
  simp only [step, hr, Bool.false_eq_true, if_false]
  refine (if_pos (by simpa using hp)).trans ?_
  cases s.passReset.hostMove <;> rfl

/-- A refused access records its reason and takes back what the host's `rd` or `rdb` returned; nothing else moves. -/
theorem rejectAccess_eq (s : State) (d : BitVec 10) (r : DecodeReject) :
    s.rejectAccess d r = { s with
      refused := s.refused ++ [refuseReasonOf r]
      host := { s.host with
        lastRead := if d.getLsbD 9 = false ∧ d.getLsbD 8 = true then none else s.host.lastRead
        lastByte := if d.getLsbD 9 = false ∧ d.getLsbD 8 = false then none else s.host.lastByte } } := by
  unfold State.rejectAccess busIsWrite busIsWord
  cases d.getLsbD 9 <;> cases d.getLsbD 8 <;> rfl

end Sys2Proof.Machine
end

