-- ==== Sys2Proof/Laws/Exchange.lean ====
section
/-! SUPPORT. The micro-steps of an exchange: each phase's step, the busy-wait, the bit periods, and the whole exchange in
closed form. -/

namespace Sys2Proof.Machine

/-! ### Words and samples -/

/-- The accumulator after `n` bit periods whose samples are `f 0`, `f 1`, … (30_encoding.md R84). -/
def accAfter (f : Nat → Bool) : Nat → Word
  | 0 => 0
  | n + 1 => accumulate (accAfter f n) n (f n)

theorem getLsbD_accumulate (acc : Word) (p : Nat) (b : Bool) (k : Nat) (hp : p < 32) :
    (accumulate acc p b).getLsbD k = (acc.getLsbD k || (b && decide (k = 31 - p))) := by
  simp only [accumulate, BitVec.getLsbD_or, BitVec.getLsbD_shiftLeft, BitVec.getLsbD_setWidth, BitVec.getLsbD_ofBool]
  by_cases h : k = 31 - p
  · subst h
    have : 31 - p < 32 := by omega
    simp [this]
  · by_cases hk : k < 31 - p
    · simp [h, hk]
    · have : k - (31 - p) ≠ 0 := by omega
      simp [h, hk, this]

theorem getLsbD_accAfter (f : Nat → Bool) (n k : Nat) (hn : n ≤ 32) :
    (accAfter f n).getLsbD k = (decide (k < 32) && decide (31 - k < n) && f (31 - k)) := by
  induction n with
  | zero => simp [accAfter]
  | succ n ih =>
    rw [accAfter, getLsbD_accumulate _ _ _ _ (by omega), ih (by omega)]
    by_cases hk : k = 31 - n
    · subst hk
      have h1 : 31 - (31 - n) = n := by omega
      simp [h1, show 31 - n < 32 by omega]
    · by_cases hk32 : k < 32
      · have : (31 - k < n) ↔ (31 - k < n + 1) := by omega
        simp [hk, hk32, this]
      · simp [hk, hk32]

theorem getLsbD_wordOfSamples (f : Nat → Bool) (k : Nat) :
    (wordOfSamples f).getLsbD k = (decide (k < 32) && f (31 - k)) := by
  by_cases hk : k < 32
  · simp [wordOfSamples, hk]
  · simp [hk, BitVec.getLsbD_of_ge _ _ (Nat.le_of_not_lt hk)]

/-- The accumulator after 32 bit periods is the word of the samples (40_link_phy.md R123). -/
theorem accAfter_all (f : Nat → Bool) : accAfter f 32 = wordOfSamples f := by
  apply BitVec.eq_of_getLsbD_eq
  intro k hk
  rw [getLsbD_accAfter _ _ _ (Nat.le_refl _), getLsbD_wordOfSamples]
  simp [show 31 - k < 32 by omega]

/-- `rx[31 − p]` is the sample of bit period p (40_link_phy.md R123). -/
theorem wireBit_wordOfSamples (f : Nat → Bool) {p : Nat} (hp : p < 32) : wireBit (wordOfSamples f) p = f p := by
  rw [wireBit, getLsbD_wordOfSamples]
  have : 31 - (31 - p) = p := by omega
  simp [show 31 - p < 32 by omega, this]

theorem wordOfSamples_wireBit (w : Word) : wordOfSamples (wireBit w) = w := by
  apply BitVec.eq_of_getLsbD_eq
  intro k hk
  change k < 32 at hk
  rw [getLsbD_wordOfSamples]
  have : 31 - (31 - k) = k := by omega
  simp [hk, wireBit, this]

theorem wordOfSamples_congr {f g : Nat → Bool} (h : ∀ p, p < 32 → f p = g p) : wordOfSamples f = wordOfSamples g := by
  apply BitVec.eq_of_getLsbD_eq
  intro k hk
  change k < 32 at hk
  rw [getLsbD_wordOfSamples, getLsbD_wordOfSamples, h (31 - k) (by omega)]

/-- EA1: an exchange whose peer sends P receives P. -/
theorem wordAt_of_peerSends {p : Peer} {m : Nat} {w : Word} (h : peerSends p m w) : p.wordAt m = w :=
  (wordOfSamples_congr h).trans (wordOfSamples_wireBit w)

/-! ### The draws -/

theorem drop_getElem? {α : Type} (l : List α) (k n : Nat) : (l.drop k)[n]? = l[k + n]? := by simp

/-- Draws used up: the peer after `a` samples of BUSY_IN and `b` of DATA_IN. -/
def Peer.skip (p : Peer) (a b : Nat) : Peer :=
  { busyIn := p.busyIn.drop a, dataIn := p.dataIn.drop b, busyDrawn := p.busyDrawn + a, dataDrawn := p.dataDrawn + b }

@[simp] theorem Peer.skip_zero (p : Peer) : p.skip 0 0 = p := by simp [Peer.skip]
@[simp] theorem Peer.skip_advance_busyIn (p : Peer) (a b : Nat) : (p.skip a b).advance .busyIn = p.skip (a + 1) b := by
  simp [Peer.skip, Peer.advance, Nat.add_assoc]
@[simp] theorem Peer.skip_advance_dataIn (p : Peer) (a b : Nat) : (p.skip a b).advance .dataIn = p.skip a (b + 1) := by
  simp [Peer.skip, Peer.advance, Nat.add_assoc]
@[simp] theorem Peer.skip_dataAt (p : Peer) (a b n : Nat) : (p.skip a b).dataAt n = p.dataAt (b + n) := by
  simp [Peer.skip, Peer.dataAt, Nat.add_assoc]
@[simp] theorem Peer.skip_busyAt (p : Peer) (a b n : Nat) : (p.skip a b).busyAt n = p.busyAt (a + n) := by
  simp [Peer.skip, Peer.busyAt, Nat.add_assoc]
@[simp] theorem Peer.skip_skip (p : Peer) (a b c d : Nat) : (p.skip a b).skip c d = p.skip (a + c) (b + d) := by
  simp [Peer.skip, Nat.add_assoc]

theorem Peer.skip_dataAt_fun (p : Peer) (a b : Nat) : (p.skip a b).dataAt = fun n => p.dataAt (b + n) := by
  funext n
  simp

@[simp] theorem Peer.skip_polls_dataAt (p : Peer) (a : Nat) : (p.skip a 0).dataAt = p.dataAt := by
  simp [Peer.skip_dataAt_fun]

@[simp] theorem Peer.wordAt_zero (p : Peer) : p.wordAt 0 = wordOfSamples p.dataAt := by simp [Peer.wordAt]

theorem peerAfterExchange_eq (s : State) : s.peerAfterExchange = s.peer.skip s.pollCount 32 := rfl

/-- The m-th exchange to come, seen after some exchanges. -/
theorem Peer.wordAt_skip (p : Peer) (a k m : Nat) : (p.skip a (32 * k)).wordAt m = p.wordAt (k + m) := by
  unfold Peer.wordAt
  congr 1
  funext n
  simp [Config.wordBits, Nat.mul_add, Nat.add_assoc]

/-! ### Runs of micro-steps -/

/-- `n` micro-steps of the block. -/
def blockRun : Nat → State → State
  | 0, s => s
  | n + 1, s => blockRun n (blockStep s)

@[simp] theorem blockRun_zero (s : State) : blockRun 0 s = s := rfl
theorem blockRun_succ (n : Nat) (s : State) : blockRun (n + 1) s = blockRun n (blockStep s) := rfl
theorem blockRun_add (m n : Nat) (s : State) : blockRun (m + n) s = blockRun n (blockRun m s) := by
  induction m generalizing s with
  | zero => simp
  | succ m ih => rw [Nat.succ_add, blockRun_succ, blockRun_succ, ih]

/-! ### The busy-wait (R113) -/

/-- The part of the busy-wait still to come when `k` polls are made: its result in closed form. -/
def afterPolls (s : State) (k cnt : Nat) (bound : Bool) : State :=
  { s with
    seq := { s.seq with phase := .setup, i := 0, polls := k + cnt }
    peer := s.peer.skip cnt 0
    trace := s.trace ++ ((List.range cnt).map fun n => Event.sample .busyIn (s.peer.busyAt n)) ++
      if bound then [.busyBound] else [] }

theorem pollSamples_shift (lv : Bool) (f : Nat → Bool) (fuel n : Nat) :
    pollSamples lv (fun k => f (k + 1)) fuel n = pollSamples lv f fuel (n + 1) := by
  induction fuel generalizing n with
  | zero => rfl
  | succ fuel ih => simp [pollSamples, ih]

theorem pollsBound_shift (lv : Bool) (f : Nat → Bool) (fuel n : Nat) :
    pollsBound lv (fun k => f (k + 1)) fuel n = pollsBound lv f fuel (n + 1) := by
  induction fuel generalizing n with
  | zero => rfl
  | succ fuel ih => simp [pollsBound, ih]

theorem pollSamples_le (lv : Bool) (f : Nat → Bool) (fuel n : Nat) : pollSamples lv f fuel n ≤ fuel := by
  induction fuel generalizing n with
  | zero => simp [pollSamples]
  | succ fuel ih =>
    have := ih (n + 1)
    simp only [pollSamples]
    split <;> omega

theorem pollSamples_bound {lv : Bool} {f : Nat → Bool} {fuel n : Nat} (h : pollsBound lv f fuel n = true) :
    pollSamples lv f fuel n = fuel := by
  induction fuel generalizing n with
  | zero => rfl
  | succ fuel ih =>
    simp only [pollsBound, Bool.and_eq_true, decide_eq_true_eq] at h
    simp [pollSamples, h.1, ih h.2]

/-- The polls made before the last one saw "busy". -/
theorem pollSamples_busy {lv : Bool} {f : Nat → Bool} {fuel n k : Nat} (h : k + 1 < pollSamples lv f fuel n) :
    f (n + k) = lv := by
  induction fuel generalizing n k with
  | zero => simp [pollSamples] at h
  | succ fuel ih =>
    simp only [pollSamples] at h
    split at h
    · rename_i hb
      cases k with
      | zero => simpa using hb
      | succ k =>
        have := ih (n := n + 1) (k := k) (by omega)
        rwa [show n + (k + 1) = n + 1 + k by omega]
    · omega

/-- A busy-wait that does not reach its bound ends with a poll that saw "not busy". -/
theorem pollSamples_ready {lv : Bool} {f : Nat → Bool} {fuel n : Nat} (h : pollsBound lv f fuel n = false) :
    ∃ k, pollSamples lv f fuel n = k + 1 ∧ f (n + k) ≠ lv := by
  induction fuel generalizing n with
  | zero => simp [pollsBound] at h
  | succ fuel ih =>
    simp only [pollsBound, Bool.and_eq_false_iff, decide_eq_false_iff_not] at h
    by_cases hb : f n = lv
    · obtain ⟨k, hk, hne⟩ := ih (n := n + 1) (by rcases h with h | h; exact absurd hb h; exact h)
      refine ⟨k + 1, by simp [pollSamples, hb, hk], ?_⟩
      rwa [show n + (k + 1) = n + 1 + k by omega]
    · exact ⟨0, by simp [pollSamples, hb], by simpa using hb⟩

theorem busyAt_skip_fun (p : Peer) : (p.skip 1 0).busyAt = fun k => p.busyAt (k + 1) := by
  funext k
  simp [Nat.add_comm]

theorem blockRun_poll (fuel : Nat) (s : State) (hp : s.seq.phase = .poll)
    (hf : s.seq.polls + fuel = s.params.busyPollMax) :
    let cnt := pollSamples s.params.busyLevel s.peer.busyAt fuel 0
    let bound := pollsBound s.params.busyLevel s.peer.busyAt fuel 0
    blockRun (cnt + if bound then 1 else 0) s = afterPolls s s.seq.polls cnt bound := by
  induction fuel generalizing s with
  | zero =>
    have h : s.seq.polls = s.params.busyPollMax := by omega
    simp only [pollSamples, pollsBound, if_true, Nat.zero_add, blockRun_succ, blockRun_zero]
    simp [blockStep, hp, stepPoll, h, afterPolls, State.emit]
  | succ fuel ih =>
    have hne : s.seq.polls ≠ s.params.busyPollMax := by omega
    by_cases hb : s.peer.busyAt 0 = s.params.busyLevel
    · have hstep : blockStep s =
          { s.takeSample .busyIn with seq := { s.seq with polls := s.seq.polls + 1, phase := .poll } } := by
        simp [blockStep, hp, stepPoll, hne, hb]
      have hpeer : (blockStep s).peer = s.peer.skip 1 0 := by
        rw [hstep]
        simp [State.takeSample, Peer.advance, Peer.skip]
      have hpar : (blockStep s).params = s.params := by rw [hstep]; rfl
      have hih := ih (blockStep s) (by rw [hstep]) (by rw [hpar, hstep]; simp; omega)
      simp only [hpar, hpeer, busyAt_skip_fun, pollSamples_shift, pollsBound_shift, Nat.zero_add] at hih
      simp only [pollSamples, pollsBound, hb, if_true, decide_true, Bool.true_and, Nat.zero_add]
      rw [show ∀ a b : Nat, a + 1 + b = (a + b) + 1 by omega, blockRun_succ, hih, hstep]
      simp only [afterPolls, takeSample_trace, sampled_busyIn, List.range_succ_eq_map, List.map_cons, List.map_map]
      simp [State.takeSample, Peer.advance, Peer.skip, Peer.busyAt, Function.comp_def, Nat.add_comm, Nat.add_left_comm]
      omega
    · simp only [pollSamples, pollsBound, hb, if_false, decide_false, Bool.false_and, Bool.false_eq_true,
        Nat.add_zero, blockRun_succ, blockRun_zero]
      simp [blockStep, hp, stepPoll, hne, hb, afterPolls, State.takeSample, Peer.advance, Peer.skip]

/-! ### The bit periods (R114 to R117) -/

theorem blockStep_setup {s : State} (h : s.seq.phase = .setup) : blockStep s = stepSetup s := by simp [blockStep, h]
theorem blockStep_low {s : State} (h : s.seq.phase = .low) : blockStep s = stepLow s := by simp [blockStep, h]
theorem blockStep_high {s : State} (h : s.seq.phase = .high) : blockStep s = stepHigh s := by simp [blockStep, h]
theorem blockStep_sample {s : State} (h : s.seq.phase = .sample) : blockStep s = stepSample s := by
  simp [blockStep, h]
theorem blockStep_restore {s : State} (h : s.seq.phase = .restore) : blockStep s = stepRestore s := by
  simp [blockStep, h]
theorem blockStep_done {s : State} (h : s.seq.phase = .done) : blockStep s = stepDone s := by simp [blockStep, h]
theorem blockStep_syncNext {s : State} (h : s.seq.phase = .syncNext) : blockStep s = stepSyncNext s := by
  simp [blockStep, h]
theorem blockStep_chunkNext {s : State} (h : s.seq.phase = .chunkNext) : blockStep s = stepChunkNext s := by
  simp [blockStep, h]

/-- One bit period that is not the last. -/
theorem blockRun_period {s : State} (hp : s.seq.phase = .setup) (hi : s.seq.i.toNat < 31) :
    blockRun 4 s =
      { s with
        lines :=
          { clkOut := .one
            dataOut := .ofBit (wireBit s.seq.shift s.seq.i.toNat)
            indOut := .ofBit (wireBit s.seq.shift s.seq.i.toNat) }
        seq :=
          { s.seq with
            phase := .setup, i := s.seq.i + 1, acc := accumulate s.seq.acc s.seq.i.toNat (s.peer.dataAt 0) }
        peer := s.peer.advance .dataIn
        trace := s.trace ++ periodTrace s.seq.shift (fun _ => s.peer.dataAt 0) s.seq.i.toNat } := by
  simp [blockRun, blockStep, hp, stepSetup, stepLow, stepHigh, stepSample, hi, State.goto, State.line, Lines.set,
    State.takeSample, periodTrace]

/-- The last bit period. -/
theorem blockRun_lastPeriod {s : State} (hp : s.seq.phase = .setup) (hi : s.seq.i.toNat = 31) :
    blockRun 4 s =
      { s with
        lines :=
          { clkOut := .one
            dataOut := .ofBit (wireBit s.seq.shift 31)
            indOut := .ofBit (wireBit s.seq.shift 31) }
        seq := { s.seq with phase := .restore, acc := accumulate s.seq.acc 31 (s.peer.dataAt 0) }
        peer := s.peer.advance .dataIn
        trace := s.trace ++ periodTrace s.seq.shift (fun _ => s.peer.dataAt 0) 31 } := by
  simp [blockRun, blockStep, hp, stepSetup, stepLow, stepHigh, stepSample, hi, State.goto, State.line, Lines.set,
    State.takeSample, periodTrace]

/-- The state after `p` bit periods, 1 ≤ p ≤ 31, of an exchange at SETUP(0). -/
def afterPeriods (s : State) (p : Nat) : State :=
  { s with
    lines :=
      { clkOut := .one
        dataOut := .ofBit (wireBit s.seq.shift (p - 1))
        indOut := .ofBit (wireBit s.seq.shift (p - 1)) }
    seq := { s.seq with phase := .setup, i := BitVec.ofNat 5 p, acc := accAfter s.peer.dataAt p }
    peer := s.peer.skip 0 p
    trace := s.trace ++ (List.range p).flatMap (periodTrace s.seq.shift s.peer.dataAt) }

theorem blockRun_periods {s : State} (hp : s.seq.phase = .setup) (hi : s.seq.i = 0) (ha : s.seq.acc = 0) (p : Nat)
    (hp31 : p + 1 ≤ 31) : blockRun (4 * (p + 1)) s = afterPeriods s (p + 1) := by
  induction p with
  | zero =>
    rw [show 4 * (0 + 1) = 4 by rfl, blockRun_period hp (by simp [hi])]
    simp [afterPeriods, hi, ha, accAfter, Peer.skip, Peer.advance, periodTrace]
  | succ p ih =>
    rw [show 4 * (p + 1 + 1) = 4 * (p + 1) + 4 by ring, blockRun_add, ih (by omega)]
    have hmod : (p + 1) % 32 = p + 1 := Nat.mod_eq_of_lt (by omega)
    have hi' : (afterPeriods s (p + 1)).seq.i.toNat = p + 1 := hmod
    rw [blockRun_period rfl (by omega), hi']
    simp only [afterPeriods, Peer.skip_advance_dataIn, Peer.skip_dataAt, Nat.add_zero, List.range_succ (n := p + 1),
      List.flatMap_append, accAfter]
    simp [periodTrace, BitVec.ofNat_add]

/-- From SETUP(0) to RESTORE: 32 bit periods. -/
theorem blockRun_bits {s : State} (hp : s.seq.phase = .setup) (hi : s.seq.i = 0) (ha : s.seq.acc = 0) :
    blockRun 128 s =
      { s with
        lines :=
          { clkOut := .one, dataOut := .ofBit (wireBit s.seq.shift 31), indOut := .ofBit (wireBit s.seq.shift 31) }
        seq := { s.seq with phase := .restore, i := 31, acc := wordOfSamples s.peer.dataAt }
        peer := s.peer.skip 0 32
        trace := s.trace ++ (List.range 32).flatMap (periodTrace s.seq.shift s.peer.dataAt) } := by
  rw [show 128 = 4 * (30 + 1) + 4 by rfl, blockRun_add, blockRun_periods hp hi ha 30 (by omega),
    blockRun_lastPeriod rfl rfl]
  rw [← accAfter_all, show 32 = 31 + 1 by rfl, List.range_succ, List.flatMap_append]
  simp [afterPeriods, accAfter, periodTrace]

/-! ### The whole exchange -/

/-- From POLL to DONE: the state before DONE's own step. -/
theorem blockRun_toDone (s : State) (tx : Word) (c : Caller) :
    blockRun (s.pollCount + (if s.pollBound then 1 else 0) + 129) (s.xferBegin tx c) =
      { s with
        lines := { clkOut := .one, dataOut := .one, indOut := .ofBit (wireBit tx 31) }
        seq :=
          { s.seq with
            phase := .done, shift := tx, acc := s.peer.wordAt 0, i := 31, polls := s.pollCount, caller := c }
        peer := s.peerAfterExchange
        trace := s.trace ++ (.xferBegin tx :: (s.pollTrace ++
          (List.range Config.wordBits).flatMap (periodTrace tx s.peer.dataAt) ++
          [.drive .clkOut true, .drive .dataOut true])) } := by
  have hpoll := blockRun_poll s.params.busyPollMax (s.xferBegin tx c) rfl (by simp)
  simp only [xferBegin_params, xferBegin_peer] at hpoll
  rw [show s.pollCount + (if s.pollBound then 1 else 0) + 129 =
    (s.pollCount + if s.pollBound then 1 else 0) + (128 + 1) by omega, blockRun_add]
  rw [show blockRun (s.pollCount + if s.pollBound then 1 else 0) (s.xferBegin tx c) = _ from hpoll, blockRun_add, blockRun_bits rfl rfl rfl, blockRun_succ, blockRun_zero, blockStep_restore rfl]
  simp [stepRestore, State.goto, State.line, Lines.set, afterPolls, Config.clkIdle, Config.doutIdle,
    peerAfterExchange_eq, Config.wordBits, State.pollCount, State.pollTrace, State.pollBound]
  rfl

/-- What DONE does for the caller after an exchange. -/
def finishExchange (t : State) : Caller → State
  | .exchange => t.endCommand .exchange
  | .sync => t.goto .syncNext
  | .sendChunk => t.goto .chunkNext

/-- A whole exchange, from XferBegin to the end of DONE (40_link_phy.md R112 to R119, R130). -/
theorem blockRun_exchange (s : State) (tx : Word) (c : Caller) :
    blockRun s.exchangeSteps (s.xferBegin tx c) = finishExchange (s.afterExchange tx c) c := by
  rw [State.exchangeSteps, show ∀ n : Nat, n + (4 * Config.wordBits + 2) = n + 129 + 1 by intro; rfl, blockRun_add, blockRun_toDone,
    blockRun_succ, blockRun_zero, blockStep_done rfl]
  cases c <;> simp [stepDone, finishExchange, State.afterExchange, State.emit, State.exchangeTrace, State.endCommand,
    State.goto]

end Sys2Proof.Machine
end

