-- ==== Sys2Proof/Laws/Run.lean ====
section
/-! SUPPORT. What an instruction and a micro-step can do, said once, and runs of the machine while a command runs. -/

namespace Sys2Proof.Machine

variable {s t : State}

/-! ### Instructions -/

/-- The effect of an instruction on a state in which the host may act. -/
def hostEffect (i : Instr) (s : State) : State :=
  match i with
  | .init => commandEffect .init initBody s
  | .exchange => commandEffect .exchange exchangeBody s
  | .encode => commandEffect .encode encodeBody s
  | .sendChunk => commandEffect .sendChunk sendChunkBody s
  | .connected => commandEffect .connected connectedBody s
  | .sync => commandEffect .sync syncBody s
  | .close => commandEffect .close closeBody s
  | .cooldownDone => commandEffect .cooldownDone cooldownDoneBody s
  | .wrCmd v =>
    match opcodeOf v with
    | none => s.raiseRefuse (.reservedCommand v)
    | some op => commandEffect op (commandBody op) s
  | .rdStatus => s.hostRead (some s.status.toWord)
  | .rdTxw => s.hostRead (some s.txw)
  | .wrTxw v => { s with txw := v }
  | .rdRxw => s.hostRead (some s.rxw)
  | .rdFramew => s.hostRead (some s.framew)
  | .rdOff => s.hostRead (some s.offWord)
  | .wrOff v => if offsetLimit < v then s.raiseRefuse (.outOfRange .off v) else { s with off := v.setWidth 7 }
  | .rdLen => s.hostRead (some s.lenWord)
  | .wrLen v => if offsetLimit < v then s.raiseRefuse (.outOfRange .len v) else { s with len := v.setWidth 7 }
  | .wrbBuf k v =>
    if k < Config.bufSize then { s with buf := Memory.write s.buf k v } else s.raiseRefuse (.badAddress (0x40 + k))
  | .rdbBuf k =>
    if k < Config.bufSize then
      match Memory.read s.buf k with
      | some b => s.hostReadByte (some b)
      | none => (s.raiseFault (.unwrittenBufferByte k)).hostReadByte none
    else (s.raiseRefuse (.badAddress (0x40 + k))).hostReadByte none

/-- Every instruction is a host access with that effect. -/
theorem exec_eq (i : Instr) (s : State) : exec i s = hostAccess (hostEffect i) s := by
  cases i
  case wrCmd v =>
    simp only [exec, execWrCmd, hostAccess, hostEffect]
    cases opcodeOf v with
    | none => rfl
    | some op => cases op <;> rfl
  all_goals rfl

theorem exec_idle (i : Instr) (h : s.seq.phase = .idle) : exec i s = .next (hostEffect i s) := by
  rw [exec_eq, hostAccess_idle h]

theorem exec_held (i : Instr) (h : s.seq.phase ≠ .idle) : exec i s = .refused .hostHeld := by
  rw [exec_eq, hostAccess_held h]

/-- An instruction that answers a next state ran in IDLE, and the state is its effect. -/
theorem exec_next {i : Instr} (h : exec i s = .next t) : s.seq.phase = .idle ∧ t = hostEffect i s := by
  rw [exec_eq] at h
  exact hostAccess_next h

theorem exec_command (op : Opcode) (s : State) : exec op.instr s = hostAccess (commandEffect op (commandBody op)) s := by
  cases op <;> rfl

/-- A write of a command's word is that command. -/
theorem exec_wrCmd_word (op : Opcode) (s : State) : exec (.wrCmd op.word) s = exec op.instr s := by
  rw [exec_command, exec_eq]
  simp [hostAccess, hostEffect, opcodeOf_word]

/-- A command that a check refuses records the reason and nothing else. -/
theorem exec_gated (op : Opcode) (h : s.seq.phase = .idle) {r : RefuseReason} (hg : s.gate op = some r) :
    exec op.instr s = .next (s.raiseRefuse r) := by rw [exec_command, hostAccess_idle h, commandEffect_refused hg]

/-- A command that passes the checks begins and runs its body. -/
theorem exec_runs (op : Opcode) (h : s.seq.phase = .idle) (hg : s.gate op = none) :
    exec op.instr s = .next (commandBody op (s.beginCommand op)) := by
  rw [exec_command, hostAccess_idle h, commandEffect_runs hg]

/-! ### Micro-steps -/

/-- What no micro-step writes (10_state.md R42): the host's registers, BUF, INIT_DONE, the host and the configuration. -/
structure MicroFrame (s t : State) : Prop where
  txw : t.txw = s.txw
  len : t.len = s.len
  buf : t.buf = s.buf
  initDone : t.status.initDone = s.status.initDone
  host : t.host = s.host
  resets : t.resets = s.resets
  config : t.config = s.config
  refused : t.refused = s.refused

theorem blockStep_frame (s : State) : MicroFrame s (blockStep s) := by
  unfold blockStep
  cases hp : s.seq.phase
  case idle => exact ⟨rfl, rfl, rfl, rfl, rfl, rfl, rfl, rfl⟩
  case poll =>
    simp only [stepPoll]
    split <;> [skip; split] <;> exact ⟨rfl, rfl, rfl, rfl, rfl, rfl, rfl, rfl⟩
  case setup => exact ⟨rfl, rfl, rfl, rfl, rfl, rfl, rfl, rfl⟩
  case low => exact ⟨rfl, rfl, rfl, rfl, rfl, rfl, rfl, rfl⟩
  case high => exact ⟨rfl, rfl, rfl, rfl, rfl, rfl, rfl, rfl⟩
  case sample =>
    simp only [stepSample]
    split <;> exact ⟨rfl, rfl, rfl, rfl, rfl, rfl, rfl, rfl⟩
  case restore => exact ⟨rfl, rfl, rfl, rfl, rfl, rfl, rfl, rfl⟩
  case done =>
    simp only [stepDone]
    split <;> exact ⟨rfl, rfl, rfl, rfl, rfl, rfl, rfl, rfl⟩
  case syncNext =>
    simp only [stepSyncNext]
    split <;> [skip; split] <;> exact ⟨rfl, rfl, rfl, rfl, rfl, rfl, rfl, rfl⟩
  case chunkNext =>
    simp only [stepChunkNext, State.emitDataWord]
    split
    · split
      · split <;> exact ⟨rfl, rfl, rfl, rfl, rfl, rfl, rfl, rfl⟩
      · exact ⟨rfl, rfl, rfl, rfl, rfl, rfl, rfl, rfl⟩
    · exact ⟨rfl, rfl, rfl, rfl, rfl, rfl, rfl, rfl⟩

theorem blockStep_params (s : State) : (blockStep s).params = s.params := by
  simp [State.params, (blockStep_frame s).config]

theorem blockRun_frame (n : Nat) (s : State) : MicroFrame s (blockRun n s) := by
  induction n generalizing s with
  | zero => exact ⟨rfl, rfl, rfl, rfl, rfl, rfl, rfl, rfl⟩
  | succ n ih =>
    have a := ih (blockStep s)
    have b := blockStep_frame s
    exact ⟨a.txw.trans b.txw, a.len.trans b.len, a.buf.trans b.buf, a.initDone.trans b.initDone, a.host.trans b.host,
      a.resets.trans b.resets, a.config.trans b.config, a.refused.trans b.refused⟩

theorem blockRun_params (n : Nat) (s : State) : (blockRun n s).params = s.params := by
  simp [State.params, (blockRun_frame n s).config]

/-- In IDLE the block has no micro-step. -/
theorem blockStep_idle (h : s.seq.phase = .idle) : blockStep s = s := by simp [blockStep, h]

theorem blockRun_idle (n : Nat) (h : s.seq.phase = .idle) : blockRun n s = s := by
  induction n with
  | zero => rfl
  | succ n ih => rw [blockRun_succ, blockStep_idle h, ih]

/-- A run that has not ended after `n` micro-steps had not ended before. -/
theorem blockRun_running {m n : Nat} (hmn : m ≤ n) (h : (blockRun n s).seq.phase ≠ .idle) :
    (blockRun m s).seq.phase ≠ .idle := by
  intro hm
  apply h
  rw [show n = m + (n - m) by omega, blockRun_add, blockRun_idle _ hm, hm]

/-- A run of any machine behind the host's interface, one step at a time. -/
theorem core_run_succ (M : Host.Core) (n : Nat) (s : M.State) :
    M.run (n + 1) s =
      match M.step s with
      | .next u => M.run n u
      | .fault r => .fault r
      | .refused r => .refused r := by
  cases h : M.step s <;> simp [Host.Core.run, h]

theorem core_run_succ_next (M : Host.Core) {n : Nat} {s u : M.State} (h : M.step s = .next u) :
    M.run (n + 1) s = M.run n u := by rw [core_run_succ, h]

/-- Runs compose. -/
theorem core_run_add (M : Host.Core) {m n : Nat} {s u : M.State} (h : M.run m s = .next u) :
    M.run (m + n) s = M.run n u := by
  induction m generalizing s with
  | zero =>
    cases h
    rw [Nat.zero_add]
  | succ m ih =>
    rw [Nat.succ_add, core_run_succ]
    rw [core_run_succ] at h
    cases hs : M.step s with
    | next v =>
      rw [hs] at h
      exact ih h
    | fault r => rw [hs] at h; cases h
    | refused r => rw [hs] at h; cases h

theorem run_succ_next {n : Nat} {u : State} (h : step s = .next u) :
    Host.Core.run Sys2Proof.core (n + 1) s = Host.Core.run Sys2Proof.core n u :=
  core_run_succ_next Sys2Proof.core h

/-- While a command runs and no reset is to come, the machine's run is the block's. -/
theorem run_block {n : Nat} (hr : s.resets = []) (h : ∀ m, m < n → (blockRun m s).seq.phase ≠ .idle) :
    Host.Core.run Sys2Proof.core n s = .next (blockRun n s) := by
  induction n generalizing s with
  | zero => rfl
  | succ n ih =>
    have hs := step_block (resetDue_of_nil hr) (h 0 (by omega))
    rw [passReset_of_nil hr] at hs
    rw [run_succ_next hs]
    exact ih ((blockStep_frame s).resets.trans hr) fun m hm => h (m + 1) (by omega)

/-- A run of micro-steps whose last one starts while the command runs. -/
theorem run_block_succ {n : Nat} (hr : s.resets = []) (h : (blockRun n s).seq.phase ≠ .idle) :
    Host.Core.run Sys2Proof.core (n + 1) s = .next (blockRun (n + 1) s) :=
  run_block hr fun _ hm => blockRun_running (by omega) h

/-- Before DONE an exchange runs. -/
theorem blockRun_toDone_phase (s : State) (tx : Word) (c : Caller) :
    (blockRun (s.pollCount + (if s.pollBound then 1 else 0) + 129) (s.xferBegin tx c)).seq.phase ≠ .idle := by
  rw [blockRun_toDone]
  simp

theorem exchangeSteps_eq (s : State) : s.exchangeSteps = s.pollCount + (if s.pollBound then 1 else 0) + 130 := rfl

theorem exchange_running (s : State) (tx : Word) (c : Caller) {m : Nat} (hm : m < s.exchangeSteps) :
    (blockRun m (s.xferBegin tx c)).seq.phase ≠ .idle :=
  blockRun_running (by rw [exchangeSteps_eq] at hm; omega) (blockRun_toDone_phase s tx c)

theorem exchangeSteps_le (s : State) : s.exchangeSteps ≤ s.params.busyPollMax + 131 := by
  have := pollSamples_le s.params.busyLevel s.peer.busyAt s.params.busyPollMax 0
  rw [exchangeSteps_eq, State.pollCount]
  split <;> omega

theorem exchangeSteps_ge (s : State) : 130 ≤ s.exchangeSteps := by rw [exchangeSteps_eq]; omega

/-- Runs of the machine compose. -/
theorem run_add {m n : Nat} {u : State} (h : Host.Core.run Sys2Proof.core m s = .next u) :
    Host.Core.run Sys2Proof.core (m + n) s = Host.Core.run Sys2Proof.core n u := core_run_add Sys2Proof.core h

end Sys2Proof.Machine
end

