-- ==== Sys2Proof/Laws/Trace.lean ====
section
/-! SUPPORT. The observations on the trace of one exchange: clock edges, the data window, the words sent, the bits a peer
latches. -/

namespace Sys2Proof.Machine

/-- The level of CLK_OUT after a trace. -/
def clkAfter : Level → List Event → Level
  | clk, [] => clk
  | _, .drive .clkOut v :: rest => clkAfter (.ofBit v) rest
  | clk, _ :: rest => clkAfter clk rest

theorem clockEdges_append (edge : Bool) (clk : Level) (a b : List Event) :
    clockEdges edge clk (a ++ b) = clockEdges edge clk a + clockEdges edge (clkAfter clk a) b := by
  induction a generalizing clk with
  | nil => simp [clockEdges, clkAfter]
  | cons e rest ih =>
    rw [List.cons_append]
    cases e with
    | drive l v => cases l <;> simp_all [clockEdges, clkAfter, Nat.add_assoc]
    | _ => simp_all [clockEdges, clkAfter]

theorem clkAfter_append (clk : Level) (a b : List Event) : clkAfter clk (a ++ b) = clkAfter (clkAfter clk a) b := by
  induction a generalizing clk with
  | nil => rfl
  | cons e rest ih =>
    rw [List.cons_append]
    cases e with
    | drive l v => cases l <;> simp_all [clkAfter]
    | _ => simp_all [clkAfter]

theorem dataAfter_append (d : Level) (a b : List Event) : dataAfter d (a ++ b) = dataAfter (dataAfter d a) b := by
  induction a generalizing d with
  | nil => rfl
  | cons e rest ih =>
    rw [List.cons_append]
    cases e with
    | drive l v => cases l <;> simp_all [dataAfter]
    | _ => simp_all [dataAfter]

theorem dataDrives_append (a b : List Event) : dataDrives (a ++ b) = dataDrives a ++ dataDrives b := by
  induction a with
  | nil => rfl
  | cons e rest ih =>
    rw [List.cons_append]
    cases e with
    | drive l v => cases l <;> simp_all [dataDrives]
    | _ => simp_all [dataDrives]

/-- DATA_OUT holds what it was last driven to. -/
theorem dataAfter_eq_last (d : Level) (tr : List Event) :
    dataAfter d tr = ((dataDrives tr).getLast?.map Level.ofBit).getD d := by
  induction tr generalizing d with
  | nil => rfl
  | cons e rest ih =>
    cases e with
    | drive l v => cases l <;> simp [dataAfter, dataDrives, ih, List.getLast?_cons]
    | _ => simp [dataAfter, dataDrives, ih]

/-- After as many drives as `c + 1`, DATA_OUT holds the bit of drive `c`. -/
theorem dataAfter_take {tr : List Event} {n c : Nat} (d : Level) (h : (dataDrives (tr.take n)).length = c + 1) :
    ∃ b, (dataDrives tr)[c]? = some b ∧ dataAfter d (tr.take n) = Level.ofBit b := by
  have hc : c < (dataDrives (tr.take n)).length := by omega
  have hsplit : dataDrives tr = dataDrives (tr.take n) ++ dataDrives (tr.drop n) := by
    rw [← dataDrives_append, List.take_append_drop]
  refine ⟨(dataDrives (tr.take n))[c], ?_, ?_⟩
  · rw [hsplit, List.getElem?_append_left hc, List.getElem?_eq_getElem hc]
  · rw [dataAfter_eq_last, List.getLast?_eq_getElem?, h, Nat.add_sub_cancel, List.getElem?_eq_getElem hc]
    rfl

/-- Every number of drives up to a trace's own is reached by some instant of it. -/
theorem exists_take_drives (tr : List Event) (c : Nat) (h : c ≤ (dataDrives tr).length) :
    ∃ n, n ≤ tr.length ∧ (dataDrives (tr.take n)).length = c := by
  induction tr generalizing c with
  | nil => exact ⟨0, le_rfl, (Nat.le_zero.mp h).symm⟩
  | cons e rest ih =>
    rcases Nat.eq_zero_or_pos c with rfl | hc
    · exact ⟨0, Nat.zero_le _, rfl⟩
    · by_cases hd : ∃ v, e = .drive .dataOut v
      · obtain ⟨v, rfl⟩ := hd
        obtain ⟨n, hn, he⟩ := ih (c - 1) (by simp [dataDrives] at h; omega)
        exact ⟨n + 1, by simpa using hn, by simp [dataDrives, he]; omega⟩
      · have hskip : ∀ l, dataDrives (e :: l) = dataDrives l := by
          intro l
          cases e with
          | drive l' v => cases l' <;> simp_all [dataDrives]
          | _ => rfl
        obtain ⟨n, hn, he⟩ := ih c (by rwa [hskip] at h)
        exact ⟨n + 1, by simpa using hn, by rw [List.take_succ_cons, hskip, he]⟩

/-- The bits one exchange drives DATA_OUT to: its word's, then the restore. -/
def exchangeDrives (w : Word) : List Bool := (List.range 32).map (wireBit w) ++ [true]

theorem exchangeDrives_get (sent : List Word) {m p : Nat} {w : Word} (hm : sent[m]? = some w) (hp : p < 32) :
    (sent.flatMap exchangeDrives)[33 * m + p]? = some (wireBit w p) := by
  induction sent generalizing m with
  | nil => simp at hm
  | cons x rest ih =>
    have hlen : (exchangeDrives x).length = 33 := by simp [exchangeDrives]
    cases m with
    | zero =>
      simp only [List.getElem?_cons_zero, Option.some.injEq] at hm
      subst hm
      rw [List.flatMap_cons, List.getElem?_append_left (by omega)]
      unfold exchangeDrives
      rw [List.getElem?_append_left (by simpa using by omega)]
      simp [hp]
    | succ m =>
      rw [List.flatMap_cons, List.getElem?_append_right (by omega), hlen,
        show 33 * (m + 1) + p - 33 = 33 * m + p by omega]
      exact ih (by simpa using hm)

theorem exchangeDrives_length (sent : List Word) : (sent.flatMap exchangeDrives).length = 33 * sent.length := by
  induction sent with
  | nil => rfl
  | cons x rest ih => simp [exchangeDrives] at ih ⊢; omega

/-- EA2 can be met: a trace of exchanges has an instant in each bit period. -/
theorem exists_latch {sent : List Word} {ev : List Event} (h : dataDrives ev = sent.flatMap exchangeDrives) {m : Nat}
    (hm : m < sent.length) : ∃ latch, latchesEachPeriod ev m latch := by
  have hall : ∀ p, ∃ n, p < 32 → n ≤ ev.length ∧ (dataDrives (ev.take n)).length = 33 * m + p + 1 := by
    intro p
    by_cases hp : p < 32
    · obtain ⟨n, hn⟩ := exists_take_drives ev (33 * m + p + 1) (by rw [h, exchangeDrives_length]; omega)
      exact ⟨n, fun _ => hn⟩
    · exact ⟨0, fun h => absurd h hp⟩
  choose f hf using hall
  exact ⟨f, hf⟩

/-- Under EA2 the word a peer receives in exchange m is the word sent there, wherever in each bit period it latches
(40_link_phy.md R111). -/
theorem peerReceives_iff {sent : List Word} {ev : List Event} (h : dataDrives ev = sent.flatMap exchangeDrives)
    {m : Nat} {tx : Word} (hm : sent[m]? = some tx) {latch : Nat → Nat} (hl : latchesEachPeriod ev m latch) (d : Level)
    (w : Word) : peerReceives d ev latch w ↔ w = tx := by
  have hbit : ∀ p, p < 32 → dataAfter d (ev.take (latch p)) = Level.ofBit (wireBit tx p) := by
    intro p hp
    obtain ⟨b, hb, he⟩ := dataAfter_take d (hl p hp).2
    have hg := exchangeDrives_get sent hm hp
    rw [← h] at hg
    rw [he, show b = wireBit tx p from Option.some.inj (hb.symm.trans hg)]
  constructor
  · intro hw
    refine BitVec.eq_of_getLsbD_eq fun k hk => ?_
    change k < 32 at hk
    have := (hw (31 - k) (show 31 - k < 32 by omega)).symm.trans (hbit (31 - k) (by omega))
    have hinj : wireBit w (31 - k) = wireBit tx (31 - k) := by
      revert this
      cases wireBit w (31 - k) <;> cases wireBit tx (31 - k) <;> simp [Level.ofBit]
    simpa [wireBit, show 31 - (31 - k) = k by omega] using hinj
  · rintro rfl
    exact hbit

theorem dataStable_append (clk d : Level) (a b : List Event) :
    dataStable clk d (a ++ b) = (dataStable clk d a && dataStable (clkAfter clk a) (dataAfter d a) b) := by
  induction a generalizing clk d with
  | nil => simp [dataStable, clkAfter, dataAfter]
  | cons e rest ih =>
    rw [List.cons_append]
    cases e with
    | drive l v => cases l <;> simp_all [dataStable, clkAfter, dataAfter, Bool.and_assoc]
    | _ => simp_all [dataStable, clkAfter, dataAfter]

theorem latchedBits_append (edge : Bool) (clk d : Level) (a b : List Event) :
    latchedBits edge clk d (a ++ b) =
      latchedBits edge clk d a ++ latchedBits edge (clkAfter clk a) (dataAfter d a) b := by
  induction a generalizing clk d with
  | nil => simp [latchedBits, clkAfter, dataAfter]
  | cons e rest ih =>
    rw [List.cons_append]
    cases e with
    | drive l v =>
      cases l
      · simp only [latchedBits, clkAfter, dataAfter, ih]
        split <;> simp
      all_goals simp [latchedBits, clkAfter, dataAfter, ih]
    | _ => simp [latchedBits, clkAfter, dataAfter, ih]

theorem dataWords_append (a b : List Event) : dataWords (a ++ b) = dataWords a ++ dataWords b := by
  induction a with
  | nil => rfl
  | cons e rest ih =>
    rw [List.cons_append]
    cases e with
    | drive l v => cases l <;> simp_all [dataWords]
    | _ => simp_all [dataWords]

theorem sentWords_append (a b : List Event) : sentWords (a ++ b) = sentWords a ++ sentWords b := by
  induction a with
  | nil => rfl
  | cons e rest ih =>
    rw [List.cons_append]
    cases e with
    | drive l v => cases l <;> simp_all [sentWords]
    | _ => simp_all [sentWords]

/-- An event that moves neither CLK_OUT nor DATA_OUT and carries no word. -/
def Event.quiet : Event → Bool
  | .sample _ _ => true
  | .busyBound => true
  | _ => false

theorem quiet_trace (tr : List Event) (h : ∀ e ∈ tr, e.quiet = true) :
    (∀ edge clk, clockEdges edge clk tr = 0) ∧ (∀ clk, clkAfter clk tr = clk) ∧ (∀ d, dataAfter d tr = d) ∧
      (∀ clk d, dataStable clk d tr = true) ∧ (∀ edge clk d, latchedBits edge clk d tr = []) ∧ dataWords tr = [] ∧
      sentWords tr = [] ∧ dataDrives tr = [] := by
  induction tr with
  | nil => simp [clockEdges, clkAfter, dataAfter, dataStable, latchedBits, dataWords, sentWords, dataDrives]
  | cons e rest ih =>
    have hr := ih fun x hx => h x (List.mem_cons_of_mem _ hx)
    have he := h e (List.mem_cons_self ..)
    cases e <;> simp_all [Event.quiet, clockEdges, clkAfter, dataAfter, dataStable, latchedBits, dataWords, sentWords,
      dataDrives]

theorem pollTrace_quiet (s : State) : ∀ e ∈ s.pollTrace, e.quiet = true := by
  intro e he
  simp only [State.pollTrace, List.mem_append, List.mem_map] at he
  rcases he with ⟨n, -, rfl⟩ | he
  · rfl
  · split at he
    · simp only [List.mem_singleton] at he
      subst he
      rfl
    · cases he

/-- The bit periods: what a run of them starting at period `p` shows. -/
theorem periods_trace (tx : Word) (f : Nat → Bool) (n : Nat) (d : Level) :
    let tr := (List.range n).flatMap (periodTrace tx f)
    clkAfter .one tr = .one ∧ dataAfter d tr = (if n = 0 then d else .ofBit (wireBit tx (n - 1))) ∧
      (∀ edge, clockEdges edge .one tr = n) ∧ dataStable .one d tr = true ∧
      (∀ edge, latchedBits edge .one d tr = (List.range n).map fun p => Level.ofBit (wireBit tx p)) ∧
      dataWords tr = [] ∧ sentWords tr = [] ∧ dataDrives tr = (List.range n).map (wireBit tx) := by
  induction n with
  | zero => simp [clockEdges, clkAfter, dataAfter, dataStable, latchedBits, dataWords, sentWords, dataDrives]
  | succ n ih =>
    obtain ⟨h1, h2, h3, h4, h5, h6, h7, h8⟩ := ih
    simp only [List.range_succ, List.flatMap_append, List.flatMap_cons, List.flatMap_nil, List.append_nil]
    refine ⟨?_, ?_, ?_, ?_, ?_, ?_, ?_, ?_⟩
    · rw [clkAfter_append, h1]; simp [periodTrace, clkAfter]
    · rw [dataAfter_append]; simp [periodTrace, dataAfter]
    · intro edge
      rw [clockEdges_append, h1, h3]
      cases edge <;> simp [periodTrace, clockEdges]
    · rw [dataStable_append, h4, h1]; simp [periodTrace, dataStable]
    · intro edge
      rw [latchedBits_append, h5, h1]
      cases edge <;> simp [periodTrace, latchedBits]
    · rw [dataWords_append, h6]; simp [periodTrace, dataWords]
    · rw [sentWords_append, h7]; simp [periodTrace, sentWords]
    · rw [dataDrives_append, h8]; simp [periodTrace, dataDrives]

/-- What the trace of one exchange shows, from both lines high (40_link_phy.md R120, R121). -/
theorem exchangeTrace_shows (s : State) (tx : Word) :
    clkAfter .one (s.exchangeTrace tx) = .one ∧ dataAfter .one (s.exchangeTrace tx) = .one ∧
      (∀ edge, clockEdges edge .one (s.exchangeTrace tx) = 32) ∧ dataStable .one .one (s.exchangeTrace tx) = true ∧
      (∀ edge, latchedBits edge .one .one (s.exchangeTrace tx) =
        (List.range 32).map fun p => Level.ofBit (wireBit tx p)) ∧
      dataWords (s.exchangeTrace tx) = [] ∧ sentWords (s.exchangeTrace tx) = [tx] ∧
      dataDrives (s.exchangeTrace tx) = exchangeDrives tx := by
  obtain ⟨q1, q2, q3, q4, q5, q6, q7, q8⟩ := quiet_trace s.pollTrace (pollTrace_quiet s)
  obtain ⟨p1, p2, p3, p4, p5, p6, p7, p8⟩ := periods_trace tx s.peer.dataAt 32 .one
  unfold State.exchangeTrace
  rw [show Config.wordBits = 32 from rfl]
  refine ⟨?_, ?_, ?_, ?_, ?_, ?_, ?_, ?_⟩
  · simp only [clkAfter]
    rw [clkAfter_append, clkAfter_append, q2, p1]
    rfl
  · simp only [dataAfter]
    rw [dataAfter_append, dataAfter_append, q3, p2]
    rfl
  · intro edge
    simp only [clockEdges]
    rw [clockEdges_append, clockEdges_append, clkAfter_append, q1, q2, p1, p3]
    cases edge <;> rfl
  · simp only [dataStable]
    rw [dataStable_append, dataStable_append, clkAfter_append, dataAfter_append, q2, q3, q4, p1, p2, p4]
    simp [dataStable]
  · intro edge
    simp only [latchedBits]
    rw [latchedBits_append, latchedBits_append, clkAfter_append, q2, q3, q5, p1, p5]
    cases edge <;> simp [latchedBits]
  · simp only [dataWords]
    rw [dataWords_append, dataWords_append, q6, p6]
    rfl
  · simp only [sentWords]
    rw [sentWords_append, sentWords_append, q7, p7]
    rfl
  · simp only [dataDrives]
    rw [dataDrives_append, dataDrives_append, q8, p8]
    rfl

end Sys2Proof.Machine
end

