-- ==== Sys2Proof/Laws/Commands.lean ====
section
/-! SUPPORT. The commands that run over several exchanges: SYNC's exchanges (42_handshake_arbiter.md R183) and SEND_CHUNK's
walk (41_framer.md R156), each as one induction over the exchanges. -/

namespace Sys2Proof.Machine

/-! ### What an exchange leaves for the next one -/

section
variable (s : State) (tx : Word) (c : Caller)
@[simp] theorem afterExchange_lines : (s.afterExchange tx c).lines = { clkOut := .one, dataOut := .one, indOut := .ofBit (wireBit tx 31) } := rfl
@[simp] theorem afterExchange_txw : (s.afterExchange tx c).txw = s.txw := rfl
@[simp] theorem afterExchange_rxw : (s.afterExchange tx c).rxw = s.peer.wordAt 0 := rfl
@[simp] theorem afterExchange_framew : (s.afterExchange tx c).framew = s.framew := rfl
@[simp] theorem afterExchange_off : (s.afterExchange tx c).off = s.off := rfl
@[simp] theorem afterExchange_len : (s.afterExchange tx c).len = s.len := rfl
@[simp] theorem afterExchange_status : (s.afterExchange tx c).status = { s.status with idleDet := isIdle (s.peer.wordAt 0) } := rfl
@[simp] theorem afterExchange_buf : (s.afterExchange tx c).buf = s.buf := rfl
@[simp] theorem afterExchange_faulted : (s.afterExchange tx c).faulted = s.faulted := rfl
@[simp] theorem afterExchange_refused : (s.afterExchange tx c).refused = s.refused := rfl
@[simp] theorem afterExchange_trace : (s.afterExchange tx c).trace = s.trace ++ s.exchangeTrace tx := rfl
@[simp] theorem afterExchange_peer : (s.afterExchange tx c).peer = s.peerAfterExchange := rfl
@[simp] theorem afterExchange_host : (s.afterExchange tx c).host = s.host := rfl
@[simp] theorem afterExchange_resets : (s.afterExchange tx c).resets = s.resets := rfl
@[simp] theorem afterExchange_config : (s.afterExchange tx c).config = s.config := rfl
@[simp] theorem afterExchange_seq : (s.afterExchange tx c).seq =
    { s.seq with
      phase := .done, shift := tx, acc := s.peer.wordAt 0, i := 31, polls := s.pollCount, caller := c } := rfl
@[simp] theorem afterExchange_params : (s.afterExchange tx c).params = s.params := rfl
end

theorem afterExchange_wordAt (s : State) (tx : Word) (c : Caller) (m : Nat) :
    (s.afterExchange tx c).peer.wordAt m = s.peer.wordAt (m + 1) := by
  change (s.peer.skip s.pollCount (32 * 1)).wordAt m = _
  rw [Peer.wordAt_skip, Nat.add_comm]

/-- The events of `n` exchanges: what they show from both lines high. -/
structure ExchangeEvents (sent : List Word) (ev : List Event) : Prop where
  clk : clkAfter .one ev = .one
  data : dataAfter .one ev = .one
  edges : ∀ edge, clockEdges edge .one ev = 32 * sent.length
  stable : dataStable .one .one ev = true
  words : sentWords ev = sent
  drives : dataDrives ev = sent.flatMap exchangeDrives
  noEnd : ∀ op, Event.cmdEnd op ∉ ev

theorem ExchangeEvents.nil : ExchangeEvents [] [] := ⟨rfl, rfl, fun _ => rfl, rfl, rfl, rfl, fun _ => List.not_mem_nil⟩

theorem exchangeTrace_noEnd (s : State) (tx : Word) (op : Opcode) : Event.cmdEnd op ∉ s.exchangeTrace tx := by
  simp only [State.exchangeTrace, List.mem_cons, List.mem_append, List.mem_flatMap, reduceCtorEq, false_or, not_or]
  refine ⟨⟨fun h => ?_, ?_⟩, by simp⟩
  · have := pollTrace_quiet s _ h
    simp [Event.quiet] at this
  · rintro ⟨p, -, hp⟩
    simp [periodTrace] at hp

theorem ExchangeEvents.one (s : State) (tx : Word) : ExchangeEvents [tx] (s.exchangeTrace tx) := by
  obtain ⟨h1, h2, h3, h4, -, -, h7, h8⟩ := exchangeTrace_shows s tx
  exact ⟨h1, h2, h3, h4, h7, by simpa using h8, exchangeTrace_noEnd s tx⟩

theorem ExchangeEvents.append {a b : List Word} {x y : List Event} (hx : ExchangeEvents a x) (hy : ExchangeEvents b y) :
    ExchangeEvents (a ++ b) (x ++ y) := by
  refine ⟨?_, ?_, fun edge => ?_, ?_, ?_, ?_, fun op => ?_⟩
  · rw [clkAfter_append, hx.clk, hy.clk]
  · rw [dataAfter_append, hx.data, hy.data]
  · rw [clockEdges_append, hx.clk, hx.edges, hy.edges, List.length_append]
    ring
  · rw [dataStable_append, hx.clk, hx.data, hx.stable, hy.stable]
    rfl
  · rw [sentWords_append, hx.words, hy.words]
  · rw [dataDrives_append, hx.drives, hy.drives, List.flatMap_append]
  · simp [hx.noEnd, hy.noEnd]

/-- Events that drive no line and begin or end nothing. -/
def Event.silent : Event → Bool
  | .drive _ _ => false
  | .xferBegin _ => false
  | .cmdEnd _ => false
  | _ => true

theorem ExchangeEvents.silent {x : List Event} (h : ∀ e ∈ x, e.silent = true) : ExchangeEvents [] x := by
  induction x with
  | nil => exact .nil
  | cons e rest ih =>
    have hr := ih fun y hy => h y (List.mem_cons_of_mem _ hy)
    have he := h e (List.mem_cons_self ..)
    obtain ⟨h1, h2, h3, h4, h5, h6, h7⟩ := hr
    cases e
    case drive => simp [Event.silent] at he
    case xferBegin => simp [Event.silent] at he
    case cmdEnd => simp [Event.silent] at he
    all_goals exact ⟨h1, h2, h3, h4, h5, h6, by simpa using h7⟩

/-! ### SYNC -/

theorem blockRun_one (s : State) : blockRun 1 s = blockStep s := rfl

/-- An exchange of SYNC followed by SYNC_NEXT's own step. -/
theorem blockRun_syncRound (s : State) :
    blockRun (s.exchangeSteps + 1) (s.xferBegin Config.sentinel .sync) =
      stepSyncNext ((s.afterExchange Config.sentinel .sync).goto .syncNext) := by
  rw [blockRun_add, blockRun_exchange, blockRun_one]
  exact blockStep_syncNext rfl

theorem stepSyncNext_again {t : State} (h : isIdle t.rxw = false)
    (hl : syncExpired t.params.syncLimit (t.seq.tries + 1) = false) :
    stepSyncNext t = { t with seq := { t.seq with tries := t.seq.tries + 1 } }.xferBegin Config.sentinel .sync := by
  simp [stepSyncNext, h, hl]

/-- What `n` exchanges of SYNC that returned no sentinel, none of them at the bound, lead to: the start of the next. -/
structure SyncReached (s w : State) (n k : Nat) : Prop where
  run : blockRun k (s.xferBegin Config.sentinel .sync) = w.xferBegin Config.sentinel .sync
  running : (blockRun k (s.xferBegin Config.sentinel .sync)).seq.phase ≠ .idle
  atLeast : 131 * n ≤ k
  atMost : k ≤ n * (s.params.busyPollMax + 132)
  params : w.params = s.params
  tries : w.seq.tries = s.seq.tries + n
  cmd : w.seq.cmd = s.seq.cmd
  index : w.seq.j = s.seq.j
  words : ∀ m, w.peer.wordAt m = s.peer.wordAt (n + m)
  status : ∃ d, w.status = { s.status with idleDet := d }
  regs : w.framew = s.framew ∧ w.off = s.off ∧ w.faulted = s.faulted
  frame : MicroFrame s w
  events : ∃ ev, w.trace = s.trace ++ ev ∧ ExchangeEvents (List.replicate n Config.sentinel) ev

theorem sync_reached (n : Nat) (s : State) (hne : ∀ m, m < n → s.peer.wordAt m ≠ Config.sentinel)
    (hl : ∀ m, m < n → syncExpired s.params.syncLimit (s.seq.tries + m + 1) = false) :
    ∃ w k, SyncReached s w n k := by
  induction n generalizing s with
  | zero =>
    exact ⟨s, 0, rfl, by simp, by omega, by omega, rfl, rfl, rfl, rfl, by simp, ⟨s.status.idleDet, rfl⟩, ⟨rfl, rfl, rfl⟩,
      ⟨rfl, rfl, rfl, rfl, rfl, rfl, rfl, rfl⟩, ⟨[], by simp, .nil⟩⟩
  | succ n ih =>
    set t := (s.afterExchange Config.sentinel .sync).goto .syncNext with ht
    set u : State := { t with seq := { t.seq with tries := t.seq.tries + 1 } } with hu
    have hidle : isIdle t.rxw = false := by simpa [isIdle, ht, State.afterExchange] using hne 0 (by omega)
    have hround : blockRun (s.exchangeSteps + 1) (s.xferBegin Config.sentinel .sync) = u.xferBegin Config.sentinel .sync := by
      rw [blockRun_syncRound, ← ht, stepSyncNext_again hidle (hl 0 (by omega))]
    have hwords : ∀ m, u.peer.wordAt m = s.peer.wordAt (m + 1) := fun m => afterExchange_wordAt s Config.sentinel .sync m
    obtain ⟨w, k, hw⟩ := ih u (fun m hm => by rw [hwords]; exact hne _ (by omega))
      (fun m hm => by
        have := hl (m + 1) (by omega)
        rwa [show s.seq.tries + (m + 1) + 1 = s.seq.tries + 1 + m + 1 by omega] at this)
    have hrun : blockRun (s.exchangeSteps + 1 + k) (s.xferBegin Config.sentinel .sync) =
        w.xferBegin Config.sentinel .sync := by rw [blockRun_add, hround, hw.run]
    have hle := exchangeSteps_le s
    have hge := exchangeSteps_ge s
    have hmost := hw.atMost
    rw [show u.params = s.params from rfl] at hmost
    refine ⟨w, s.exchangeSteps + 1 + k, hrun, by rw [hrun]; simp, by have := hw.atLeast; omega, by rw [Nat.succ_mul]; omega,
      hw.params, ?_, hw.cmd, hw.index, fun m => ?_, ?_, hw.regs, ?_, ?_⟩
    · have := hw.tries
      rw [this, show u.seq.tries = s.seq.tries + 1 from rfl]
      omega
    · rw [hw.words, hwords]
      congr 1
      omega
    · obtain ⟨d, hd⟩ := hw.status
      exact ⟨d, by rw [hd]; rfl⟩
    · obtain ⟨a, b, c, d, e, f, g, h⟩ := hw.frame
      exact ⟨a, b, c, d, e, f, g, h⟩
    · obtain ⟨ev, hev, hx⟩ := hw.events
      refine ⟨s.exchangeTrace Config.sentinel ++ ev, ?_, ?_⟩
      · rw [hev, show u.trace = s.trace ++ s.exchangeTrace Config.sentinel from rfl, List.append_assoc]
      · exact (ExchangeEvents.one s Config.sentinel).append hx

/-! ### SEND_CHUNK -/

theorem chunkCount_eq (len : Nat) : chunkCount len = (len + 3) / 4 := rfl

theorem chunkWord_eq (buf : Memory) (len j : Nat) :
    chunkWord buf len j = pack [chunkByte buf len (4 * j), chunkByte buf len (4 * j + 1), chunkByte buf len (4 * j + 2),
      chunkByte buf len (4 * j + 3)] := rfl

theorem frameByte_chunk {buf : Memory} {len q : Nat} (h : q < len → (Memory.read buf q).isSome) :
    frameByte buf len q = .ok (chunkByte buf len q) := by
  unfold frameByte chunkByte
  split
  · rename_i hq
    obtain ⟨b, hb⟩ := Option.isSome_iff_exists.mp (h hq)
    simp [hb]
  · rfl

theorem frameWord_bytes {buf : Memory} {len off : Nat}
    (h : ∀ q, off ≤ q → q < off + 4 → q < len → (Memory.read buf q).isSome) :
    frameWord buf off len = .ok (pack [chunkByte buf len off, chunkByte buf len (off + 1), chunkByte buf len (off + 2),
      chunkByte buf len (off + 3)]) :=
  frameWord_of_bytes (frameByte_chunk (h _ (by omega) (by omega))) (frameByte_chunk (h _ (by omega) (by omega)))
    (frameByte_chunk (h _ (by omega) (by omega))) (frameByte_chunk (h _ (by omega) (by omega)))

theorem frameWord_chunk {buf : Memory} {len : Nat} (h : chunkWritten buf len) (j : Nat) :
    frameWord buf (4 * j) len = .ok (chunkWord buf len j) := frameWord_bytes fun q _ _ hq => h q hq

/-- The state in which CHUNK_NEXT starts the exchange of word `w`. -/
def chunkStart (s : State) (w : Word) : State :=
  let t := ({ s with off := BitVec.ofNat 7 (4 * s.seq.j), framew := w } : State).emitDataWord w
  { t with seq := { t.seq with j := t.seq.j + 1 } }

theorem emitDataWord_events (s : State) (w : Word) :
    ∃ ev, s.emitDataWord w = { s with trace := s.trace ++ ev } ∧ dataWords ev = [w] ∧ ExchangeEvents [] ev := by
  unfold State.emitDataWord
  split
  · exact ⟨[.dataWord w, .collision w], by simp [State.emit], rfl, .silent (by simp [Event.silent])⟩
  · exact ⟨[.dataWord w], by simp [State.emit], rfl, .silent (by simp [Event.silent])⟩

theorem stepChunkNext_word {s : State} (hj : 4 * s.seq.j < s.len.toNat) (hlen : s.len.toNat ≤ 64)
    (h : ∀ q, q < 4 * s.seq.j + 4 → q < s.len.toNat → (Memory.read s.buf q).isSome) :
    stepChunkNext s = (chunkStart s (chunkWord s.buf s.len.toNat s.seq.j)).xferBegin
      (chunkWord s.buf s.len.toNat s.seq.j) .sendChunk := by
  have hmod : 4 * s.seq.j % 2 ^ 7 = 4 * s.seq.j := Nat.mod_eq_of_lt (by omega)
  simp only [stepChunkNext, Config.stride, hj, if_true, BitVec.toNat_ofNat, hmod,
    frameWord_bytes fun q _ h4 hq => h q h4 hq]
  rfl

theorem stepChunkNext_end {s : State} (hj : s.len.toNat ≤ 4 * s.seq.j) :
    stepChunkNext s = ({ s with off := BitVec.ofNat 7 (4 * s.seq.j) } : State).endCommand .sendChunk := by
  simp [stepChunkNext, Config.stride, Nat.not_lt.mpr hj]

/-- What `n` words of SEND_CHUNK's walk lead to: CHUNK_NEXT again. -/
structure ChunkReached (s w : State) (n k : Nat) : Prop where
  run : blockRun k s = w
  atMost : k ≤ n * (s.params.busyPollMax + 132)
  phase : w.seq.phase = .chunkNext
  params : w.params = s.params
  index : w.seq.j = s.seq.j + n
  tries : w.seq.tries = s.seq.tries
  cmd : w.seq.cmd = s.seq.cmd
  words : ∀ m, w.peer.wordAt m = s.peer.wordAt (n + m)
  status : ∃ d, w.status = { s.status with idleDet := d }
  faulted : w.faulted = s.faulted
  framew : w.framew = if n = 0 then s.framew else chunkWord s.buf s.len.toNat (s.seq.j + n - 1)
  rxw : w.rxw = if n = 0 then s.rxw else s.peer.wordAt (n - 1)
  lines : w.lines = if n = 0 then s.lines else
    { clkOut := .one, dataOut := .one
      indOut := .ofBit (wireBit (chunkWord s.buf s.len.toNat (s.seq.j + n - 1)) 31) }
  idleDet : n ≠ 0 → w.status.idleDet = isIdle w.rxw
  untouched : n = 0 → w = s
  frame : MicroFrame s w
  events : ∃ ev, w.trace = s.trace ++ ev ∧
    dataWords ev = (List.range n).map (fun m => chunkWord s.buf s.len.toNat (s.seq.j + m)) ∧
    ExchangeEvents ((List.range n).map fun m => chunkWord s.buf s.len.toNat (s.seq.j + m)) ev

theorem chunk_reached (n : Nat) (s : State) (hp : s.seq.phase = .chunkNext)
    (hn : n = 0 ∨ 4 * (s.seq.j + n - 1) < s.len.toNat) (hlen : s.len.toNat ≤ 64)
    (h : ∀ q, q < 4 * (s.seq.j + n) → q < s.len.toNat → (Memory.read s.buf q).isSome) : ∃ w k, ChunkReached s w n k := by
  induction n with
  | zero =>
    exact ⟨s, 0, rfl, by omega, hp, rfl, rfl, rfl, rfl, by simp, ⟨s.status.idleDet, rfl⟩, rfl, by simp, by simp, by simp,
      by simp, by simp, ⟨rfl, rfl, rfl, rfl, rfl, rfl, rfl, rfl⟩, ⟨[], by simp, by simp [dataWords], .nil⟩⟩
  | succ n ih =>
    have hj : 4 * (s.seq.j + n) < s.len.toNat := by omega
    obtain ⟨w, k, hw⟩ := ih (by omega) (fun q hq => h q (by omega))
    have hwlen : w.len = s.len := hw.frame.len
    have hwbuf : w.buf = s.buf := hw.frame.buf
    set x := chunkWord s.buf s.len.toNat (s.seq.j + n) with hx
    have hstep : stepChunkNext w = (chunkStart w x).xferBegin x .sendChunk := by
      have := stepChunkNext_word (s := w) (by rw [hw.index, hwlen]; exact hj) (by rw [hwlen]; exact hlen)
        (by rw [hwbuf, hwlen, hw.index]; exact fun q hq => h q (by omega))
      rwa [hwbuf, hwlen, hw.index] at this
    set u := chunkStart w x with hu
    obtain ⟨ev1, hev1, hd1, hx1⟩ :=
      emitDataWord_events ({ w with off := BitVec.ofNat 7 (4 * w.seq.j), framew := x } : State) x
    have hu' : u = { w with
        off := BitVec.ofNat 7 (4 * w.seq.j), framew := x, trace := w.trace ++ ev1,
        seq := { w.seq with j := w.seq.j + 1 } } := by
      rw [hu, chunkStart, hev1]
    have hround : blockRun (k + (1 + u.exchangeSteps)) s = (u.afterExchange x .sendChunk).goto .chunkNext := by
      rw [blockRun_add, hw.run, blockRun_add, blockRun_one, blockStep_chunkNext hw.phase, hstep, blockRun_exchange]
      rfl
    have hup : u.params = s.params := by rw [hu', ← hw.params]; rfl
    have hupeer : u.peer = w.peer := by rw [hu']
    have hle := exchangeSteps_le u
    rw [hup] at hle
    have hmost := hw.atMost
    refine ⟨_, k + (1 + u.exchangeSteps), hround, by rw [Nat.succ_mul]; omega, rfl, ?_, ?_, ?_, ?_, fun m => ?_, ?_,
      ?_, ?_, ?_, ?_, ?_, ?_, ?_, ?_⟩
    · rw [goto_params, afterExchange_params, hup]
    · change u.seq.j = _
      rw [hu']
      change w.seq.j + 1 = _
      rw [hw.index]
      omega
    · change u.seq.tries = _
      rw [hu']
      exact hw.tries
    · change u.seq.cmd = _
      rw [hu']
      exact hw.cmd
    · rw [goto_peer, afterExchange_wordAt, hupeer, hw.words]
      congr 1
      omega
    · obtain ⟨d, hd⟩ := hw.status
      refine ⟨isIdle (u.peer.wordAt 0), ?_⟩
      rw [goto_status, afterExchange_status, show u.status = w.status by rw [hu'], hd]
    · change u.faulted = _
      rw [hu']
      exact hw.faulted
    · change u.framew = _
      rw [hu']
      simp [hx]
    · change u.peer.wordAt 0 = _
      rw [hupeer, hw.words]
      simp
    · simp [hx]
    · intro _
      rfl
    · simp
    · have := blockRun_frame (k + (1 + u.exchangeSteps)) s
      rwa [hround] at this
    · obtain ⟨ev, hev, hd, hxe⟩ := hw.events
      refine ⟨ev ++ ev1 ++ u.exchangeTrace x, ?_, ?_, ?_⟩
      · change u.trace ++ u.exchangeTrace x = _
        rw [show u.trace = w.trace ++ ev1 by rw [hu'], hev]
        simp [List.append_assoc]
      · rw [dataWords_append, dataWords_append, hd, hd1, (exchangeTrace_shows u x).2.2.2.2.2.1, List.range_succ]
        simp [hx]
      · have := (hxe.append hx1).append (ExchangeEvents.one u x)
        rw [List.range_succ, List.map_append]
        simpa using this

end Sys2Proof.Machine
end

