-- ==== Sys2Proof/Laws/Micro.lean ====
section
/-! SUPPORT. The micro-steps with branches, each by the cases of its rule and each case as one record, and what a micro-step
that does not end the command keeps. -/

namespace Sys2Proof.Machine

/-- POLL (40_link_phy.md R113): the bound, a poll that sees "busy", or one that does not. -/
theorem stepPoll_cases (s : State) :
    (s.seq.polls = s.params.busyPollMax ∧
      stepPoll s = { s with
        trace := s.trace ++ [.busyBound]
        seq := { s.seq with phase := .setup, i := 0 } }) ∨
    (s.seq.polls ≠ s.params.busyPollMax ∧ s.peer.busyAt 0 = s.params.busyLevel ∧
      stepPoll s = { s with
        trace := s.trace ++ [.sample .busyIn (s.peer.busyAt 0)]
        peer := s.peer.advance .busyIn
        seq := { s.seq with polls := s.seq.polls + 1, phase := .poll } }) ∨
    (s.seq.polls ≠ s.params.busyPollMax ∧ s.peer.busyAt 0 ≠ s.params.busyLevel ∧
      stepPoll s = { s with
        trace := s.trace ++ [.sample .busyIn (s.peer.busyAt 0)]
        peer := s.peer.advance .busyIn
        seq := { s.seq with polls := s.seq.polls + 1, phase := .setup, i := 0 } }) := by
  unfold stepPoll
  by_cases h : s.seq.polls = s.params.busyPollMax
  · exact .inl ⟨h, by rw [if_pos h]; rfl⟩
  · by_cases hb : s.sampled .busyIn = s.params.busyLevel
    · exact .inr (.inl ⟨h, hb, by rw [if_neg h, if_pos hb]; rfl⟩)
    · exact .inr (.inr ⟨h, hb, by rw [if_neg h, if_neg hb]; rfl⟩)

/-- SAMPLE (40_link_phy.md R117): the next bit period, or RESTORE after the last. -/
theorem stepSample_cases (s : State) :
    (s.seq.i.toNat < 31 ∧
      stepSample s = { s with
        trace := s.trace ++ [.sample .dataIn (s.peer.dataAt 0)]
        peer := s.peer.advance .dataIn
        seq := { s.seq with
          acc := accumulate s.seq.acc s.seq.i.toNat (s.peer.dataAt 0), i := s.seq.i + 1, phase := .setup } }) ∨
    (s.seq.i = 31 ∧
      stepSample s = { s with
        trace := s.trace ++ [.sample .dataIn (s.peer.dataAt 0)]
        peer := s.peer.advance .dataIn
        seq := { s.seq with acc := accumulate s.seq.acc s.seq.i.toNat (s.peer.dataAt 0), phase := .restore } }) := by
  unfold stepSample
  by_cases h : s.seq.i.toNat < Config.wordBits - 1
  · exact .inl ⟨h, by rw [if_pos h]; rfl⟩
  · refine .inr ⟨?_, by rw [if_neg h]; rfl⟩
    apply BitVec.eq_of_toNat_eq
    have := s.index_lt
    change ¬s.seq.i.toNat < 31 at h
    change s.seq.i.toNat = 31
    omega

/-- DONE (40_link_phy.md R119), by the caller. -/
theorem stepDone_cases (s : State) :
    (s.seq.caller = .exchange ∧
      stepDone s = { s with
        rxw := s.seq.acc
        status := { s.status with idleDet := isIdle s.seq.acc, active := false }
        trace := s.trace ++ [.xferEnd s.seq.acc, .cmdEnd .exchange]
        seq := { s.seq with phase := .idle, cmd := none } }) ∨
    (s.seq.caller = .sync ∧
      stepDone s = { s with
        rxw := s.seq.acc
        status := { s.status with idleDet := isIdle s.seq.acc }
        trace := s.trace ++ [.xferEnd s.seq.acc]
        seq := { s.seq with phase := .syncNext } }) ∨
    (s.seq.caller = .sendChunk ∧
      stepDone s = { s with
        rxw := s.seq.acc
        status := { s.status with idleDet := isIdle s.seq.acc }
        trace := s.trace ++ [.xferEnd s.seq.acc]
        seq := { s.seq with phase := .chunkNext } }) := by
  unfold stepDone
  cases h : s.seq.caller
  · exact .inl ⟨rfl, by simp [State.emit, State.endCommand]⟩
  · exact .inr (.inl ⟨rfl, by simp [State.emit, State.goto]⟩)
  · exact .inr (.inr ⟨rfl, by simp [State.emit, State.goto]⟩)

/-- SYNC_NEXT (42_handshake_arbiter.md R183): the rendezvous, the bound, or the next exchange. -/
theorem stepSyncNext_cases (s : State) :
    (isIdle s.rxw = true ∧
      stepSyncNext s = { s with
        status := { s.status with active := false, synced := true, arb := .streaming, peerUnresp := false }
        trace := s.trace ++ [.rendezvous (s.seq.tries + 1), .cmdEnd .sync]
        seq := { s.seq with phase := .idle, cmd := none, tries := s.seq.tries + 1 } }) ∨
    (isIdle s.rxw = false ∧ syncExpired s.params.syncLimit (s.seq.tries + 1) = true ∧
      stepSyncNext s = { s with
        status := { s.status with active := false, synced := false, arb := .cooldown, peerUnresp := true }
        trace := s.trace ++ [.syncTimeout (s.seq.tries + 1), .cmdEnd .sync]
        seq := { s.seq with phase := .idle, cmd := none, tries := s.seq.tries + 1 } }) ∨
    (isIdle s.rxw = false ∧ syncExpired s.params.syncLimit (s.seq.tries + 1) = false ∧
      stepSyncNext s = { s with
        trace := s.trace ++ [.xferBegin Config.sentinel]
        seq := { s.seq with
          tries := s.seq.tries + 1, shift := Config.sentinel, acc := 0, polls := 0, i := 0, caller := .sync
          phase := .poll } }) := by
  unfold stepSyncNext
  cases hi : isIdle s.rxw
  · cases hl : syncExpired s.params.syncLimit (s.seq.tries + 1)
    · refine .inr (.inr ⟨rfl, rfl, ?_⟩)
      simp [hl, State.xferBegin]
    · refine .inr (.inl ⟨rfl, rfl, ?_⟩)
      simp [hl, State.emit, State.endCommand]
  · refine .inl ⟨rfl, ?_⟩
    simp [State.emit, State.endCommand]

/-- The bound of SYNC is reached only where there is one (42_handshake_arbiter.md R185, R186). -/
theorem syncExpired_limit {limit : Option Nat} {tries : Nat} (h : syncExpired limit tries = true) : limit ≠ none := by
  rintro rfl
  cases h

/-- CHUNK_NEXT (41_framer.md R156): the end of the walk, the next word, or the fault of an unwritten byte. -/
theorem stepChunkNext_cases (s : State) :
    (s.len.toNat ≤ 4 * s.seq.j ∧
      stepChunkNext s = { s with
        off := BitVec.ofNat 7 (4 * s.seq.j)
        status := { s.status with active := false }
        trace := s.trace ++ [.cmdEnd .sendChunk]
        seq := { s.seq with phase := .idle, cmd := none } }) ∨
    (∃ w, 4 * s.seq.j < s.len.toNat ∧ frameWord s.buf (4 * s.seq.j) s.len.toNat = .ok w ∧
      stepChunkNext s = { s with
        off := BitVec.ofNat 7 (4 * s.seq.j)
        framew := w
        trace := s.trace ++ .dataWord w :: (if w = Config.sentinel then [.collision w] else []) ++ [.xferBegin w]
        seq := { s.seq with
          j := s.seq.j + 1, shift := w, acc := 0, polls := 0, i := 0, caller := .sendChunk, phase := .poll } }) ∨
    (∃ r, 4 * s.seq.j < s.len.toNat ∧ frameWord s.buf (4 * s.seq.j) s.len.toNat = .error r ∧
      stepChunkNext s = { s with
        off := BitVec.ofNat 7 (4 * s.seq.j)
        faulted := s.faulted ++ [r]
        status := { s.status with active := false }
        seq := { s.seq with phase := .idle, cmd := none } }) := by
  unfold stepChunkNext
  by_cases hj : 4 * s.seq.j < s.len.toNat
  · have hmod : 4 * s.seq.j % 2 ^ 7 = 4 * s.seq.j := Nat.mod_eq_of_lt (by have := s.len_lt; omega)
    cases hw : frameWord s.buf (4 * s.seq.j) s.len.toNat with
    | ok w =>
      refine .inr (.inl ⟨w, hj, rfl, ?_⟩)
      simp only [Config.stride, BitVec.toNat_ofNat, hmod, if_pos hj, hw, State.emitDataWord]
      split
      · simp [State.emit, State.xferBegin]
      · simp [State.emit, State.xferBegin]
    | error r =>
      refine .inr (.inr ⟨r, hj, rfl, ?_⟩)
      simp only [Config.stride, BitVec.toNat_ofNat, hmod, if_pos hj, hw]
      rfl
  · refine .inl ⟨by omega, ?_⟩
    exact if_neg (show ¬Config.stride * s.seq.j < s.len.toNat from hj)

/-- A micro-step that does not end the command keeps the command and the session. -/
theorem blockStep_session (s : State) (h : (blockStep s).seq.phase ≠ .idle) :
    (blockStep s).seq.cmd = s.seq.cmd ∧ (blockStep s).status.arb = s.status.arb ∧
      (blockStep s).status.synced = s.status.synced := by
  unfold blockStep at h ⊢
  cases hp : s.seq.phase <;> simp only [hp] at h ⊢
  case idle => exact ⟨trivial, trivial, trivial⟩
  case poll => rcases stepPoll_cases s with ⟨-, e⟩ | ⟨-, -, e⟩ | ⟨-, -, e⟩ <;> rw [e] <;> exact ⟨rfl, rfl, rfl⟩
  case sample => rcases stepSample_cases s with ⟨-, e⟩ | ⟨-, e⟩ <;> rw [e] <;> exact ⟨rfl, rfl, rfl⟩
  case done =>
    rcases stepDone_cases s with ⟨-, e⟩ | ⟨-, e⟩ | ⟨-, e⟩ <;> rw [e] at h ⊢
    · exact absurd rfl h
    all_goals exact ⟨rfl, rfl, rfl⟩
  case syncNext =>
    rcases stepSyncNext_cases s with ⟨-, e⟩ | ⟨-, -, e⟩ | ⟨-, -, e⟩ <;> rw [e] at h ⊢
    · exact absurd rfl h
    · exact absurd rfl h
    · exact ⟨rfl, rfl, rfl⟩
  case chunkNext =>
    rcases stepChunkNext_cases s with ⟨-, e⟩ | ⟨w, -, -, e⟩ | ⟨r, -, -, e⟩ <;> rw [e] at h ⊢
    · exact absurd rfl h
    · exact ⟨rfl, rfl, rfl⟩
    · exact absurd rfl h
  all_goals exact ⟨rfl, rfl, rfl⟩

/-- A run of micro-steps that does not end the command keeps the command and the session. -/
theorem blockRun_session (n : Nat) (s : State) (h : (blockRun n s).seq.phase ≠ .idle) :
    (blockRun n s).seq.cmd = s.seq.cmd ∧ (blockRun n s).status.arb = s.status.arb ∧
      (blockRun n s).status.synced = s.status.synced := by
  induction n generalizing s with
  | zero => exact ⟨rfl, rfl, rfl⟩
  | succ n ih =>
    have a := ih (blockStep s) h
    have b := blockStep_session s (blockRun_running (m := 1) (n := n + 1) (by omega) h)
    exact ⟨a.1.trans b.1, a.2.1.trans b.2.1, a.2.2.trans b.2.2⟩

end Sys2Proof.Machine
end

