-- ==== Sys2Proof/Laws/PerInstr.lean ====
section
/-! SUPPORT. Per-instruction lemmas: the unit of every well-formed instruction keeps the format rules of the spec. -/

namespace Sys2Proof.Laws

/-- A command's word has OP in 1 to 8 and a zero reserved field (30_encoding.md R85, R86). -/
theorem commandFormat (op : Opcode) : cmdReserved op.word = 0 ∧ 1 ≤ cmdOp op.word ∧ cmdOp op.word ≤ 8 := by
  cases op <;> decide

/-- A descriptor whose address, width and data keep the format. -/
theorem busFormat (isWrite isWord : Bool) (a : BitVec 8) (v : Word) (h1 : addressReserved a.toNat = false)
    (h2 : widthAdmitted a.toNat isWord = true) (h3 : isWrite = false → v = 0) :
    addressReserved (busAddress (busDesc isWrite isWord a)) = false ∧
      widthAdmitted (busAddress (busDesc isWrite isWord a)) (busIsWord (busDesc isWrite isWord a)) = true ∧
      (busIsWrite (busDesc isWrite isWord a) = false → v = 0) := by
  obtain ⟨e1, e2, e3⟩ := desc_fields isWrite isWord a
  rw [e1, e2, e3]
  exact ⟨h1, h2, h3⟩

/-- The address of a BUF byte is mapped and takes 8-bit accesses (20_memory.md R66, R67). -/
theorem bufferAddress {k : Nat} (h : k < Config.bufSize) :
    addressReserved (BitVec.ofNat 8 (0x40 + k)).toNat = false ∧
      widthAdmitted (BitVec.ofNat 8 (0x40 + k)).toNat false = true := by
  have hk : k < 64 := h
  have e : (BitVec.ofNat 8 (0x40 + k)).toNat = 0x40 + k := by
    rw [BitVec.toNat_ofNat]
    omega
  rw [e]
  refine ⟨?_, ?_⟩
  · simp [addressReserved]
    omega
  · rw [widthAdmitted, if_neg (by omega)]
    rfl

end Sys2Proof.Laws

/-- A command word is unreserved (30_encoding.md R85, R87); an access names a mapped address with an admitted width
(20_memory.md R67, R69), and a read carries no data. -/
def Sys2Proof.Laws.EncodeFormat.Statement (i : Sys2Proof.Instr) : Prop :=
  i.wellFormed = true →
    match Sys2Proof.encode i with
    | .cmd v => Sys2Proof.cmdReserved v = 0 ∧ 1 ≤ Sys2Proof.cmdOp v ∧ Sys2Proof.cmdOp v ≤ 8
    | .bus d v =>
      Sys2Proof.addressReserved (Sys2Proof.busAddress d) = false ∧
        Sys2Proof.widthAdmitted (Sys2Proof.busAddress d) (Sys2Proof.busIsWord d) = true ∧
        (Sys2Proof.busIsWrite d = false → v = 0)

namespace Sys2Proof.Laws

theorem EncodeFormat.init : EncodeFormat.Statement .init := fun _ => commandFormat .init
theorem EncodeFormat.exchange : EncodeFormat.Statement .exchange := fun _ => commandFormat .exchange
theorem EncodeFormat.encode : EncodeFormat.Statement .encode := fun _ => commandFormat .encode
theorem EncodeFormat.sendChunk : EncodeFormat.Statement .sendChunk := fun _ => commandFormat .sendChunk
theorem EncodeFormat.connected : EncodeFormat.Statement .connected := fun _ => commandFormat .connected
theorem EncodeFormat.sync : EncodeFormat.Statement .sync := fun _ => commandFormat .sync
theorem EncodeFormat.close : EncodeFormat.Statement .close := fun _ => commandFormat .close
theorem EncodeFormat.cooldownDone : EncodeFormat.Statement .cooldownDone := fun _ => commandFormat .cooldownDone
theorem EncodeFormat.wrCmd (v : Word) : EncodeFormat.Statement (.wrCmd v) := fun _ => busFormat true true 0x00 v (by decide) (by decide) (by simp)
theorem EncodeFormat.rdStatus : EncodeFormat.Statement .rdStatus := fun _ => busFormat false true 0x04 0 (by decide) (by decide) (by simp)
theorem EncodeFormat.rdTxw : EncodeFormat.Statement .rdTxw := fun _ => busFormat false true 0x08 0 (by decide) (by decide) (by simp)
theorem EncodeFormat.wrTxw (v : Word) : EncodeFormat.Statement (.wrTxw v) := fun _ => busFormat true true 0x08 v (by decide) (by decide) (by simp)
theorem EncodeFormat.rdRxw : EncodeFormat.Statement .rdRxw := fun _ => busFormat false true 0x0C 0 (by decide) (by decide) (by simp)
theorem EncodeFormat.rdFramew : EncodeFormat.Statement .rdFramew := fun _ => busFormat false true 0x10 0 (by decide) (by decide) (by simp)
theorem EncodeFormat.rdOff : EncodeFormat.Statement .rdOff := fun _ => busFormat false true 0x14 0 (by decide) (by decide) (by simp)
theorem EncodeFormat.wrOff (v : Word) : EncodeFormat.Statement (.wrOff v) := fun _ => busFormat true true 0x14 v (by decide) (by decide) (by simp)
theorem EncodeFormat.rdLen : EncodeFormat.Statement .rdLen := fun _ => busFormat false true 0x18 0 (by decide) (by decide) (by simp)
theorem EncodeFormat.wrLen (v : Word) : EncodeFormat.Statement (.wrLen v) := fun _ => busFormat true true 0x18 v (by decide) (by decide) (by simp)
theorem EncodeFormat.wrbBuf (k : Nat) (v : Byte) : EncodeFormat.Statement (.wrbBuf k v) := fun h =>
  have hk := bufferAddress (of_decide_eq_true h)
  busFormat true false _ _ hk.1 hk.2 (by simp)
theorem EncodeFormat.rdbBuf (k : Nat) : EncodeFormat.Statement (.rdbBuf k) := fun h =>
  have hk := bufferAddress (of_decide_eq_true h)
  busFormat false false _ _ hk.1 hk.2 (by simp)

end Sys2Proof.Laws
end

