-- ==== Sys2Proof/Tests/Slice0.lean ====
section
/-! SUPPORT. Tests.  Expected values come from 95_test_vectors.md (the vectors V40 to V43 are named) or are worked out by
hand from the rules.  Each test is one step on a small state.  `test_witness_X` shows a state and operands that meet the
hypotheses of the obligation X, clause by clause. -/

namespace Sys2Proof.Tests

open Sys2Proof.Machine

/-! ### Small states -/

/-- Parameters with a fixed bound for SYNC. -/
def params (syncLimit : Option Nat) : Config.Params :=
  { busyLevel := true, busyPollMax := 3, syncLimit := syncLimit, tLowMin := 0, tHighMin := 0, tSettle := 0
    pinMap := { clkOut := 0, dataOut := 1, dataIn := 2, busyIn := 3 } }

/-- After INIT, in a given arbiter state. -/
def idleIn (arb : ArbState) : State :=
  { State.reset with
    lines := { clkOut := .one, dataOut := .one, indOut := .x }
    status := { State.reset.status with initDone := true, arb := arb, synced := decide (arb = .streaming) }
    config := some (params none) }

/-- A command runs at a given phase. -/
def running (phase : Phase) (op : Opcode) (caller : Caller) (arb : ArbState) : State :=
  { idleIn arb with
    status := { (idleIn arb).status with active := true }
    seq := { State.reset.seq with phase := phase, cmd := some op, caller := caller } }

/-- The host's next statement is given. -/
def withProgram (s : State) (program : List HostStmt) : State := { s with host := { s.host with program := program } }

/-- The state an outcome goes on with. -/
def next? : Host.Outcome State Fault Refusal → Option State
  | .next t => some t
  | .fault _ => none
  | .refused _ => none

/-- The samples of one exchange that receives a word (40_link_phy.md R123). -/
def samplesOf (w : Word) : List Bool := (List.range 32).map (wireBit w)

/-- The bytes of V41-1 to V41-6. -/
def abcde : Memory := [(0, 0x41), (1, 0x42), (2, 0x43), (3, 0x44), (4, 0x45)]

/-! ### WellFormed refuses ill-formed terms (43_control.md R223, R224: k in 0 to 63) -/

theorem test_wellFormed_wrbBuf_64 : (Instr.wrbBuf 64 0x00).wellFormed = false := by decide
theorem test_wellFormed_rdbBuf_64 : (Instr.rdbBuf 64).wellFormed = false := by decide
theorem test_wellFormed_wrbBuf_63 : (Instr.wrbBuf 63 0x00).wellFormed = true := by decide
theorem test_wellFormed_rdbBuf_0 : (Instr.rdbBuf 0).wellFormed = true := by decide

/-! ### Decoding: the words of 30_encoding.md R86 and the descriptors of R88, W at bit 9, S at bit 8, A in bits 7 to 0 -/

theorem test_decode_init : decode (.cmd 0b00000000000000000000000000000001) = .ok .init := by decide
theorem test_decode_exchange : decode (.cmd 0b00000000000000000000000000000010) = .ok .exchange := by decide
theorem test_decode_encode : decode (.cmd 0b00000000000000000000000000000011) = .ok .encode := by decide
theorem test_decode_sendChunk : decode (.cmd 0b00000000000000000000000000000100) = .ok .sendChunk := by decide
theorem test_decode_connected : decode (.cmd 0b00000000000000000000000000000101) = .ok .connected := by decide
theorem test_decode_sync : decode (.cmd 0b00000000000000000000000000000110) = .ok .sync := by decide
theorem test_decode_close : decode (.cmd 0b00000000000000000000000000000111) = .ok .close := by decide
theorem test_decode_cooldownDone : decode (.cmd 0b00000000000000000000000000001000) = .ok .cooldownDone := by decide
theorem test_decode_wrCmd : decode (.bus 0b1100000000 0x12345678) = .ok (.wrCmd 0x12345678) := by decide
theorem test_decode_rdStatus : decode (.bus 0b0100000100 0) = .ok .rdStatus := by decide
theorem test_decode_rdTxw : decode (.bus 0b0100001000 0) = .ok .rdTxw := by decide
theorem test_decode_wrTxw : decode (.bus 0b1100001000 0x12345678) = .ok (.wrTxw 0x12345678) := by decide
theorem test_decode_rdRxw : decode (.bus 0b0100001100 0) = .ok .rdRxw := by decide
theorem test_decode_rdFramew : decode (.bus 0b0100010000 0) = .ok .rdFramew := by decide
theorem test_decode_rdOff : decode (.bus 0b0100010100 0) = .ok .rdOff := by decide
theorem test_decode_wrOff : decode (.bus 0b1100010100 0x12345678) = .ok (.wrOff 0x12345678) := by decide
theorem test_decode_rdLen : decode (.bus 0b0100011000 0) = .ok .rdLen := by decide
theorem test_decode_wrLen : decode (.bus 0b1100011000 0x12345678) = .ok (.wrLen 0x12345678) := by decide
theorem test_decode_wrbBuf : decode (.bus 0b1001111111 0x7F) = .ok (.wrbBuf 63 0x7F) := by decide
theorem test_decode_rdbBuf : decode (.bus 0b0001000000 0) = .ok (.rdbBuf 0) := by decide

/-- V43-3 to V43-6, and OP = 0xF. -/
theorem test_decode_reserved_commands :
    decode (.cmd 0x00000009) = .error (.reservedCommand 0x00000009) ∧
      decode (.cmd 0x00000000) = .error (.reservedCommand 0x00000000) ∧
      decode (.cmd 0x00000012) = .error (.reservedCommand 0x00000012) ∧
      decode (.cmd 0x10000002) = .error (.reservedCommand 0x10000002) ∧
      decode (.cmd 0x0000000F) = .error (.reservedCommand 0x0000000F) := by decide

/-- V43-11 and V43-12, and the other read-only registers. -/
theorem test_decode_directions :
    decode (.bus 0x100 0) = .error (.writeOnly 0x00) ∧ decode (.bus 0x304 0) = .error (.readOnly 0x04) ∧
      decode (.bus 0x30C 0) = .error (.readOnly 0x0C) ∧ decode (.bus 0x310 0) = .error (.readOnly 0x10) := by decide

/-- V43-13, V43-15, V43-16, and the ends of the ranges of 20_memory.md R67. -/
theorem test_decode_widths :
    decode (.bus 0x004 0) = .error (.badAccessWidth 0x04 1) ∧ decode (.bus 0x140 0) = .error (.badAccessWidth 0x40 4) ∧
      decode (.bus 0x306 0) = .error (.badAccessWidth 0x06 4) ∧ decode (.bus 0x01B 0) = .error (.badAccessWidth 0x1B 1) ∧
      decode (.bus 0x11B 0) = .error (.badAccessWidth 0x1B 4) ∧
      decode (.bus 0x37F 0) = .error (.badAccessWidth 0x7F 4) := by decide

/-- V43-14, and the ends of the reserved ranges of 20_memory.md R66. -/
theorem test_decode_addresses :
    decode (.bus 0x11C 0) = .error (.badAddress 0x1C) ∧ decode (.bus 0x23F 0) = .error (.badAddress 0x3F) ∧
      decode (.bus 0x080 0) = .error (.badAddress 0x80) ∧ decode (.bus 0x3FF 0) = .error (.badAddress 0xFF) := by decide

/-! ### Words and fields -/

/-- STATUS after V42-3 and after V42-7 (10_state.md R27). -/
theorem test_status_words :
    ({ initDone := true, active := false, idleDet := true, synced := true, arb := .streaming, peerUnresp := false } :
        Status).toWord = 0x2D ∧
      ({ initDone := true, active := false, idleDet := false, synced := false, arb := .cooldown, peerUnresp := true } :
        Status).toWord = 0x71 := by decide

/-- A branch on a STATUS field (30_encoding.md R91). -/
theorem test_status_field : StatusField.arb.extract 0x2D = 2 ∧ StatusField.peerUnresp.extract 0x71 = 1 := by decide

/-- V41-1 to V41-7, V41-9 and V41-10. -/
theorem test_frameWord :
    frameWord abcde 0 5 = .ok 0x41424344 ∧ frameWord abcde 1 5 = .ok 0x42434445 ∧
      frameWord abcde 2 5 = .ok 0x43444500 ∧ frameWord abcde 3 5 = .ok 0x44450000 ∧
      frameWord abcde 4 5 = .ok 0x45000000 ∧ frameWord abcde 5 5 = .ok 0x00000000 ∧
      frameWord abcde 8 5 = .ok 0x00000000 ∧ frameWord [] 0 0 = .ok 0x00000000 ∧
      frameWord [(0, 0x41)] 0 2 = .error (.unwrittenBufferByte 1) := by decide

/-- V41-12 and V41-13. -/
theorem test_linkDecode :
    linkDecode 0xDEADB00F = [] ∧ unpack 0xDEADB00F = [0xDE, 0xAD, 0xB0, 0x0F] ∧
      linkDecode 0x4849210A = [0x48, 0x49, 0x21, 0x0A] ∧ isIdle 0xDEADB00F = true ∧ isIdle 0xDEADB00E = false := by decide

/-- The bits of V40-1's word, in wire order. -/
theorem test_wire_order :
    (List.range 8).map (wireBit 0x4849210A) = [false, true, false, false, true, false, false, false] := by decide

/-- V40-6 and V40-7: the first sample fills bit 31, the last bit 0. -/
theorem test_accumulate : accumulate 0 0 true = 0x80000000 ∧ accumulate 0 31 true = 0x00000001 := by decide

/-! ### One step of each command -/

/-- V43-1. -/
theorem test_init :
    (next? (exec .init State.reset)).map (fun t => (t.lines, t.status.toWord, t.trace)) =
      some ({ clkOut := .one, dataOut := .one, indOut := .x }, 0x01,
        [.reset, .cmdBegin .init, .drive .clkOut true, .drive .dataOut true, .configure, .cmdEnd .init]) := by decide

/-- V43-2, V43-7 and V43-3. -/
theorem test_refused_commands :
    (next? (exec .init (idleIn .connecting))).map (·.refused) = some [.alreadyInitialised] ∧
      (next? (exec (.wrCmd 0x00000005) State.reset)).map (·.refused) = some [.notInitialised 0x00000005] ∧
      (next? (exec (.wrCmd 0x00000009) State.reset)).map (·.refused) = some [.reservedCommand 0x00000009] := by decide

/-- EXCHANGE begins (40_link_phy.md R112, R127). -/
theorem test_exchange :
    (next? (exec .exchange { idleIn .connecting with txw := 0x4849210A })).map
        (fun t => (t.seq.phase, t.seq.shift, t.status.active, t.trace)) =
      some (.poll, 0x4849210A, true, [.reset, .cmdBegin .exchange, .xferBegin 0x4849210A]) := by decide

/-- V41-2 through ENCODE. -/
theorem test_encode :
    (next? (exec .encode { idleIn .connecting with buf := abcde, off := 1, len := 5 })).map
        (fun t => (t.framew, t.faulted, t.seq.phase)) = some (0x42434445, [], .idle) := by decide

/-- V41-10 through ENCODE. -/
theorem test_encode_faults :
    (next? (exec .encode { idleIn .connecting with buf := [(0, 0x41)], len := 2, framew := 7 })).map
        (fun t => (t.framew, t.faulted, t.seq.phase)) = some (7, [.unwrittenBufferByte 1], .idle) := by decide

/-- V41-22. -/
theorem test_sendChunk_refused :
    (next? (exec .sendChunk (idleIn .syncing))).map (·.refused) = some [.wrongArbState .sendChunk .syncing] := by decide

/-- V41-23: CHUNK_NEXT faults before the word's exchange. -/
theorem test_chunkNext_faults :
    (next? (step { running .chunkNext .sendChunk .sendChunk .streaming with
        buf := [(0, 0x41), (1, 0x42)], len := 3, off := 9, framew := 7 })).map
        (fun t => (t.faulted, t.off, t.framew, t.seq.phase)) = some ([.unwrittenBufferByte 2], 0, 7, .idle) := by decide

/-- V41-21: a colliding word is marked and still sent. -/
theorem test_chunkNext_collision :
    (next? (step { running .chunkNext .sendChunk .sendChunk .streaming with
        buf := [(0, 0xDE), (1, 0xAD), (2, 0xB0), (3, 0x0F), (4, 0x41)], len := 5 })).map
        (fun t => (t.trace, t.seq.phase)) =
      some ([.reset, .dataWord 0xDEADB00F, .collision 0xDEADB00F, .xferBegin 0xDEADB00F], .poll) := by decide

/-- V42-1. -/
theorem test_connected :
    (next? (exec .connected { idleIn .connecting with off := 8, len := 5 })).map
        (fun t => (t.status.toWord, t.off, t.len)) = some (0x11, 0, 0) := by decide

/-- V42-2, V42-10, V42-12 and V42-16. -/
theorem test_gating :
    (next? (exec .connected (idleIn .streaming))).map (·.refused) = some [.wrongArbState .connected .streaming] ∧
      (next? (exec .sync (idleIn .connecting))).map (·.refused) = some [.wrongArbState .sync .connecting] ∧
      (next? (exec .close (idleIn .syncing))).map (·.refused) = some [.wrongArbState .close .syncing] ∧
      (next? (exec .cooldownDone (idleIn .connecting))).map (·.refused) =
        some [.wrongArbState .cooldownDone .connecting] := by decide

/-- SYNC sends the sentinel, not TXW (V42-8 and V42-9). -/
theorem test_sync :
    (next? (exec .sync { idleIn .syncing with txw := 0x12345678 })).map (fun t => (t.seq.shift, t.txw, t.seq.phase)) =
      some (0xDEADB00F, 0x12345678, .poll) := by decide

/-- V42-6: the rendezvous is checked before the bound. -/
theorem test_syncNext_rendezvous :
    (next? (step { running .syncNext .sync .sync .syncing with
        rxw := 0xDEADB00F
        status := { (running .syncNext .sync .sync .syncing).status with idleDet := true }
        seq := { (running .syncNext .sync .sync .syncing).seq with tries := 1 }
        config := some (params (some 2)) })).map (fun t => (t.status.toWord, t.trace)) =
      some (0x2D, [.reset, .rendezvous 2, .cmdEnd .sync]) := by decide

/-- V42-5. -/
theorem test_syncNext_timeout :
    (next? (step { running .syncNext .sync .sync .syncing with config := some (params (some 1)) })).map
        (fun t => (t.status.toWord, t.trace)) = some (0x71, [.reset, .syncTimeout 1, .cmdEnd .sync]) := by decide

/-- V42-11. -/
theorem test_close :
    (next? (exec .close { idleIn .streaming with
        status := { (idleIn .streaming).status with idleDet := true } })).map (·.status.toWord) = some 0x35 := by decide

/-- V42-13 and V42-14. -/
theorem test_cooldownDone :
    (next? (exec .cooldownDone { idleIn .cooldown with
        status := { (idleIn .cooldown).status with idleDet := true } })).map (·.status.toWord) = some 0x05 ∧
      (next? (exec .cooldownDone { idleIn .cooldown with
        status := { (idleIn .cooldown).status with peerUnresp := true } })).map (·.status.toWord) = some 0x41 := by decide

/-! ### Host accesses -/

/-- V43-8 to V43-10. -/
theorem test_ranged_writes :
    (next? (exec (.wrOff 64) State.reset)).map (·.off) = some 64 ∧
      (next? (exec (.wrOff 65) State.reset)).map (fun t => (t.off, t.refused)) = some (0, [.outOfRange .off 65]) ∧
      (next? (exec (.wrLen 0xFFFFFFFF) State.reset)).map (fun t => (t.len, t.refused)) =
        some (0, [.outOfRange .len 0xFFFFFFFF]) ∧
      (next? (exec (.wrLen 5) State.reset)).map (·.len) = some 5 := by decide

/-- V43-17. -/
theorem test_rdbBuf_unwritten :
    (next? (exec (.rdbBuf 0) State.reset)).map (fun t => (t.faulted, t.host.lastByte)) =
      some ([.unwrittenBufferByte 0], none) := by decide

/-- V43-18, in two steps. -/
theorem test_wrbBuf_63 : (next? (exec (.wrbBuf 63 0x7F) State.reset)).map (·.buf) = some [(63, 0x7F)] := by decide
theorem test_rdbBuf_63 :
    (next? (exec (.rdbBuf 63) { State.reset with buf := [(63, 0x7F)] })).map (·.host.lastByte) = some (some 0x7F) := by
  decide

/-- 30_encoding.md R91: a branch after `rd STATUS; rdb BUF+63` still looks at STATUS. -/
theorem test_rdb_leaves_rd :
    (next? (exec (.rdbBuf 63) { State.reset with
      buf := [(63, 0x7F)], host := { State.reset.host with lastRead := some 0x08 } })).map (·.host.lastRead) =
      some (some 0x08) := by decide

/-- V43-19 and V43-20: the reads. -/
theorem test_reads :
    (next? (exec .rdOff { State.reset with off := 5 })).map (·.host.lastRead) = some (some 5) ∧
      (next? (exec .rdStatus State.reset)).map (·.host.lastRead) = some (some 0) ∧
      (next? (exec .rdTxw { State.reset with txw := 0x12345678 })).map (·.host.lastRead) = some (some 0x12345678) ∧
      (next? (exec .rdRxw { State.reset with rxw := 0x23456789 })).map (·.host.lastRead) = some (some 0x23456789) ∧
      (next? (exec .rdFramew { State.reset with framew := 0x3456789A })).map (·.host.lastRead) =
        some (some 0x3456789A) ∧
      (next? (exec .rdLen { State.reset with len := 64 })).map (·.host.lastRead) = some (some 64) := by decide

theorem test_wrTxw : (next? (exec (.wrTxw 0xFFFFFFFF) State.reset)).map (·.txw) = some 0xFFFFFFFF := by decide

/-! ### Micro-steps -/

/-- V40-9: the last sample of the busy-wait. -/
theorem test_poll_ready :
    (next? (step { running .poll .exchange .exchange .connecting with
        peer := { State.reset.peer with busyIn := [false] } })).map (fun t => (t.seq.phase, t.seq.polls, t.trace)) =
      some (.setup, 1, [.reset, .sample .busyIn false]) := by decide

/-- V40-8: the bound. -/
theorem test_poll_bound :
    (next? (step { running .poll .exchange .exchange .connecting with
        seq := { (running .poll .exchange .exchange .connecting).seq with polls := 3 } })).map
        (fun t => (t.seq.phase, t.trace)) = some (.setup, [.reset, .busyBound]) := by decide

/-- V40-6 and V40-7, at SAMPLE(0) and SAMPLE(31). -/
theorem test_sample :
    (next? (step { running .sample .exchange .exchange .connecting with
        peer := { State.reset.peer with dataIn := [true] } })).map (fun t => (t.seq.acc, t.seq.i, t.seq.phase)) =
      some (0x80000000, 1, .setup) ∧
      (next? (step { running .sample .exchange .exchange .connecting with
        seq := { (running .sample .exchange .exchange .connecting).seq with i := 31 }
        peer := { State.reset.peer with dataIn := [true] } })).map (fun t => (t.seq.acc, t.seq.i, t.seq.phase)) =
      some (0x00000001, 31, .restore) := by decide

/-- The first bit of V40-1 is 0: both data lines take it, and CLK_OUT stays high. -/
theorem test_setup :
    (next? (step { running .setup .exchange .exchange .connecting with
        seq := { (running .setup .exchange .exchange .connecting).seq with shift := 0x4849210A } })).map
        (fun t => (t.lines, t.seq.phase)) = some ({ clkOut := .one, dataOut := .zero, indOut := .zero }, .low) := by decide

theorem test_low :
    (next? (step (running .low .exchange .exchange .connecting))).map (fun t => (t.lines.clkOut, t.seq.phase)) =
      some (.zero, .high) := by decide

theorem test_high :
    (next? (step (running .high .exchange .exchange .connecting))).map (fun t => (t.lines.clkOut, t.seq.phase)) =
      some (.one, .sample) := by decide

/-- RESTORE leaves IND_OUT (40_link_phy.md R118). -/
theorem test_restore :
    (next? (step { running .restore .exchange .exchange .connecting with
        lines := { clkOut := .one, dataOut := .zero, indOut := .zero } })).map (·.lines) =
      some { clkOut := .one, dataOut := .one, indOut := .zero } := by decide

/-- The end of V40-1 and of V40-4. -/
theorem test_done :
    (next? (step { running .done .exchange .exchange .connecting with
        seq := { (running .done .exchange .exchange .connecting).seq with acc := 0xDEADB00F } })).map
        (fun t => (t.rxw, t.status.toWord, t.seq.phase)) = some (0xDEADB00F, 0x05, .idle) ∧
      (next? (step { running .done .exchange .exchange .connecting with
        seq := { (running .done .exchange .exchange .connecting).seq with acc := 0xDEADB00E } })).map
        (fun t => (t.rxw, t.status.toWord, t.seq.phase)) = some (0xDEADB00E, 0x01, .idle) := by decide

/-! ### Steps of the host, and the reset -/

/-- V43-11 as a step of a host program: the access is refused and the host goes on. -/
theorem test_step_rejected :
    (next? (step (withProgram State.reset [.access 0x100 0]))).map (fun t => (t.refused, t.host.pc)) =
      some ([.writeOnly 0x00], 1) := by decide

/-- `bz` and `bnz` (30_encoding.md R91). -/
theorem test_step_branches :
    (next? (step { withProgram State.reset [.bz (.field .synced) 7] with
        host := { (withProgram State.reset [.bz (.field .synced) 7]).host with lastRead := some 0x05 } })).map
        (·.host.pc) = some 7 ∧
      (next? (step { withProgram State.reset [.bnz (.field .synced) 7] with
        host := { (withProgram State.reset [.bnz (.field .synced) 7]).host with lastRead := some 0x05 } })).map
        (·.host.pc) = some 1 := by decide

/-- V40-15: a reset in the middle of a command. -/
theorem test_step_reset :
    (next? (step { running .low .exchange .exchange .connecting with resets := [true] })).map
        (fun t => (t.trace, t.lines, t.status.toWord, t.seq.phase)) =
      some ([.reset], { clkOut := .x, dataOut := .x, indOut := .x }, 0, .idle) := by decide

/-- The word of an opcode-table row runs as the first instruction after reset. -/
theorem test_withFetchWord :
    (next? (step (State.reset.withFetchWord 32 0x00000001))).map (·.status.toWord) = some 0x01 ∧
      (next? (step (State.reset.withFetchWord 16 0x27F))).map (·.buf) = some [(63, 0x00)] := by decide

/-! ### Witnesses: the hypotheses of each obligation hold together somewhere -/

theorem test_witness_DecodeInvertsEncode :
    (Instr.wrbBuf 63 0xFF).wellFormed = true ∧ decode (encode (.wrbBuf 63 0xFF)) = .ok (.wrbBuf 63 0xFF) ∧
      decode (encode .init) = .ok .init := by decide

/-- The clauses are met at the ends of their ranges; the descriptors are those of the decode tests above. -/
theorem test_witness_InadmissibleAccessesAreRejectedInOrder :
    decode (.bus (BitVec.ofBool false ++ BitVec.ofBool false ++ (0x1C : BitVec 8)) 0) = .error (.badAddress 0x1C) ∧
      decode (.bus (BitVec.ofBool true ++ BitVec.ofBool true ++ (0xFF : BitVec 8)) 0) = .error (.badAddress 0xFF) ∧
      decode (.bus (BitVec.ofBool false ++ BitVec.ofBool true ++ (0x1B : BitVec 8)) 0) =
        .error (.badAccessWidth 0x1B 4) ∧
      decode (.bus (BitVec.ofBool false ++ BitVec.ofBool false ++ (0x00 : BitVec 8)) 0) =
        .error (.badAccessWidth 0x00 1) ∧
      decode (.bus (BitVec.ofBool false ++ BitVec.ofBool true ++ (0x40 : BitVec 8)) 0) =
        .error (.badAccessWidth 0x40 4) ∧
      decode (.bus (BitVec.ofBool false ++ BitVec.ofBool true ++ (0x00 : BitVec 8)) 0) = .error (.writeOnly 0x00) ∧
      decode (.bus (BitVec.ofBool true ++ BitVec.ofBool true ++ (0x10 : BitVec 8)) 0) = .error (.readOnly 0x10) := by
  decide

theorem test_witness_AcceptedDescriptorIsItsInstructions :
    decode (.bus 0x308 0xFFFFFFFF) = .ok (.wrTxw 0xFFFFFFFF) ∧ decode (.bus 0x240 0xFFFFFF7F) = .ok (.wrbBuf 0 0x7F) ∧
      decode (.bus 0x118 0) = .ok .rdLen := by decide

theorem test_witness_StepRunsTheDecodedAccess :
    let s := withProgram State.reset [.access 0x308 5]
    s.resets.head? ≠ some true ∧ s.seq.phase = .idle ∧ s.host.program[s.host.pc]? = some (.access 0x308 5) ∧
      decode (.bus 0x308 5) = .ok (.wrTxw 5) := by decide

theorem test_witness_InstructionStatementsRunTheirInstruction :
    let s := withProgram State.reset [stmtOf .init]
    Instr.init.wellFormed = true ∧ s.resets.head? ≠ some true ∧ s.seq.phase = .idle ∧
      s.host.program[s.host.pc]? = some (stmtOf .init) := by decide

theorem test_witness_TableWordRunsItsInstruction :
    decodeTableWord 32 0x00000008 = some .cooldownDone ∧ decodeTableWord 16 0x07F = some (.rdbBuf 63) := by decide

theorem test_witness_RejectedAccessIsRecordedOnly :
    let s := withProgram State.reset [.access 0x304 0]
    s.resets.head? ≠ some true ∧ s.seq.phase = .idle ∧ s.host.program[s.host.pc]? = some (.access 0x304 0) ∧
      decode (.bus 0x304 0) = .error (.readOnly 0x04) ∧ decode (.bus 0x100 0) = .error (.writeOnly 0x00) ∧
      decode (.bus 0x01C 0) = .error (.badAddress 0x1C) := by decide

theorem test_witness_HostBranchesOnThePrecedingRead :
    let s : State := { State.reset with
      host := { program := [.bz .register 0, .bnz (.field .arb) 0], pc := 1, lastRead := some 0x11, lastByte := none, drawn := 0 } }
    s.resets.head? ≠ some true ∧ s.seq.phase = .idle ∧ s.host.lastRead = some 0x11 ∧
      s.host.program[s.host.pc]? = some (.bnz (.field .arb) 0) ∧
      s.host.program[s.host.pc - 1]? = some (.bz .register 0) := by decide

theorem test_witness_HostIsHeldWhileACommandRuns :
    (running .poll .exchange .exchange .connecting).seq.phase ≠ .idle ∧
      (running .poll .exchange .exchange .connecting).resets.head? ≠ some true := by decide

theorem test_witness_ResetTakesPrecedence : ({ idleIn .streaming with resets := [true] }).resets.head? = some true := by
  decide

theorem test_witness_AfterResetOnlyInitIsAccepted : Opcode.sync ≠ .init ∧ Opcode.exchange ≠ .init := by decide

/-- Both clauses, at both ends of BUF. -/
theorem test_witness_BufferReadReturnsOrFaults :
    (idleIn .connecting).seq.phase = .idle ∧ Memory.read [(63, 0x7F)] 63 = some 0x7F ∧ Memory.read [(63, 0x7F)] 0 = none ∧
      (0 : Nat) < 64 ∧ (63 : Nat) < 64 := by decide

theorem test_witness_BufferWriteSetsItsByteOnly : State.reset.seq.phase = .idle ∧ (63 : Nat) < 64 := by decide

theorem test_witness_RegisterReadsReturnTheirRegister : State.reset.seq.phase = .idle := by decide

/-- The limits of the ranged writes. -/
theorem test_witness_RegisterWritesStoreOrAreRefused :
    State.reset.seq.phase = .idle ∧ (64 : Word).toNat ≤ 64 ∧ 64 < (65 : Word).toNat ∧ 64 < (0xFFFFFFFF : Word).toNat := by
  decide

/-- A state for each clause: reserved, before INIT, INIT again, a gated command, and a command that runs. -/
theorem test_witness_CmdWriteDispatchesByTheFirstFailingCheck :
    (idleIn .connecting).seq.phase = .idle ∧ (0x00000010 : Word).extractLsb' 4 28 ≠ 0 ∧
      9 ≤ ((0x00000009 : Word).extractLsb' 0 4).toNat ∧ State.reset.status.initDone = false ∧
      (idleIn .connecting).status.initDone = true ∧ arbAllowed .sync (idleIn .connecting).status.arb = false ∧
      arbAllowed .connected (idleIn .connecting).status.arb = true ∧ arbAllowed .init State.reset.status.arb = true := by
  decide

theorem test_witness_GatedCommandsAreRefusedInOtherArbStates :
    (idleIn .cooldown).seq.phase = .idle ∧ (idleIn .cooldown).status.initDone = true ∧
      (idleIn .cooldown).status.arb ≠ .streaming ∧ (idleIn .cooldown).status.arb ≠ .connecting ∧
      (idleIn .cooldown).status.arb ≠ .syncing ∧ (idleIn .syncing).status.arb ≠ .cooldown := by decide

theorem test_witness_RefusalsChangeNothingElse :
    (next? (exec .sync State.reset)).map (·.refused) = some [.notInitialised 0x00000006] ∧ State.reset.refused = [] := by
  decide

theorem test_witness_InitConfiguresTheLines :
    State.reset.seq.phase = .idle ∧ State.reset.status.initDone = false := by decide

theorem test_witness_ConnectedStartsASession :
    (idleIn .connecting).seq.phase = .idle ∧ (idleIn .connecting).status.initDone = true ∧
      (idleIn .connecting).status.arb = .connecting := by decide

theorem test_witness_CloseEndsTheSession :
    (idleIn .streaming).seq.phase = .idle ∧ (idleIn .streaming).status.initDone = true ∧
      (idleIn .streaming).status.arb = .streaming := by decide

theorem test_witness_CooldownDoneReturnsToConnecting :
    (idleIn .cooldown).seq.phase = .idle ∧ (idleIn .cooldown).status.initDone = true ∧
      (idleIn .cooldown).status.arb = .cooldown := by decide

theorem test_witness_EncodeWritesFramewOrFaults :
    (idleIn .connecting).seq.phase = .idle ∧ (idleIn .connecting).status.initDone = true ∧
      frameWord abcde 4 5 = .ok 0x45000000 ∧ frameWord [] 63 64 = .error (.unwrittenBufferByte 63) := by decide

theorem test_witness_EncodePacksBigEndianWithZeroFill :
    (∀ k, k < 4 → 3 + k < 5 → (Memory.read abcde (3 + k)).isSome) ∧ Memory.read abcde (2 + 3) = none ∧
      ∀ m, m < 3 → 2 + m < 64 → (Memory.read abcde (2 + m)).isSome := by decide

theorem test_witness_FourBytesRoundTrip :
    0 + 4 ≤ 5 ∧ Memory.read abcde 0 = some 0x41 ∧ Memory.read abcde (0 + 1) = some 0x42 ∧
      Memory.read abcde (0 + 2) = some 0x43 ∧ Memory.read abcde (0 + 3) = some 0x44 := by decide

theorem test_witness_ChunkWordsUnpackToTheChunk :
    let s : State := { idleIn .streaming with buf := abcde, len := 5 }
    s.seq.phase = .idle ∧ s.status.initDone = true ∧ s.status.arb = .streaming ∧ s.resets = [] ∧ s.len.toNat ≤ 64 ∧
      ∀ k, k < s.len.toNat → (Memory.read s.buf k).isSome := by decide

/-- Both clauses: polls left, and none left. -/
theorem test_witness_PollSamplesBusyUntilReadyOrBound :
    let s := running .poll .exchange .exchange .connecting
    s.seq.phase = .poll ∧ s.resets.head? ≠ some true ∧ s.seq.polls ≠ s.params.busyPollMax ∧
      ({ s with seq := { s.seq with polls := 3 } } : State).seq.polls = s.params.busyPollMax := by decide

theorem test_witness_SetupLowAndHighDriveTheirLines :
    (running .setup .sync .sync .syncing).resets.head? ≠ some true ∧ (running .setup .sync .sync .syncing).seq.phase = .setup ∧
      (running .low .sync .sync .syncing).seq.phase = .low ∧ (running .high .sync .sync .syncing).seq.phase = .high := by
  decide

theorem test_witness_SampleAccumulatesAtItsBitPosition :
    (running .sample .sync .sync .syncing).seq.phase = .sample ∧
      (running .sample .sync .sync .syncing).resets.head? ≠ some true := by decide

theorem test_witness_RestoreAndDoneEndTheExchange :
    (running .restore .exchange .exchange .connecting).resets.head? ≠ some true ∧
      (running .restore .exchange .exchange .connecting).seq.phase = .restore ∧
      (running .done .exchange .exchange .connecting).seq.phase = .done ∧
      (running .done .exchange .exchange .connecting).seq.caller = .exchange ∧
      (running .done .sync .sync .syncing).seq.caller ≠ .exchange := by decide

/-- The three clauses: the sentinel, the bound, and another exchange. -/
theorem test_witness_SyncNextJudgesTheExchange :
    let s := running .syncNext .sync .sync .syncing
    s.seq.phase = .syncNext ∧ s.resets.head? ≠ some true ∧ ({ s with rxw := 0xDEADB00F } : State).rxw = 0xDEADB00F ∧
      s.rxw ≠ 0xDEADB00F ∧ ({ s with config := some (params (some 1)) } : State).params.syncLimit = some 1 ∧
      1 ≤ s.seq.tries + 1 ∧ ({ s with config := some (params (some 2)) } : State).params.syncLimit = some 2 ∧
      s.seq.tries + 1 < 2 ∧ s.params.syncLimit = none := by decide

/-- The three clauses: the end of the walk, a word, and a fault. -/
theorem test_witness_ChunkNextSendsTheNextWordOrEnds :
    let s := running .chunkNext .sendChunk .sendChunk .streaming
    s.seq.phase = .chunkNext ∧ s.resets.head? ≠ some true ∧ s.len.toNat ≤ 4 * s.seq.j ∧
      4 * s.seq.j < ({ s with len := 1 } : State).len.toNat ∧ frameWord [(0, 0x41)] 0 1 = .ok 0x41000000 ∧
      frameWord [] 0 1 = .error (.unwrittenBufferByte 0) := by decide

theorem test_witness_ExchangeSyncAndSendChunkBegin :
    (idleIn .syncing).seq.phase = .idle ∧ (idleIn .syncing).status.initDone = true ∧
      (idleIn .syncing).status.arb = .syncing ∧ (idleIn .streaming).status.arb = .streaming := by decide

theorem test_witness_ExchangeRunsToItsEnd :
    (idleIn .connecting).seq.phase = .idle ∧ (idleIn .connecting).status.initDone = true ∧
      (idleIn .connecting).resets = [] := by decide

theorem test_witness_ExchangeTraceIsTheWireProtocol :
    (idleIn .streaming).seq.phase = .idle ∧ (idleIn .streaming).status.initDone = true ∧ (idleIn .streaming).resets = [] := by
  decide

theorem test_witness_ExchangeMakesThirtyTwoClockPulses :
    (idleIn .connecting).seq.phase = .idle ∧ (idleIn .connecting).status.initDone = true ∧
      (idleIn .connecting).resets = [] ∧ (idleIn .connecting).lines.clkOut = .one ∧
      (idleIn .connecting).lines.dataOut = .one := by decide

/-- A peer that sends 0xCAFEF00D (V40-5). -/
theorem test_witness_BothEndsReceiveTheWordSent :
    let s : State := { idleIn .connecting with peer := { State.reset.peer with dataIn := samplesOf 0xCAFEF00D } }
    s.seq.phase = .idle ∧ s.status.initDone = true ∧ s.resets = [] ∧ s.lines.clkOut = .one ∧ s.lines.dataOut = .one ∧
      ∀ k, k < 32 → s.peer.dataAt (32 * 0 + k) = wireBit 0xCAFEF00D k := by decide

set_option maxRecDepth 20000 in
/-- EA2 by hand: a peer that latches just before each rising edge of the bit periods of 0x4849210A (40_link_phy.md R127)
receives it, and no other word's bit 31. -/
theorem test_peer_latches :
    let ev := .xferBegin 0x4849210A :: (List.range 32).flatMap (periodTrace 0x4849210A fun _ => false)
    latchesEachPeriod ev 0 (fun p => 5 * p + 4) ∧ peerReceives .one ev (fun p => 5 * p + 4) 0x4849210A ∧
      ¬ peerReceives .one ev (fun p => 5 * p + 4) 0xC849210A := by
  unfold latchesEachPeriod peerReceives
  decide

/-- Two states that differ in everything but the word, the draws and the parameters. -/
theorem test_witness_ExchangesAreStateless :
    let s := idleIn .connecting
    let u : State := { idleIn .streaming with rxw := 7, off := 3, buf := abcde }
    s.seq.phase = .idle ∧ s.status.initDone = true ∧ s.resets = [] ∧ u.seq.phase = .idle ∧ u.status.initDone = true ∧
      u.resets = [] ∧ u.txw = s.txw ∧ u.peer = s.peer ∧ u.params = s.params := by decide

theorem test_witness_SendChunkSendsTheWordsOfTheChunk :
    let s : State := { idleIn .streaming with buf := abcde, len := 5 }
    s.seq.phase = .idle ∧ s.status.initDone = true ∧ s.status.arb = .streaming ∧ s.resets = [] ∧ s.len.toNat ≤ 64 ∧
      (∀ k, k < s.len.toNat → (Memory.read s.buf k).isSome) ∧ s.len ≠ 0 := by decide

/-- The clauses of LEN = 0. -/
theorem test_witness_SendChunkSendsTheWordsOfTheChunk_empty :
    let s : State := { idleIn .streaming with len := 0 }
    s.seq.phase = .idle ∧ s.status.initDone = true ∧ s.status.arb = .streaming ∧ s.resets = [] ∧ s.len.toNat ≤ 64 ∧
      (∀ k, k < s.len.toNat → (Memory.read s.buf k).isSome) ∧ s.len = 0 := by decide

theorem test_witness_PeerReceivesTheWordsOfTheChunk :
    let s : State := { idleIn .streaming with buf := abcde, len := 5 }
    s.seq.phase = .idle ∧ s.status.initDone = true ∧ s.status.arb = .streaming ∧ s.resets = [] ∧ s.len.toNat ≤ 64 ∧
      (∀ k, k < s.len.toNat → (Memory.read s.buf k).isSome) ∧ 1 < chunkCount s.len.toNat := by decide

/-- The clauses of q below 4, where no word is sent. -/
theorem test_witness_SendChunkFaultsAtTheFirstUnwrittenByte_first :
    let s : State := { idleIn .streaming with buf := [(0, 0x41)], len := 2 }
    s.seq.phase = .idle ∧ s.status.initDone = true ∧ s.status.arb = .streaming ∧ s.resets = [] ∧ s.len.toNat ≤ 64 ∧
      1 < s.len.toNat ∧ Memory.read s.buf 1 = none ∧ (∀ m, m < 1 → (Memory.read s.buf m).isSome) ∧ 1 / 4 = 0 := by decide

theorem test_witness_SendChunkFaultsAtTheFirstUnwrittenByte :
    let s : State := { idleIn .streaming with buf := abcde, len := 64 }
    s.seq.phase = .idle ∧ s.status.initDone = true ∧ s.status.arb = .streaming ∧ s.resets = [] ∧ s.len.toNat ≤ 64 ∧
      5 < s.len.toNat ∧ Memory.read s.buf 5 = none ∧ ∀ m, m < 5 → (Memory.read s.buf m).isSome := by decide

/-- V42-6: the second exchange returns the sentinel, under the bound 2. -/
theorem test_witness_SyncEndsInTheRendezvous :
    let s : State := { idleIn .syncing with
      peer := { State.reset.peer with dataIn := samplesOf 0x00000000 ++ samplesOf 0xDEADB00F }
      config := some (params (some 2)) }
    s.seq.phase = .idle ∧ s.status.initDone = true ∧ s.status.arb = .syncing ∧ s.resets = [] ∧
      s.peer.wordAt 1 = 0xDEADB00F ∧ s.peer.wordAt 0 ≠ 0xDEADB00F ∧ s.params.syncLimit = some 2 := by
  refine ⟨by decide, by decide, by decide, by decide, ?_, ?_, by decide⟩
  · exact wordAt_of_peerSends (by unfold peerSends; decide)
  · rw [wordAt_of_peerSends (w := 0x00000000) (by unfold peerSends; decide)]
    decide

/-- V42-5. -/
theorem test_witness_SyncTimesOutAtTheHardenedBound :
    let s : State := { idleIn .syncing with
      peer := { State.reset.peer with dataIn := samplesOf 0x00000000 }
      config := some (params (some 1)) }
    s.seq.phase = .idle ∧ s.status.initDone = true ∧ s.status.arb = .syncing ∧ s.resets = [] ∧
      s.params.syncLimit = some 1 ∧ s.peer.wordAt 0 ≠ 0xDEADB00F := by
  refine ⟨by decide, by decide, by decide, by decide, by decide, ?_⟩
  rw [wordAt_of_peerSends (w := 0x00000000) (by unfold peerSends; decide)]
  decide

/-- V42-8, through one exchange. -/
theorem test_witness_ReferenceSyncSpinsWithoutTheSentinel :
    let s : State := { idleIn .syncing with peer := { State.reset.peer with dataIn := samplesOf 0xDEADB00E } }
    s.seq.phase = .idle ∧ s.status.initDone = true ∧ s.status.arb = .syncing ∧ s.resets = [] ∧
      s.params.syncLimit = none ∧ s.peer.wordAt 0 ≠ 0xDEADB00F := by
  refine ⟨by decide, by decide, by decide, by decide, by decide, ?_⟩
  rw [wordAt_of_peerSends (w := 0xDEADB00E) (by unfold peerSends; decide)]
  decide

theorem test_witness_LoadFillsTheBuffer :
    let s := withProgram State.reset (asmLoad [0x41, 0x42])
    s.seq.phase = .idle ∧ s.resets = [] ∧ [0x41, 0x42].length ≤ 64 ∧
      s.host.program.drop s.host.pc = asmLoad [0x41, 0x42] ++ [] := by decide

theorem test_witness_HostStepsWriteByTheMatrix :
    (next? (exec (.wrTxw 5) State.reset)).map (·.txw) = some 5 := by decide

theorem test_witness_MicroStepsWriteByTheMatrix :
    (running .low .exchange .exchange .connecting).seq.phase ≠ .idle ∧
      (running .low .exchange .exchange .connecting).resets.head? ≠ some true ∧
      (next? (step (running .low .exchange .exchange .connecting))).isSome = true := by decide

theorem test_witness_MarksAndTraceOnlyGrow :
    (running .low .exchange .exchange .connecting).resets.head? ≠ some true ∧
      (next? (step (running .low .exchange .exchange .connecting))).map (·.trace) =
        some [.reset, .drive .clkOut false] := by decide

theorem test_witness_BufferFormIsCanonical : Memory.wf abcde = true ∧ (63 : Nat) < 64 := by decide

/-- SYNC is about to judge an exchange that returned the sentinel: a state all the invariants hold in. -/
def judging : State :=
  { running .syncNext .sync .sync .syncing with
    rxw := 0xDEADB00F
    status := { (running .syncNext .sync .sync .syncing).status with idleDet := true }
    trace := [.reset, .xferEnd 0xDEADB00F] }

/-- Also of ArbiterMovesOnlyAlongItsMachine: its step is the move to STREAMING. -/
theorem test_witness_EveryStepKeepsTheInvariants : judging.Inv where
  bufWf := by decide
  offRange := by decide
  lenRange := by decide
  activePhase := by decide
  syncedArb := by decide
  idleDetRxw := by decide
  command := ⟨rfl, rfl⟩
  beforeInit := by decide
  clkLevel := by decide
  dataLevel := by decide
  restoreIndex := by decide
  pollsBound := by decide
  wordIndex := by decide
  walkIndex := by decide
  unrespBound := by decide

theorem test_witness_EveryStepKeepsHandshakePrecedence : judging.TraceInv where
  precedence := by
    intro before w after h
    have hm : Event.dataWord w ∈ judging.trace := by
      rw [h]
      simp
    simp [judging] at hm
  streaming := fun h => by cases h
  afterSync := fun _ => ⟨[.reset], rfl⟩

theorem test_witness_ArbiterMovesOnlyAlongItsMachine :
    judging.Inv ∧ judging.resets.head? ≠ some true ∧
      (next? (step judging)).map (fun t => (t.status.arb, t.status.synced)) = some (.streaming, true) :=
  ⟨test_witness_EveryStepKeepsTheInvariants, by decide, by decide⟩

end Sys2Proof.Tests
end

section
/-! What an instruction can do to an idle block, said once. -/

namespace Sys2Proof.Machine

/-- The instruction is the command, or the CMD write of its word. -/
def issues (i : Instr) (op : Opcode) : Prop := i = op.instr ∨ i = .wrCmd op.word

/-- The effects of an instruction, by what it writes: a command's own, the host's side alone, a refusal, one register or one
byte of BUF, or the fault of an unwritten byte (43_control.md R220 to R225). -/
inductive EffectCase : Instr → State → State → Prop where
  | command {i : Instr} {s : State} {op : Opcode} (h : issues i op) : EffectCase i s (commandEffect op (commandBody op) s)
  | host {i : Instr} {s : State} (host : HostAgent) : EffectCase i s { s with host := host }
  | refuse {i : Instr} {s : State} (r : RefuseReason) (host : HostAgent) :
      EffectCase i s { s.raiseRefuse r with host := host }
  | writeTxw {s : State} (v : Word) : EffectCase (.wrTxw v) s { s with txw := v }
  | writeOff {s : State} {v : Word} (h : ¬offsetLimit < v) : EffectCase (.wrOff v) s { s with off := v.setWidth 7 }
  | writeLen {s : State} {v : Word} (h : ¬offsetLimit < v) : EffectCase (.wrLen v) s { s with len := v.setWidth 7 }
  | writeBuf {s : State} {k : Nat} (v : Byte) (h : k < Config.bufSize) :
      EffectCase (.wrbBuf k v) s { s with buf := Memory.write s.buf k v }
  | readFault {s : State} (k : Nat) (r : FaultReason) (host : HostAgent) :
      EffectCase (.rdbBuf k) s { s.raiseFault r with host := host }

theorem hostEffect_cases (i : Instr) (s : State) : EffectCase i s (hostEffect i s) := by
  cases i with
  | init => exact .command (op := .init) (.inl rfl)
  | exchange => exact .command (op := .exchange) (.inl rfl)
  | encode => exact .command (op := .encode) (.inl rfl)
  | sendChunk => exact .command (op := .sendChunk) (.inl rfl)
  | connected => exact .command (op := .connected) (.inl rfl)
  | sync => exact .command (op := .sync) (.inl rfl)
  | close => exact .command (op := .close) (.inl rfl)
  | cooldownDone => exact .command (op := .cooldownDone) (.inl rfl)
  | wrCmd v =>
    simp only [hostEffect]
    cases ho : opcodeOf v with
    | none => exact .refuse _ s.host
    | some op =>
      obtain rfl := (opcodeOf_eq_some v op).mp ho
      exact .command (.inr rfl)
  | rdStatus => exact .host _
  | rdTxw => exact .host _
  | wrTxw v => exact .writeTxw v
  | rdRxw => exact .host _
  | rdFramew => exact .host _
  | rdOff => exact .host _
  | wrOff v =>
    simp only [hostEffect]
    split
    · exact .refuse _ s.host
    · rename_i hv
      exact .writeOff hv
  | rdLen => exact .host _
  | wrLen v =>
    simp only [hostEffect]
    split
    · exact .refuse _ s.host
    · rename_i hv
      exact .writeLen hv
  | wrbBuf k v =>
    simp only [hostEffect]
    split
    · rename_i hk
      exact .writeBuf v hk
    · exact .refuse _ s.host
  | rdbBuf k =>
    simp only [hostEffect]
    split
    · split
      · exact .host _
      · exact .readFault k _ _
    · exact .refuse _ _

end Sys2Proof.Machine
end

section
/-! What a step of the machine can be, said once: the reset event, a micro-step of the running command, or one of the four
moves of the host. -/

namespace Sys2Proof.Machine

variable {s t : State}

/-- The next states of a step, by what the step did (43_control.md R228, R229; 60_exceptions.md R246). -/
inductive StepCase (s : State) : State → Prop where
  | reset (due : s.resetDue = true) : StepCase s s.passReset.applyReset
  | micro (due : s.resetDue = false) (running : s.seq.phase ≠ .idle) : StepCase s (blockStep s.passReset)
  | noMove (due : s.resetDue = false) (idle : s.seq.phase = .idle) : StepCase s s.passReset
  | access (due : s.resetDue = false) (idle : s.seq.phase = .idle) (i : Instr) :
      StepCase s (hostEffect i s.passReset.advanceHost)
  | rejected (due : s.resetDue = false) (idle : s.seq.phase = .idle) (d : BitVec 10) (r : DecodeReject) :
      StepCase s (s.passReset.advanceHost.rejectAccess d r)
  | branch (due : s.resetDue = false) (idle : s.seq.phase = .idle) (onZero : Bool) (x : BranchOperand) (target : Nat) :
      StepCase s (s.passReset.hostBranch onZero x target)

theorem step_cases (h : step s = .next t) : StepCase s t := by
  cases hr : s.resetDue with
  | true =>
    rw [step_reset hr] at h
    cases h
    exact .reset hr
  | false =>
    by_cases hp : s.seq.phase = .idle
    · rw [step_host hr hp] at h
      cases hm : s.passReset.hostMove with
      | idle =>
        rw [hm] at h
        cases h
        exact .noMove hr hp
      | access i =>
        rw [hm] at h
        obtain ⟨-, rfl⟩ := exec_next h
        exact .access hr hp i
      | rejected d r =>
        rw [hm] at h
        cases h
        exact .rejected hr hp d r
      | branch onZero x target =>
        rw [hm] at h
        cases h
        exact .branch hr hp onZero x target
    · rw [step_block hr hp] at h
      cases h
      exact .micro hr hp

theorem blockStep_poll (h : s.seq.phase = .poll) : blockStep s = stepPoll s := by simp [blockStep, h]

end Sys2Proof.Machine
end

section
/-! The phases of an exchange, and the phases in which the lines are at rest. -/

namespace Sys2Proof.Machine

/-- The phases from POLL to DONE, which belong to the exchange of a caller (40_link_phy.md R113 to R119). -/
def Phase.inExchange : Phase → Bool
  | .poll | .setup | .low | .high | .sample | .restore | .done => true
  | .idle | .syncNext | .chunkNext => false

/-- The phases in which no bit period runs, so that CLK_OUT and DATA_OUT are high after INIT (40_link_phy.md R122). -/
def Phase.atRest : Phase → Bool
  | .idle | .poll | .done | .syncNext | .chunkNext => true
  | .setup | .low | .high | .sample | .restore => false

/-- The command whose exchanges a caller starts (10_state.md R31). -/
def Caller.opcode : Caller → Opcode
  | .exchange => .exchange
  | .sync => .sync
  | .sendChunk => .sendChunk

theorem Caller.eq_sendChunk {c : Caller} (h : c.opcode = .sendChunk) : c = .sendChunk := by
  cases c with
  | sendChunk => rfl
  | exchange => cases h
  | sync => cases h

theorem Phase.ne_idle_of_inExchange {p : Phase} (h : p.inExchange = true) : p ≠ .idle := by
  rintro rfl
  cases h

/-- In every phase of an exchange the caller's command runs, in an ARB state it is allowed in. -/
theorem commandMatches_inExchange {q : Sequencer} {arb : ArbState} (h : q.phase.inExchange = true) :
    commandMatches q arb ↔ q.cmd = some q.caller.opcode ∧ arbAllowed q.caller.opcode arb = true := by
  unfold commandMatches
  cases hp : q.phase <;> cases q.caller <;> simp_all [Phase.inExchange, Caller.opcode, arbAllowed]

theorem dataOutExpected_atRest {q : Sequencer} (h : q.phase.atRest = true) : dataOutExpected q = .one := by
  unfold dataOutExpected
  cases hp : q.phase <;> simp_all [Phase.atRest]

end Sys2Proof.Machine
end

section
/-! The rules of the machine's invariant: what it says of the lines and of INIT_DONE, what it does not read, and the updates
that keep it. -/

namespace Sys2Proof.Machine

variable {s t : State}

theorem State.Inv.initDone_of_running (h : s.Inv) (hp : s.seq.phase ≠ .idle) : s.status.initDone = true := by
  cases hi : s.status.initDone with
  | true => rfl
  | false => exact absurd (h.beforeInit hi).2.1 hp

theorem State.Inv.clk_atRest (h : s.Inv) (hi : s.status.initDone = true) (hp : s.seq.phase.atRest = true) :
    s.lines.clkOut = .one := by
  rw [h.clkLevel hi]
  refine if_neg fun he => ?_
  rw [he] at hp
  cases hp

theorem State.Inv.data_atRest (h : s.Inv) (hi : s.status.initDone = true) (hp : s.seq.phase.atRest = true) :
    s.lines.dataOut = .one := (h.dataLevel hi).trans (dataOutExpected_atRest hp)

/-- Inv reads neither TXW and FRAMEW, nor the marks, the trace, the peer, the host and the schedule, nor `acc` and
`tries`. -/
theorem State.Inv.congr (h : s.Inv)
    (e : { s with
      txw := t.txw, framew := t.framew, faulted := t.faulted, refused := t.refused, trace := t.trace, peer := t.peer
      host := t.host, resets := t.resets, seq := { s.seq with acc := t.seq.acc, tries := t.seq.tries } } = t) :
    t.Inv := e ▸ { h with }

theorem State.Inv.setBuf (h : s.Inv) {m : Memory} (hm : Memory.wf m = true) : State.Inv { s with buf := m } :=
  { h with bufWf := hm }

theorem State.Inv.setOff (h : s.Inv) {v : BitVec 7} (hv : v.toNat ≤ 64) : State.Inv { s with off := v } :=
  { h with offRange := hv }

/-- LEN is free within its range while no command runs: the walk of SEND_CHUNK is bounded by the LEN it runs with. -/
theorem State.Inv.setLen (h : s.Inv) (hc : s.seq.cmd = none) {v : BitVec 7} (hv : v.toNat ≤ 64) :
    State.Inv { s with len := v } :=
  { h with
    lenRange := hv
    walkIndex := fun he => absurd (hc.symm.trans he) nofun }

/-- RXW and IDLE_DET change together (10_state.md R33). -/
theorem State.Inv.receive (h : s.Inv) (rx : Word) :
    State.Inv { s with rxw := rx, status := { s.status with idleDet := isIdle rx } } :=
  { h with idleDetRxw := rfl }

/-- After INIT and while no command runs, ARB, SYNCED and PEER_UNRESP may change within R190 and R34. -/
theorem State.Inv.setSession (h : s.Inv) (hi : s.status.initDone = true) (hp : s.seq.phase = .idle) (arb : ArbState)
    (synced unresp : Bool) (hs : synced = true ↔ arb = .streaming)
    (hu : unresp = true → s.params.syncLimit ≠ none) :
    State.Inv { s with status := { s.status with arb := arb, synced := synced, peerUnresp := unresp } } :=
  { h with
    syncedArb := hs
    command := by
      have hc := h.command
      unfold commandMatches at hc ⊢
      rw [hp] at hc ⊢
      exact hc
    beforeInit := fun he => absurd (hi.symm.trans he) nofun
    unrespBound := hu }

/-- A move of the sequencer within an exchange keeps Inv when it leaves CLK_OUT and DATA_OUT at the levels of the phase it
goes to. -/
theorem State.Inv.exchangeMove (h : s.Inv) (hs : s.seq.phase.inExchange = true) (p : Phase)
    (i : BitVec Config.indexBits) (polls : Nat) (ls : Lines) (hp : p.inExchange = true)
    (hclk : ls.clkOut = if p = .high then .zero else .one)
    (hdata : ls.dataOut = dataOutExpected { s.seq with phase := p, i := i })
    (hi : p = .restore → i = 31) (hpolls : polls ≤ s.params.busyPollMax) :
    State.Inv { s with lines := ls, seq := { s.seq with phase := p, i := i, polls := polls } } :=
  have hrun := Phase.ne_idle_of_inExchange hs
  { h with
    activePhase := iff_of_true (h.activePhase.mpr hrun) (Phase.ne_idle_of_inExchange hp)
    command := (commandMatches_inExchange hp).mpr ((commandMatches_inExchange hs).mp h.command)
    beforeInit := fun he => absurd ((h.initDone_of_running hrun).symm.trans he) nofun
    clkLevel := fun _ => hclk
    dataLevel := fun _ => hdata
    restoreIndex := hi
    pollsBound := hpolls }

/-- A move of the sequencer between two phases with the lines at rest: a command begins, goes on, or ends. -/
theorem State.Inv.moveAtRest (h : s.Inv) (hi : s.status.initDone = true) (hs : s.seq.phase.atRest = true)
    (q : Sequencer) (active : Bool) (hq : q.phase.atRest = true) (ha : active = true ↔ q.phase ≠ .idle)
    (hc : commandMatches q s.status.arb) (hpolls : q.polls ≤ s.params.busyPollMax) (hj : q.j ≤ 16)
    (hw : q.cmd = some .sendChunk → q.j ≤ chunkCount s.len.toNat) :
    State.Inv { s with seq := q, status := { s.status with active := active } } :=
  have hne {p : Phase} (hp : p.atRest = false) : q.phase ≠ p := by
    rintro rfl
    rw [hq] at hp
    cases hp
  { h with
    activePhase := ha
    command := hc
    beforeInit := fun he => absurd (hi.symm.trans he) nofun
    clkLevel := fun _ => (h.clk_atRest hi hs).trans (if_neg (hne rfl)).symm
    dataLevel := fun _ => (h.data_atRest hi hs).trans (dataOutExpected_atRest hq).symm
    restoreIndex := fun he => absurd he (hne rfl)
    pollsBound := hpolls
    wordIndex := hj
    walkIndex := hw }

/-- A command ends, or a fault stops it, where the lines are at rest. -/
theorem State.Inv.toIdle (h : s.Inv) (hi : s.status.initDone = true) (hs : s.seq.phase.atRest = true) :
    State.Inv { s with
      seq := { s.seq with phase := .idle, cmd := none }
      status := { s.status with active := false } } :=
  h.moveAtRest hi hs _ false rfl (by simp) rfl h.pollsBound h.wordIndex nofun

/-- An exchange begins for a caller whose command runs in an ARB state it is allowed in. -/
theorem State.Inv.toPoll (h : s.Inv) (hi : s.status.initDone = true) (hs : s.seq.phase.atRest = true) (caller : Caller)
    (w : Word) (j : Nat) (harb : arbAllowed caller.opcode s.status.arb = true) (hj : j ≤ 16)
    (hw : caller = .sendChunk → j ≤ chunkCount s.len.toNat) :
    State.Inv { s with
      seq := { s.seq with
        phase := .poll, cmd := some caller.opcode, caller := caller, shift := w, polls := 0, i := 0, j := j }
      status := { s.status with active := true } } :=
  h.moveAtRest hi hs _ true rfl (by simp) ((commandMatches_inExchange rfl).mpr ⟨rfl, harb⟩) (Nat.zero_le _) hj
    fun he => hw (Caller.eq_sendChunk (Option.some.inj he))

end Sys2Proof.Machine
end

section
/-! Every micro-step keeps the machine's invariant: one lemma per phase. -/

namespace Sys2Proof.Machine

variable {s : State}

/-- POLL leaves the lines, which are at rest, and takes no poll past the bound. -/
theorem stepPoll_inv (h : s.Inv) (hp : s.seq.phase = .poll) : (stepPoll s).Inv := by
  have hx : s.seq.phase.inExchange = true := by rw [hp]; rfl
  have hr : s.seq.phase.atRest = true := by rw [hp]; rfl
  have hi := h.initDone_of_running (Phase.ne_idle_of_inExchange hx)
  have hclk := h.clk_atRest hi hr
  have hdata := h.data_atRest hi hr
  have hb := h.pollsBound
  rcases stepPoll_cases s with ⟨-, e⟩ | ⟨hne, -, e⟩ | ⟨hne, -, e⟩ <;> rw [e]
  · exact (h.exchangeMove hx .setup 0 s.seq.polls s.lines rfl hclk hdata nofun hb).congr rfl
  · exact (h.exchangeMove hx .poll s.seq.i (s.seq.polls + 1) s.lines rfl hclk hdata nofun (by omega)).congr rfl
  · exact (h.exchangeMove hx .setup 0 (s.seq.polls + 1) s.lines rfl hclk hdata nofun (by omega)).congr rfl

/-- SETUP drives DATA_OUT to the bit of its period, and CLK_OUT stays high. -/
theorem stepSetup_inv (h : s.Inv) (hp : s.seq.phase = .setup) : (stepSetup s).Inv := by
  have hx : s.seq.phase.inExchange = true := by rw [hp]; rfl
  have hclk := h.clkLevel (h.initDone_of_running (Phase.ne_idle_of_inExchange hx))
  simp only [hp, reduceCtorEq, if_false] at hclk
  exact (h.exchangeMove hx .low s.seq.i s.seq.polls
    ((s.lines.set .dataOut (wireBit s.seq.shift s.seq.i.toNat)).set .indOut (wireBit s.seq.shift s.seq.i.toNat))
    rfl hclk rfl nofun h.pollsBound).congr rfl

/-- LOW drives CLK_OUT low, and DATA_OUT holds its bit. -/
theorem stepLow_inv (h : s.Inv) (hp : s.seq.phase = .low) : (stepLow s).Inv := by
  have hx : s.seq.phase.inExchange = true := by rw [hp]; rfl
  have hdata := h.dataLevel (h.initDone_of_running (Phase.ne_idle_of_inExchange hx))
  simp only [dataOutExpected, hp] at hdata
  exact (h.exchangeMove hx .high s.seq.i s.seq.polls (s.lines.set .clkOut false) rfl rfl hdata nofun
    h.pollsBound).congr rfl

/-- HIGH drives CLK_OUT high again, and DATA_OUT holds its bit. -/
theorem stepHigh_inv (h : s.Inv) (hp : s.seq.phase = .high) : (stepHigh s).Inv := by
  have hx : s.seq.phase.inExchange = true := by rw [hp]; rfl
  have hdata := h.dataLevel (h.initDone_of_running (Phase.ne_idle_of_inExchange hx))
  simp only [dataOutExpected, hp] at hdata
  exact (h.exchangeMove hx .sample s.seq.i s.seq.polls (s.lines.set .clkOut true) rfl rfl hdata nofun
    h.pollsBound).congr rfl

/-- SAMPLE leaves the lines: the next SETUP, or RESTORE, still sees the bit of the period that ends. -/
theorem stepSample_inv (h : s.Inv) (hp : s.seq.phase = .sample) : (stepSample s).Inv := by
  have hx : s.seq.phase.inExchange = true := by rw [hp]; rfl
  have hi := h.initDone_of_running (Phase.ne_idle_of_inExchange hx)
  have hclk := h.clkLevel hi
  have hdata := h.dataLevel hi
  simp only [hp, reduceCtorEq, if_false] at hclk
  simp only [dataOutExpected, hp] at hdata
  rcases stepSample_cases s with ⟨hlt, e⟩ | ⟨hlast, e⟩ <;> rw [e]
  · have hnext : (s.seq.i + 1).toNat = s.seq.i.toNat + 1 := by
      rw [BitVec.toNat_add]
      exact Nat.mod_eq_of_lt (show s.seq.i.toNat + 1 < 32 by omega)
    have hne : s.seq.i + 1 ≠ 0 := fun he => by
      rw [he] at hnext
      cases hnext
    have hbit : s.lines.dataOut = dataOutExpected { s.seq with phase := .setup, i := s.seq.i + 1 } := by
      rw [hdata, dataOutExpected, if_neg hne, hnext, Nat.add_sub_cancel]
    exact (h.exchangeMove hx .setup (s.seq.i + 1) s.seq.polls s.lines rfl hclk hbit nofun h.pollsBound).congr rfl
  · have hbit : s.lines.dataOut = dataOutExpected { s.seq with phase := .restore } := by
      simpa [dataOutExpected, hlast] using hdata
    exact (h.exchangeMove hx .restore s.seq.i s.seq.polls s.lines rfl hclk hbit (fun _ => hlast)
      h.pollsBound).congr rfl

/-- RESTORE drives both lines to rest. -/
theorem stepRestore_inv (h : s.Inv) (hp : s.seq.phase = .restore) : (stepRestore s).Inv :=
  (h.exchangeMove (by rw [hp]; rfl) .done s.seq.i s.seq.polls
    ((s.lines.set .clkOut Config.clkIdle).set .dataOut Config.doutIdle) rfl rfl rfl nofun h.pollsBound).congr rfl

/-- DONE stores the received word and hands over to the caller. -/
theorem stepDone_inv (h : s.Inv) (hp : s.seq.phase = .done) : (stepDone s).Inv := by
  have hr : s.seq.phase.atRest = true := by rw [hp]; rfl
  have hne : s.seq.phase ≠ .idle := by rw [hp]; nofun
  have hi := h.initDone_of_running hne
  have hactive := h.activePhase.mpr hne
  have hcmd := (commandMatches_inExchange (by rw [hp]; rfl)).mp h.command
  have hrx := h.receive s.seq.acc
  rcases stepDone_cases s with ⟨-, e⟩ | ⟨hc, e⟩ | ⟨hc, e⟩ <;> rw [e]
  · exact (hrx.toIdle hi hr).congr rfl
  · rw [hc] at hcmd
    obtain ⟨hop, harb⟩ := hcmd
    exact (hrx.moveAtRest hi hr { s.seq with phase := .syncNext } s.status.active rfl (iff_of_true hactive nofun)
      ⟨hop, of_decide_eq_true harb⟩ h.pollsBound h.wordIndex h.walkIndex).congr rfl
  · rw [hc] at hcmd
    obtain ⟨hop, harb⟩ := hcmd
    exact (hrx.moveAtRest hi hr { s.seq with phase := .chunkNext } s.status.active rfl (iff_of_true hactive nofun)
      ⟨hop, of_decide_eq_true harb⟩ h.pollsBound h.wordIndex h.walkIndex).congr rfl

/-- SYNC_NEXT ends SYNC in STREAMING or in COOLDOWN, or begins the next exchange. -/
theorem stepSyncNext_inv (h : s.Inv) (hp : s.seq.phase = .syncNext) : (stepSyncNext s).Inv := by
  have hr : s.seq.phase.atRest = true := by rw [hp]; rfl
  have hne : s.seq.phase ≠ .idle := by rw [hp]; nofun
  have hi := h.initDone_of_running hne
  obtain ⟨hop, harb⟩ : s.seq.cmd = some .sync ∧ s.status.arb = .syncing := by
    simpa only [commandMatches, hp] using h.command
  rcases stepSyncNext_cases s with ⟨-, e⟩ | ⟨-, hl, e⟩ | ⟨-, -, e⟩ <;> rw [e]
  · exact ((h.toIdle hi hr).setSession hi rfl .streaming true false (by simp) nofun).congr rfl
  · exact ((h.toIdle hi hr).setSession hi rfl .cooldown false true (by simp) fun _ => syncExpired_limit hl).congr rfl
  · have hrun := h.toPoll hi hr .sync Config.sentinel s.seq.j (by simp [Caller.opcode, arbAllowed, harb]) h.wordIndex
      nofun
    refine hrun.congr ?_
    rw [← h.activePhase.mpr hne, Caller.opcode, ← hop]

/-- CHUNK_NEXT keeps OFF within 64 and the word index within ⌈LEN/4⌉. -/
theorem stepChunkNext_inv (h : s.Inv) (hp : s.seq.phase = .chunkNext) : (stepChunkNext s).Inv := by
  have hr : s.seq.phase.atRest = true := by rw [hp]; rfl
  have hne : s.seq.phase ≠ .idle := by rw [hp]; nofun
  have hi := h.initDone_of_running hne
  obtain ⟨hop, harb⟩ : s.seq.cmd = some .sendChunk ∧ s.status.arb = .streaming := by
    simpa only [commandMatches, hp] using h.command
  have hlen : s.len.toNat ≤ 64 := h.lenRange
  have hwalk := h.walkIndex hop
  rw [chunkCount_eq] at hwalk
  have hoff : (BitVec.ofNat 7 (4 * s.seq.j)).toNat ≤ 64 := by
    rw [BitVec.toNat_ofNat]
    exact (Nat.mod_le _ _).trans (by omega)
  rcases stepChunkNext_cases s with ⟨-, e⟩ | ⟨w, hj, -, e⟩ | ⟨r, -, -, e⟩ <;> rw [e]
  · exact ((h.toIdle hi hr).setOff hoff).congr rfl
  · have hrun := (h.toPoll hi hr .sendChunk w (s.seq.j + 1) (by simp [Caller.opcode, arbAllowed, harb]) (by omega)
      fun _ => by rw [chunkCount_eq]; omega).setOff hoff
    refine hrun.congr ?_
    rw [← h.activePhase.mpr hne, Caller.opcode, ← hop]
  · exact ((h.toIdle hi hr).setOff hoff).congr rfl

theorem blockStep_inv (h : s.Inv) : (blockStep s).Inv := by
  cases hp : s.seq.phase with
  | idle => rwa [blockStep_idle hp]
  | poll => rw [blockStep_poll hp]; exact stepPoll_inv h hp
  | setup => rw [blockStep_setup hp]; exact stepSetup_inv h hp
  | low => rw [blockStep_low hp]; exact stepLow_inv h hp
  | high => rw [blockStep_high hp]; exact stepHigh_inv h hp
  | sample => rw [blockStep_sample hp]; exact stepSample_inv h hp
  | restore => rw [blockStep_restore hp]; exact stepRestore_inv h hp
  | done => rw [blockStep_done hp]; exact stepDone_inv h hp
  | syncNext => rw [blockStep_syncNext hp]; exact stepSyncNext_inv h hp
  | chunkNext => rw [blockStep_chunkNext hp]; exact stepChunkNext_inv h hp

end Sys2Proof.Machine
end

section
/-! Every move of the host and the reset event keep the machine's invariant. -/

namespace Sys2Proof.Machine

variable {s t : State}

/-- INIT drives both lines high; before it ARB is CONNECTING, so SYNCED is 0. -/
theorem initBody_inv (h : s.Inv) (hi : s.status.initDone = false) : (initBody (s.beginCommand .init)).Inv := by
  obtain ⟨-, -, harb⟩ := h.beforeInit hi
  have hsynced := h.syncedArb
  rw [harb] at hsynced
  exact
    { h with
      activePhase := iff_of_false nofun (fun hne => hne rfl)
      syncedArb := hsynced
      command := rfl
      beforeInit := nofun
      clkLevel := fun _ => rfl
      dataLevel := fun _ => rfl
      restoreIndex := nofun
      walkIndex := nofun }

/-- ENCODE ends or faults: FRAMEW and the marks apart, both leave the block in IDLE. -/
theorem encodeBody_inv (h : s.Inv) (hi : s.status.initDone = true) (hp : s.seq.phase = .idle) :
    (encodeBody (s.beginCommand .encode)).Inv := by
  have hidle := h.toIdle hi (by rw [hp]; rfl)
  unfold encodeBody
  split
  · exact hidle.congr rfl
  · exact hidle.congr rfl

/-- A command that passes the gate keeps Inv. -/
theorem commandBody_inv (op : Opcode) (h : s.Inv) (hp : s.seq.phase = .idle) (hg : s.gate op = none) :
    (commandBody op (s.beginCommand op)).Inv := by
  have hr : s.seq.phase.atRest = true := by rw [hp]; rfl
  by_cases hop : op = .init
  · subst hop
    exact initBody_inv h (gate_init.mp hg)
  obtain ⟨hi, harb⟩ := (gate_none_of hop).mp hg
  have hidle := h.toIdle hi hr
  cases op with
  | init => exact absurd rfl hop
  | exchange => exact (h.toPoll hi hr .exchange s.txw s.seq.j harb h.wordIndex nofun).congr rfl
  | encode => exact encodeBody_inv h hi hp
  | sendChunk =>
    exact (h.moveAtRest hi hr { s.seq with phase := .chunkNext, cmd := some .sendChunk, j := 0 } true rfl
      (iff_of_true rfl nofun) ⟨rfl, of_decide_eq_true harb⟩ h.pollsBound (Nat.zero_le _)
      fun _ => Nat.zero_le _).congr rfl
  | connected =>
    exact (((hidle.setSession hi rfl .syncing false false (by simp) nofun).setOff (v := 0) (by decide)).setLen rfl
      (v := 0) (by decide)).congr rfl
  | sync => exact (h.toPoll hi hr .sync Config.sentinel s.seq.j harb h.wordIndex nofun).congr rfl
  | close => exact (hidle.setSession hi rfl .cooldown false s.status.peerUnresp (by simp) h.unrespBound).congr rfl
  | cooldownDone =>
    have hsynced : s.status.synced = true ↔ ArbState.connecting = .streaming := by
      rw [h.syncedArb, of_decide_eq_true harb]
      simp
    exact (hidle.setSession hi rfl .connecting s.status.synced s.status.peerUnresp hsynced h.unrespBound).congr rfl

theorem commandEffect_inv (op : Opcode) (h : s.Inv) (hp : s.seq.phase = .idle) :
    (commandEffect op (commandBody op) s).Inv := by
  rcases commandEffect_cases op (commandBody op) s with ⟨r, -, e⟩ | ⟨hg, e⟩ <;> rw [e]
  · exact h.congr rfl
  · exact commandBody_inv op h hp hg

/-- A value that is not above the limit fits OFF and LEN (43_control.md R222). -/
theorem setWidth_le_of_not_limit_lt {v : Word} (h : ¬offsetLimit < v) : (v.setWidth 7).toNat ≤ 64 := by
  have hv : v.toNat ≤ 64 := by simpa [offsetLimit, Config.bufSize, BitVec.lt_def] using h
  rw [BitVec.toNat_setWidth]
  exact (Nat.mod_le _ _).trans hv

/-- In IDLE a fault only records its reason. -/
theorem State.Inv.raiseFault_idle (h : s.Inv) (hp : s.seq.phase = .idle) (r : FaultReason) : (s.raiseFault r).Inv := by
  have hcmd : s.seq.cmd = none := by simpa only [commandMatches, hp] using h.command
  have hactive : s.status.active = false := by
    have := h.activePhase
    simpa [hp] using this
  refine h.congr ?_
  unfold State.raiseFault
  rw [← hp, ← hcmd, ← hactive]

theorem EffectCase.inv {i : Instr} (e : EffectCase i s t) (h : s.Inv) (hp : s.seq.phase = .idle) : t.Inv := by
  have hcmd : s.seq.cmd = none := by simpa only [commandMatches, hp] using h.command
  cases e with
  | command => exact commandEffect_inv _ h hp
  | host => exact h.congr rfl
  | refuse => exact h.congr rfl
  | writeTxw => exact h.congr rfl
  | writeOff hv => exact h.setOff (setWidth_le_of_not_limit_lt hv)
  | writeLen hv => exact h.setLen hcmd (setWidth_le_of_not_limit_lt hv)
  | writeBuf v hk => exact h.setBuf (Memory.wf_write _ v h.bufWf hk)
  | readFault _ r => exact (h.raiseFault_idle hp r).congr rfl

/-- The reset event sets every piece of the block Inv reads, and leaves the parameters. -/
theorem applyReset_inv (s : State) : s.applyReset.Inv where
  bufWf := rfl
  offRange := Nat.zero_le _
  lenRange := Nat.zero_le _
  activePhase := iff_of_false nofun (fun hne => hne rfl)
  syncedArb := iff_of_false nofun nofun
  idleDetRxw := show false = isIdle 0 by decide
  command := rfl
  beforeInit := fun _ => ⟨rfl, rfl, rfl⟩
  clkLevel := nofun
  dataLevel := nofun
  restoreIndex := nofun
  pollsBound := Nat.zero_le _
  wordIndex := Nat.zero_le _
  walkIndex := nofun
  unrespBound := nofun

/-- Settles O50: by the cases of a step; each update of the machine keeps what Inv says of the pieces it writes. -/
theorem everyStepKeepsTheInvariants : Obligations.EveryStepKeepsTheInvariants := by
  intro s t h hstep
  have hpass : s.passReset.Inv := h.congr rfl
  cases step_cases hstep with
  | reset => exact applyReset_inv _
  | micro => exact blockStep_inv hpass
  | noMove => exact hpass
  | access _ hp i => exact (hostEffect_cases i _).inv (hpass.congr rfl) hp
  | rejected _ _ d r =>
    rw [rejectAccess_eq]
    exact hpass.congr rfl
  | branch => exact hpass.congr rfl

end Sys2Proof.Machine
end

section
/-! What grows: the sticky marks and the trace, with INIT_DONE and the configuration kept (10_state.md R35, R38, R40). -/

namespace Sys2Proof.Machine

variable {s t u : State}

/-- From `s` to `t` the marks and the trace only grew, INIT_DONE stayed 1 if it was 1, and the configuration is the
same. -/
structure Grows (s t : State) : Prop where
  faulted : s.faulted <+: t.faulted
  refused : s.refused <+: t.refused
  trace : s.trace <+: t.trace
  initDone : s.status.initDone = true → t.status.initDone = true
  config : t.config = s.config

theorem Grows.refl (s : State) : Grows s s := ⟨List.prefix_rfl, List.prefix_rfl, List.prefix_rfl, id, rfl⟩

theorem Grows.trans (a : Grows s t) (b : Grows t u) : Grows s u :=
  ⟨a.faulted.trans b.faulted, a.refused.trans b.refused, a.trace.trans b.trace, b.initDone ∘ a.initDone,
    b.config.trans a.config⟩

theorem emit_grows (s : State) (e : Event) : Grows s (s.emit e) :=
  { Grows.refl s with trace := List.prefix_append _ _ }

theorem line_grows (s : State) (l : OutLine) (v : Bool) : Grows s (s.line l v) :=
  { Grows.refl s with trace := List.prefix_append _ _ }

theorem raiseFault_grows (s : State) (r : FaultReason) : Grows s (s.raiseFault r) :=
  { Grows.refl s with faulted := List.prefix_append _ _ }

theorem raiseRefuse_grows (s : State) (r : RefuseReason) : Grows s (s.raiseRefuse r) :=
  { Grows.refl s with refused := List.prefix_append _ _ }

theorem beginCommand_grows (s : State) (op : Opcode) : Grows s (s.beginCommand op) :=
  { Grows.refl s with trace := List.prefix_append _ _ }

theorem endCommand_grows (s : State) (op : Opcode) : Grows s (s.endCommand op) :=
  { Grows.refl s with trace := List.prefix_append _ _ }

theorem xferBegin_grows (s : State) (w : Word) (c : Caller) : Grows s (s.xferBegin w c) :=
  { Grows.refl s with trace := List.prefix_append _ _ }

/-- A change of the pieces `Grows` does not speak of, or of a STATUS field other than INIT_DONE, before a step that
grows. -/
theorem Grows.of_same (h : Grows t u) (hf : t.faulted = s.faulted) (hr : t.refused = s.refused) (ht : t.trace = s.trace)
    (hi : t.status.initDone = s.status.initDone) (hc : t.config = s.config) : Grows s u :=
  ⟨hf ▸ h.faulted, hr ▸ h.refused, ht ▸ h.trace, hi ▸ h.initDone, hc ▸ h.config⟩

theorem initBody_grows (s : State) : Grows s (initBody s) :=
  have hlines := (line_grows s .clkOut Config.clkIdle).trans (line_grows _ .dataOut Config.doutIdle)
  have hdone := hlines.trans (emit_grows _ .configure)
  { hdone with
    trace := hdone.trace.trans (List.prefix_append _ _)
    initDone := fun _ => rfl }

theorem encodeBody_grows (s : State) : Grows s (encodeBody s) := by
  unfold encodeBody
  split
  · exact (endCommand_grows _ .encode).of_same rfl rfl rfl rfl rfl
  · exact raiseFault_grows s _

theorem commandBody_grows (op : Opcode) (s : State) : Grows s (commandBody op s) := by
  cases op with
  | init => exact initBody_grows s
  | exchange => exact xferBegin_grows s s.txw .exchange
  | encode => exact encodeBody_grows s
  | sendChunk => exact { Grows.refl s with }
  | connected => exact (endCommand_grows _ .connected).of_same rfl rfl rfl rfl rfl
  | sync => exact (xferBegin_grows _ Config.sentinel .sync).of_same rfl rfl rfl rfl rfl
  | close => exact (endCommand_grows _ .close).of_same rfl rfl rfl rfl rfl
  | cooldownDone => exact (endCommand_grows _ .cooldownDone).of_same rfl rfl rfl rfl rfl

theorem commandEffect_grows (op : Opcode) (s : State) : Grows s (commandEffect op (commandBody op) s) := by
  rcases commandEffect_cases op (commandBody op) s with ⟨r, -, e⟩ | ⟨-, e⟩ <;> rw [e]
  · exact raiseRefuse_grows s r
  · exact (beginCommand_grows s op).trans (commandBody_grows op _)

theorem EffectCase.grows {i : Instr} (e : EffectCase i s t) : Grows s t := by
  cases e with
  | command => exact commandEffect_grows _ s
  | host => exact { Grows.refl s with }
  | refuse r => exact { raiseRefuse_grows s r with }
  | writeTxw => exact { Grows.refl s with }
  | writeOff => exact { Grows.refl s with }
  | writeLen => exact { Grows.refl s with }
  | writeBuf => exact { Grows.refl s with }
  | readFault _ r => exact { raiseFault_grows s r with }

theorem blockStep_trace (s : State) : s.trace <+: (blockStep s).trace := by
  cases hp : s.seq.phase with
  | idle => rw [blockStep_idle hp]
  | poll =>
    rw [blockStep_poll hp]
    rcases stepPoll_cases s with ⟨-, e⟩ | ⟨-, -, e⟩ | ⟨-, -, e⟩ <;> rw [e] <;> exact List.prefix_append _ _
  | setup =>
    rw [blockStep_setup hp]
    exact ((line_grows s .dataOut _).trans (line_grows _ .indOut _)).trace
  | low => rw [blockStep_low hp]; exact (line_grows s .clkOut false).trace
  | high => rw [blockStep_high hp]; exact (line_grows s .clkOut true).trace
  | sample =>
    rw [blockStep_sample hp]
    rcases stepSample_cases s with ⟨-, e⟩ | ⟨-, e⟩ <;> rw [e] <;> exact List.prefix_append _ _
  | restore =>
    rw [blockStep_restore hp]
    exact ((line_grows s .clkOut _).trans (line_grows _ .dataOut _)).trace
  | done =>
    rw [blockStep_done hp]
    rcases stepDone_cases s with ⟨-, e⟩ | ⟨-, e⟩ | ⟨-, e⟩ <;> rw [e] <;> exact List.prefix_append _ _
  | syncNext =>
    rw [blockStep_syncNext hp]
    rcases stepSyncNext_cases s with ⟨-, e⟩ | ⟨-, -, e⟩ | ⟨-, -, e⟩ <;> rw [e] <;> exact List.prefix_append _ _
  | chunkNext =>
    rw [blockStep_chunkNext hp]
    rcases stepChunkNext_cases s with ⟨-, e⟩ | ⟨w, -, -, e⟩ | ⟨r, -, -, e⟩
    · rw [e]; exact List.prefix_append _ _
    · rw [e]; exact (List.prefix_append _ _).trans (List.prefix_append _ _)
    · rw [e]

end Sys2Proof.Machine
end

section
/-! The write matrix of 10_state.md R42, for micro-steps and for the steps of the host. -/

namespace Sys2Proof.Machine

variable {s t : State} {i : Instr}

/-- What a micro-step may write and draw besides the frame of `blockStep_frame`, and in which phase. -/
structure MicroWrites (s t : State) : Prop where
  received : t.rxw ≠ s.rxw ∨ t.status.idleDet ≠ s.status.idleDet → s.seq.phase = .done
  framed : t.framew ≠ s.framew ∨ t.off ≠ s.off ∨ t.faulted ≠ s.faulted → s.seq.phase = .chunkNext
  session : t.status.synced ≠ s.status.synced ∨ t.status.arb ≠ s.status.arb ∨ t.status.peerUnresp ≠ s.status.peerUnresp →
    s.seq.phase = .syncNext
  lines : t.lines ≠ s.lines →
    s.seq.phase = .setup ∨ s.seq.phase = .low ∨ s.seq.phase = .high ∨ s.seq.phase = .restore
  busyDraw : t.peer.busyIn ≠ s.peer.busyIn ∨ t.peer.busyDrawn ≠ s.peer.busyDrawn → s.seq.phase = .poll
  dataDraw : t.peer.dataIn ≠ s.peer.dataIn ∨ t.peer.dataDrawn ≠ s.peer.dataDrawn → s.seq.phase = .sample

theorem MicroWrites.refl (s : State) : MicroWrites s s := by constructor <;> simp

theorem blockStep_writes (s : State) : MicroWrites s (blockStep s) := by
  cases hp : s.seq.phase with
  | idle => rw [blockStep_idle hp]; exact .refl s
  | poll =>
    rw [blockStep_poll hp]
    rcases stepPoll_cases s with ⟨-, e⟩ | ⟨-, -, e⟩ | ⟨-, -, e⟩ <;> rw [e] <;>
      exact { MicroWrites.refl s with busyDraw := fun _ => hp }
  | setup => rw [blockStep_setup hp]; exact { MicroWrites.refl s with lines := fun _ => .inl hp }
  | low => rw [blockStep_low hp]; exact { MicroWrites.refl s with lines := fun _ => .inr (.inl hp) }
  | high => rw [blockStep_high hp]; exact { MicroWrites.refl s with lines := fun _ => .inr (.inr (.inl hp)) }
  | sample =>
    rw [blockStep_sample hp]
    rcases stepSample_cases s with ⟨-, e⟩ | ⟨-, e⟩ <;> rw [e] <;>
      exact { MicroWrites.refl s with dataDraw := fun _ => hp }
  | restore => rw [blockStep_restore hp]; exact { MicroWrites.refl s with lines := fun _ => .inr (.inr (.inr hp)) }
  | done =>
    rw [blockStep_done hp]
    rcases stepDone_cases s with ⟨-, e⟩ | ⟨-, e⟩ | ⟨-, e⟩ <;> rw [e] <;>
      exact { MicroWrites.refl s with received := fun _ => hp }
  | syncNext =>
    rw [blockStep_syncNext hp]
    rcases stepSyncNext_cases s with ⟨-, e⟩ | ⟨-, -, e⟩ | ⟨-, -, e⟩ <;> rw [e] <;>
      exact { MicroWrites.refl s with session := fun _ => hp }
  | chunkNext =>
    rw [blockStep_chunkNext hp]
    rcases stepChunkNext_cases s with ⟨-, e⟩ | ⟨w, -, -, e⟩ | ⟨r, -, -, e⟩ <;> rw [e] <;>
      exact { MicroWrites.refl s with framed := fun _ => hp }

/-- A micro-step adds to `faulted` at most the fault of an unwritten byte. -/
theorem blockStep_faulted (s : State) : s.faulted <+: (blockStep s).faulted := by
  by_cases hp : s.seq.phase = .chunkNext
  · rw [blockStep_chunkNext hp]
    rcases stepChunkNext_cases s with ⟨-, e⟩ | ⟨w, -, -, e⟩ | ⟨r, -, -, e⟩
    · rw [e]
    · rw [e]
    · rw [e]; exact List.prefix_append _ _
  · have hsame : (blockStep s).faulted = s.faulted := by
      by_contra hne
      exact hp ((blockStep_writes s).framed (.inr (.inr hne)))
    rw [hsame]

theorem blockStep_grows (s : State) : Grows s (blockStep s) where
  faulted := blockStep_faulted s
  refused := by rw [(blockStep_frame s).refused]
  trace := blockStep_trace s
  initDone := by rw [(blockStep_frame s).initDone]; exact id
  config := (blockStep_frame s).config

/-- Settles O53: a step without a reset is a micro-step or a move of the host, and each lets the marks and the trace
grow. -/
theorem marksAndTraceOnlyGrow : Obligations.MarksAndTraceOnlyGrow := by
  intro s t hr hstep
  have hpass : Grows s s.passReset := { Grows.refl s with }
  have hgrows : Grows s t := by
    cases step_cases hstep with
    | reset due => exact absurd (due.symm.trans (resetDue_false hr)) nofun
    | micro => exact hpass.trans (blockStep_grows _)
    | noMove => exact hpass
    | access _ _ i => exact { (hostEffect_cases i s.passReset.advanceHost).grows with }
    | rejected _ _ d r =>
      rw [rejectAccess_eq]
      exact { raiseRefuse_grows s (refuseReasonOf r) with }
    | branch => exact { hpass with }
  exact ⟨hgrows.faulted, hgrows.refused, hgrows.trace, hgrows.initDone, hgrows.config⟩

/-- Settles O55: outside IDLE a step without a reset is a micro-step, whose frame and writes are known by its phase. -/
theorem microStepsWriteByTheMatrix : Obligations.MicroStepsWriteByTheMatrix := by
  intro s t hp hr hstep
  rw [step_block (resetDue_false hr) hp] at hstep
  cases hstep
  have frame := blockStep_frame s.passReset
  have writes := blockStep_writes s.passReset
  exact ⟨frame.txw, frame.len, frame.buf, frame.initDone, writes.received, writes.framed, writes.session, writes.lines,
    writes.busyDraw, writes.dataDraw⟩

/-- What an instruction may write (10_state.md R42). -/
structure HostWrites (i : Instr) (s t : State) : Prop where
  txw : t.txw ≠ s.txw → ∃ v, i = .wrTxw v
  rxw : t.rxw = s.rxw
  framew : t.framew ≠ s.framew → issues i .encode
  off : t.off ≠ s.off → (∃ v, i = .wrOff v) ∨ issues i .connected
  len : t.len ≠ s.len → (∃ v, i = .wrLen v) ∨ issues i .connected
  initDone : t.status.initDone ≠ s.status.initDone → issues i .init
  idleDet : t.status.idleDet = s.status.idleDet
  synced : t.status.synced ≠ s.status.synced → issues i .connected ∨ issues i .close
  arb : t.status.arb ≠ s.status.arb →
    issues i .init ∨ issues i .connected ∨ issues i .close ∨ issues i .cooldownDone
  peerUnresp : t.status.peerUnresp ≠ s.status.peerUnresp → issues i .connected
  lines : t.lines ≠ s.lines → issues i .init
  buf : ∀ k, Memory.read t.buf k ≠ Memory.read s.buf k → ∃ v, i = .wrbBuf k v
  faulted : t.faulted ≠ s.faulted → issues i .encode ∨ ∃ k, i = .rdbBuf k

theorem HostWrites.refl (i : Instr) (s : State) : HostWrites i s s := by constructor <;> simp

/-- A command that runs writes its column of the matrix. -/
theorem commandBody_writes {op : Opcode} (h : issues i op) (s : State) :
    HostWrites i s (commandBody op (s.beginCommand op)) := by
  cases op with
  | init =>
    exact { HostWrites.refl i s with initDone := fun _ => h, arb := fun _ => .inl h, lines := fun _ => h }
  | exchange => exact { HostWrites.refl i s with }
  | encode =>
    simp only [commandBody, encodeBody]
    split
    · exact { HostWrites.refl i s with framew := fun _ => h }
    · exact { HostWrites.refl i s with faulted := fun _ => .inl h }
  | sendChunk => exact { HostWrites.refl i s with }
  | connected =>
    exact
      { HostWrites.refl i s with
        off := fun _ => .inr h
        len := fun _ => .inr h
        synced := fun _ => .inl h
        arb := fun _ => .inr (.inl h)
        peerUnresp := fun _ => h }
  | sync => exact { HostWrites.refl i s with }
  | close =>
    exact { HostWrites.refl i s with synced := fun _ => .inr h, arb := fun _ => .inr (.inr (.inl h)) }
  | cooldownDone => exact { HostWrites.refl i s with arb := fun _ => .inr (.inr (.inr h)) }

theorem commandEffect_writes {op : Opcode} (h : issues i op) (s : State) :
    HostWrites i s (commandEffect op (commandBody op) s) := by
  rcases commandEffect_cases op (commandBody op) s with ⟨r, -, e⟩ | ⟨-, e⟩ <;> rw [e]
  · exact { HostWrites.refl i s with }
  · exact commandBody_writes h s

theorem EffectCase.writes (e : EffectCase i s t) : HostWrites i s t := by
  have same := HostWrites.refl i s
  cases e with
  | command h => exact commandEffect_writes h s
  | host => exact { same with }
  | refuse => exact { same with }
  | writeTxw v => exact { same with txw := fun _ => ⟨v, rfl⟩ }
  | writeOff => exact { same with off := fun _ => .inl ⟨_, rfl⟩ }
  | writeLen => exact { same with len := fun _ => .inl ⟨_, rfl⟩ }
  | writeBuf v =>
    refine { same with buf := fun q hq => ⟨v, ?_⟩ }
    by_contra hne
    exact hq (Memory.read_write_other s.buf v fun hqk => hne (by rw [hqk]))
  | readFault k => exact { same with faulted := fun _ => .inr ⟨k, rfl⟩ }

/-- Settles O54: an instruction that answers a next state is its effect on an idle block, and the effect of each writes its
column of the matrix. -/
theorem hostStepsWriteByTheMatrix : Obligations.HostStepsWriteByTheMatrix := by
  intro i s t h
  obtain ⟨-, rfl⟩ := exec_next h
  have w := (hostEffect_cases i s).writes
  exact ⟨w.txw, w.rxw, w.framew, w.off, w.len, w.initDone, w.idleDet, w.synced, w.arb, w.peerUnresp, w.lines, w.buf,
    w.faulted⟩

end Sys2Proof.Machine
end

section
/-! The STATUS word (10_state.md R27, R28), and the state after reset (R41). -/

namespace Sys2Proof.Machine

/-- A field of one bit, zero-extended, is that bit. -/
theorem extract_bit (w : Word) (k : Nat) :
    (w.extractLsb' k 1).setWidth Config.wordBits = if w.getLsbD k then 1 else 0 := by
  have hbit : w.extractLsb' k 1 = BitVec.ofBool (w.getLsbD k) := by
    apply BitVec.eq_of_getLsbD_eq
    intro j hj
    obtain rfl : j = 0 := by omega
    simp
  rw [hbit]
  cases w.getLsbD k <;> rfl

/-- Bit k of the STATUS register (10_state.md R27). -/
def Status.bit (st : Status) : Nat → Bool
  | 0 => st.initDone
  | 1 => st.active
  | 2 => st.idleDet
  | 3 => st.synced
  | 4 => st.arb.code.getLsbD 0
  | 5 => st.arb.code.getLsbD 1
  | 6 => st.peerUnresp
  | _ + 7 => false

theorem Status.getLsbD_toWord (st : Status) (k : Nat) : st.toWord.getLsbD k = st.bit k := by
  simp only [Status.toWord, BitVec.getLsbD_setWidth, BitVec.getLsbD_append, BitVec.getLsbD_ofBool]
  match k with
  | 0 | 1 | 2 | 3 | 4 | 5 | 6 => simp [Status.bit]
  | k + 7 => simp [Status.bit]

/-- The ARB field is the code of the ARB state (10_state.md R28). -/
theorem Status.extract_arb (st : Status) : st.toWord.extractLsb' 4 2 = st.arb.code := by
  apply BitVec.eq_of_getLsbD_eq
  intro j hj
  rw [BitVec.getLsbD_extractLsb', Status.getLsbD_toWord]
  obtain rfl | rfl : j = 0 ∨ j = 1 := by omega
  · simp [Status.bit]
  · simp [Status.bit]

/-- Bits [31:7] read 0 (10_state.md R36). -/
theorem Status.extract_reserved (st : Status) : st.toWord.extractLsb' 7 25 = 0 := by
  apply BitVec.eq_of_getLsbD_eq
  intro j hj
  rw [BitVec.getLsbD_extractLsb', Status.getLsbD_toWord, Nat.add_comm]
  simp [Status.bit]

/-- Settles O19: the bits of the word are known one by one, and a branch reads a field back bit by bit. -/
theorem statusWordHoldsItsFields : Obligations.StatusWordHoldsItsFields := by
  intro st
  have field (k : Nat) : (st.toWord.extractLsb' k 1).setWidth Config.wordBits = if st.bit k then 1 else 0 := by
    rw [extract_bit, st.getLsbD_toWord]
  have harb : (st.toWord.extractLsb' 4 2).setWidth 32 = st.arb.code.setWidth 32 := by rw [st.extract_arb]
  have hcode : st.arb.code.setWidth 32 = (match st.arb with
      | .connecting => 0b00
      | .syncing => 0b01
      | .streaming => 0b10
      | .cooldown => 0b11 : Word) := by cases st.arb <;> rfl
  exact ⟨st.getLsbD_toWord 0, st.getLsbD_toWord 1, st.getLsbD_toWord 2, st.getLsbD_toWord 3, st.getLsbD_toWord 6,
    st.extract_reserved, harb.trans hcode, field 0, field 1, field 2, field 3, harb.trans hcode, field 6⟩

/-- Settles O49: Inv holds after any reset event, and the trace after reset holds no data word. -/
theorem resetMeetsTheInvariants : Obligations.ResetMeetsTheInvariants := by
  refine ⟨applyReset_inv State.reset, ?_, nofun, nofun⟩
  intro before w after h
  have hmem : Event.dataWord w ∈ State.reset.trace := by simp [h]
  simp [State.reset] at hmem

end Sys2Proof.Machine
end

section
/-! The outcomes of a host access, in the order of the checks (60_exceptions.md R243): address, width, direction. -/

namespace Sys2Proof

variable {d : BitVec 10} {v : Word}

/-- The reserved ranges of the register map (20_memory.md R66). -/
theorem addressReserved_iff (a : Nat) : addressReserved a = true ↔ 0x1C ≤ a ∧ a ≤ 0x3F ∨ 0x80 ≤ a := by
  simp [addressReserved_eq]

/-- A register address admits an aligned 32-bit access only (20_memory.md R67). -/
theorem widthAdmitted_register {a : Nat} (h : a ≤ 0x1B) (isWord : Bool) :
    widthAdmitted a isWord = true ↔ isWord = true ∧ a % 4 = 0 := by
  simp [widthAdmitted, h]

/-- Above the registers only an 8-bit access is admitted (20_memory.md R67). -/
theorem widthAdmitted_buffer {a : Nat} (h : 0x1B < a) (isWord : Bool) : widthAdmitted a isWord = true ↔ isWord = false := by
  simp [widthAdmitted, Nat.not_le.mpr h]

theorem decode_reserved (h : addressReserved (busAddress d) = true) :
    decode (.bus d v) = .error (.badAddress (busAddress d)) := if_pos h

theorem decode_badWidth (hr : ¬addressReserved (busAddress d) = true)
    (hw : ¬widthAdmitted (busAddress d) (busIsWord d) = true) :
    decode (.bus d v) = .error (.badAccessWidth (busAddress d) (busWidth d)) := by
  simp [decode, decodeBus, hr, hw]

/-- An access of a register that passes the checks of address and width is left to its direction. -/
theorem decode_register (ha : busAddress d ≤ 0x1B) (hs : busIsWord d = true) (haligned : busAddress d % 4 = 0) :
    decode (.bus d v) = if busIsWrite d then decodeRegWrite (busAddress d) v else decodeRegRead (busAddress d) := by
  have hr : ¬addressReserved (busAddress d) = true := by rw [addressReserved_iff]; omega
  have hw : widthAdmitted (busAddress d) (busIsWord d) = true := (widthAdmitted_register ha _).mpr ⟨hs, haligned⟩
  simp [decode, decodeBus, hr, hw, ha]

/-- STATUS, RXW and FRAMEW are not written (43_control.md R222). -/
theorem decodeRegWrite_readOnly {a : Nat} (h : a = 0x04 ∨ a = 0x0C ∨ a = 0x10) (v : Word) :
    decodeRegWrite a v = .error (.readOnly a) := by
  rcases h with rfl | rfl | rfl <;> rfl

/-- Settles O3: the fields of the descriptor decide which check stops the access. -/
theorem inadmissibleAccessesAreRejectedInOrder : Obligations.InadmissibleAccessesAreRejectedInOrder := by
  intro w s a v d n
  obtain ⟨haddr, hword, hwrite⟩ : busAddress d = a.toNat ∧ busIsWord d = s ∧ busIsWrite d = w := desc_fields w s a
  have hwidth : busWidth d = n := by rw [busWidth, hword]
  rw [← haddr, ← hwidth]
  refine ⟨fun hr => decode_reserved ((addressReserved_iff _).mpr hr), fun hreg hbad => ?_, fun hlo hhi hs => ?_,
    fun hcmd hs hread => ?_, fun hro hs hw => ?_⟩
  · refine decode_badWidth (by rw [addressReserved_iff]; omega) ?_
    rw [widthAdmitted_register hreg, hword]
    rintro ⟨hs, haligned⟩
    exact hbad.elim (by simp [hs]) (· haligned)
  · refine decode_badWidth (by rw [addressReserved_iff]; omega) ?_
    rw [widthAdmitted_buffer (by omega), hword, hs]
    decide
  · have ha : busAddress d = 0x00 := by rw [haddr, hcmd]; rfl
    rw [decode_register (by omega) (hword.trans hs) (by omega), hwrite, hread, ha]
    rfl
  · have ha : busAddress d = 0x04 ∨ busAddress d = 0x0C ∨ busAddress d = 0x10 := by
      rcases hro with h | h | h <;> simp [haddr, h]
    rw [decode_register (by omega) (hword.trans hs) (by omega), hwrite, hw]
    exact decodeRegWrite_readOnly ha v

end Sys2Proof
end

section
/-! The stream buffer's list form (20_memory.md R61, R62; log entry 14). -/

namespace Sys2Proof.Machine

/-- Settles O56: the laws of `Memory.write`, and the extensionality of the canonical form. -/
theorem bufferFormIsCanonical : Obligations.BufferFormIsCanonical :=
  ⟨fun m k v hm hk => ⟨Memory.wf_write k v hm hk, Memory.read_write_same m k v, fun _ => Memory.read_write_other m v⟩,
    fun _ _ => Memory.ext⟩

end Sys2Proof.Machine
end

section
/-! The command words (30_encoding.md R85 to R87): decoding one is reading its opcode. -/

namespace Sys2Proof

theorem decode_cmd_some {v : Word} {op : Opcode} (h : opcodeOf v = some op) : decode (.cmd v) = .ok op.instr := by
  simp [decode, decodeCmd, h]

theorem decode_cmd_none {v : Word} (h : opcodeOf v = none) : decode (.cmd v) = .error (.reservedCommand v) := by
  simp [decode, decodeCmd, h]

theorem decode_cmd_eq_error (v : Word) : decode (.cmd v) = .error (.reservedCommand v) ↔ opcodeOf v = none := by
  refine ⟨fun h => ?_, decode_cmd_none⟩
  cases ho : opcodeOf v with
  | none => rfl
  | some op =>
    rw [decode_cmd_some ho] at h
    cases h

/-- What a command word decodes to is the instruction of the opcode it selects. -/
theorem decode_cmd_ok {v : Word} {i : Instr} (h : decode (.cmd v) = .ok i) :
    ∃ op, opcodeOf v = some op ∧ op.instr = i := by
  cases ho : opcodeOf v with
  | none =>
    rw [decode_cmd_none ho] at h
    cases h
  | some op =>
    rw [decode_cmd_some ho] at h
    cases h
    exact ⟨op, rfl, rfl⟩

/-- A command word decodes to a command exactly when it is that command's word (30_encoding.md R86). -/
theorem decode_cmd_eq_instr (v : Word) (op : Opcode) : decode (.cmd v) = .ok op.instr ↔ v = op.word := by
  rw [← opcodeOf_eq_some]
  refine ⟨fun h => ?_, decode_cmd_some⟩
  obtain ⟨op', ho, he⟩ := decode_cmd_ok h
  rw [ho, Opcode.instr_injective he]

/-- Settles O2: the decoder refuses a word exactly when it selects no opcode, and a word selects an opcode exactly when it
is that opcode's word. -/
theorem commandWordsSelectOneCommandOrAreReserved : Obligations.CommandWordsSelectOneCommandOrAreReserved := by
  intro v
  exact ⟨(decode_cmd_eq_error v).trans (opcodeOf_eq_none v), decode_cmd_eq_instr v .init,
    decode_cmd_eq_instr v .exchange, decode_cmd_eq_instr v .encode, decode_cmd_eq_instr v .sendChunk,
    decode_cmd_eq_instr v .connected, decode_cmd_eq_instr v .sync, decode_cmd_eq_instr v .close,
    decode_cmd_eq_instr v .cooldownDone⟩

end Sys2Proof
end

section
/-! The access descriptors (30_encoding.md R88): what an accepted one decodes to, and the round trips. -/

namespace Sys2Proof

variable {d : BitVec 10} {v : Word} {i : Instr}

/-- The accesses of the BUF range, which are 8 bits wide (20_memory.md R66, R67). -/
theorem decode_buffer (hlo : 0x40 ≤ busAddress d) (hhi : busAddress d < 0x80) (hs : busIsWord d = false) :
    decode (.bus d v) = .ok (if busIsWrite d then .wrbBuf (busAddress d - 0x40) (v.setWidth 8)
      else .rdbBuf (busAddress d - 0x40)) := by
  have hr : ¬addressReserved (busAddress d) = true := by rw [addressReserved_iff]; omega
  have hw : widthAdmitted (busAddress d) (busIsWord d) = true := (widthAdmitted_buffer (by omega) _).mpr hs
  have ha : ¬busAddress d ≤ 0x1B := by omega
  cases hd : busIsWrite d <;> simp [decode, decodeBus, hr, hw, ha, hd]

/-- A 32-bit access of an aligned register address is left to its direction. -/
theorem decode_busDesc_register (isWrite : Bool) (a : BitVec 8) (v : Word) (ha : a.toNat ≤ 0x1B)
    (h4 : a.toNat % 4 = 0) :
    decode (.bus (busDesc isWrite true a) v) = if isWrite then decodeRegWrite a.toNat v else decodeRegRead a.toNat := by
  obtain ⟨haddr, hword, hwrite⟩ := desc_fields isWrite true a
  rw [decode_register (by rwa [haddr]) hword (by rwa [haddr]), haddr, hwrite]

/-- An 8-bit access of byte k of BUF reads or writes that byte. -/
theorem decode_busDesc_buffer (isWrite : Bool) {k : Nat} (hk : k < 64) (v : Word) :
    decode (.bus (busDesc isWrite false (BitVec.ofNat 8 (0x40 + k))) v) =
      .ok (if isWrite then .wrbBuf k (v.setWidth 8) else .rdbBuf k) := by
  obtain ⟨haddr, hword, hwrite⟩ := desc_fields isWrite false (BitVec.ofNat 8 (0x40 + k))
  rw [BitVec.toNat_ofNat, Nat.mod_eq_of_lt (by omega)] at haddr
  rw [decode_buffer (by omega) (by omega) hword, hwrite, haddr, Nat.add_sub_cancel_left]

/-- Settles O1: a command by its word, a register access by its address and direction, a BUF access by its index. -/
theorem decodeInvertsEncode : Obligations.DecodeInvertsEncode := by
  intro i h
  have cmd (op : Opcode) : decode (.cmd op.word) = .ok op.instr := decode_cmd_some (opcodeOf_word op)
  have wr (a : BitVec 8) (v : Word) := decode_busDesc_register true a v
  have rd (a : BitVec 8) := decode_busDesc_register false a 0
  cases i with
  | init => exact cmd .init
  | exchange => exact cmd .exchange
  | encode => exact cmd .encode
  | sendChunk => exact cmd .sendChunk
  | connected => exact cmd .connected
  | sync => exact cmd .sync
  | close => exact cmd .close
  | cooldownDone => exact cmd .cooldownDone
  | wrCmd v => exact wr 0x00 v (by decide) rfl
  | rdStatus => exact rd 0x04 (by decide) rfl
  | rdTxw => exact rd 0x08 (by decide) rfl
  | wrTxw v => exact wr 0x08 v (by decide) rfl
  | rdRxw => exact rd 0x0C (by decide) rfl
  | rdFramew => exact rd 0x10 (by decide) rfl
  | rdOff => exact rd 0x14 (by decide) rfl
  | wrOff v => exact wr 0x14 v (by decide) rfl
  | rdLen => exact rd 0x18 (by decide) rfl
  | wrLen v => exact wr 0x18 v (by decide) rfl
  | wrbBuf k v =>
    refine (decode_busDesc_buffer true (of_decide_eq_true h) _).trans ?_
    simp
  | rdbBuf k => exact decode_busDesc_buffer false (of_decide_eq_true h) 0

/-- A descriptor is put together from its own fields. -/
theorem busDesc_fields (d : BitVec 10) : busDesc (busIsWrite d) (busIsWord d) (BitVec.ofNat 8 (busAddress d)) = d := by
  rw [busAddress, BitVec.ofNat_toNat, BitVec.setWidth_eq]
  apply BitVec.eq_of_getLsbD_eq
  intro n hn
  rw [getLsbD_busDesc]
  by_cases h8 : n < 8
  · simp [h8]
  obtain rfl | rfl : n = 8 ∨ n = 9 := by omega
  · simp [busIsWord]
  · simp [busIsWrite]

/-- An accepted access is a 32-bit one of an aligned register address or an 8-bit one of a BUF byte. -/
theorem decode_bus_ok (h : decode (.bus d v) = .ok i) :
    (busIsWord d = true ∧
        (if busIsWrite d then decodeRegWrite (busAddress d) v else decodeRegRead (busAddress d)) = .ok i) ∨
      (busIsWord d = false ∧ 0x40 ≤ busAddress d ∧ busAddress d < 0x80) := by
  by_cases hr : addressReserved (busAddress d) = true
  · rw [decode_reserved hr] at h
    cases h
  by_cases hw : widthAdmitted (busAddress d) (busIsWord d) = true
  · by_cases ha : busAddress d ≤ 0x1B
    · obtain ⟨hs, h4⟩ := (widthAdmitted_register ha _).mp hw
      exact .inl ⟨hs, (decode_register ha hs h4).symm.trans h⟩
    · rw [addressReserved_iff] at hr
      exact .inr ⟨(widthAdmitted_buffer (by omega) _).mp hw, by omega, by omega⟩
  · rw [decode_badWidth hr hw] at h
    cases h

theorem encode_of_decodeRegWrite {a : Nat} (h : decodeRegWrite a v = .ok i) :
    i.wellFormed = true ∧ encode i = .bus (busDesc true true (BitVec.ofNat 8 a)) v := by
  unfold decodeRegWrite at h
  split at h <;> cases h <;> exact ⟨rfl, rfl⟩

theorem encode_of_decodeRegRead {a : Nat} (h : decodeRegRead a = .ok i) :
    i.wellFormed = true ∧ encode i = .bus (busDesc false true (BitVec.ofNat 8 a)) 0 := by
  unfold decodeRegRead at h
  split at h <;> cases h <;> exact ⟨rfl, rfl⟩

/-- The data bits an access uses (30_encoding.md R88; log entry 9): all of a 32-bit write, the low byte of an 8-bit write,
and none of a read. -/
def usedData (d : BitVec 10) (v : Word) : Word :=
  if busIsWrite d then if busIsWord d then v else (v.setWidth 8).setWidth 32 else 0

theorem usedData_wordWrite (hw : busIsWrite d = true) (hs : busIsWord d = true) : usedData d v = v := by
  simp [usedData, hw, hs]

theorem usedData_byteWrite (hw : busIsWrite d = true) (hs : busIsWord d = false) :
    usedData d v = (v.setWidth 8).setWidth 32 := by simp [usedData, hw, hs]

theorem usedData_read (hw : busIsWrite d = false) : usedData d v = 0 := by simp [usedData, hw]

/-- An accepted access is the unit of the well-formed instruction it decodes to, with the data it uses. -/
theorem encode_of_decode_bus (h : decode (.bus d v) = .ok i) :
    i.wellFormed = true ∧ encode i = .bus d (usedData d v) := by
  have hd := busDesc_fields d
  rcases decode_bus_ok h with ⟨hs, hreg⟩ | ⟨hs, hlo, hhi⟩
  · rw [hs] at hd
    cases hw : busIsWrite d with
    | true =>
      rw [hw] at hd hreg
      rw [usedData_wordWrite hw hs, ← hd]
      exact encode_of_decodeRegWrite hreg
    | false =>
      rw [hw] at hd hreg
      rw [usedData_read hw, ← hd]
      exact encode_of_decodeRegRead hreg
  · rw [hs, show busAddress d = 0x40 + (busAddress d - 0x40) by omega] at hd
    rw [decode_buffer hlo hhi hs] at h
    have hk : busAddress d - 0x40 < Config.bufSize := by rw [Config.bufSize_eq]; omega
    cases h
    cases hw : busIsWrite d with
    | true =>
      rw [hw] at hd
      rw [usedData_byteWrite hw hs, if_pos rfl]
      exact ⟨decide_eq_true hk, congrArg (Encoded.bus · _) hd⟩
    | false =>
      rw [hw] at hd
      rw [usedData_read hw, if_neg nofun]
      exact ⟨decide_eq_true hk, congrArg (Encoded.bus · _) hd⟩

/-- Settles O4: an accepted access is put together again from its fields, and its data are those it uses. -/
theorem acceptedDescriptorIsItsInstructions : Obligations.AcceptedDescriptorIsItsInstructions := by
  intro d v i h
  obtain ⟨hwf, henc⟩ := encode_of_decode_bus h
  exact ⟨hwf, usedData d v, henc, usedData_wordWrite, usedData_byteWrite⟩

/-- Settles O5: the decoder evaluates each row. -/
theorem specWordsDecode : Obligations.SpecWordsDecode := by
  unfold Obligations.SpecWordsDecode
  decide

end Sys2Proof
end

section
/-! What the host's next statement makes of a step (30_encoding.md R91): an access runs its instruction, a branch moves
the statement index. -/

namespace Sys2Proof.Machine

variable {s : State} {d : BitVec 10} {v : Word} {i : Instr}

theorem hostMove_access (h : s.host.program[s.host.pc]? = some (.access d v)) (hd : decode (.bus d v) = .ok i) :
    s.hostMove = .access i := by
  simp [State.hostMove, h, hd]

theorem hostMove_bz {x : BranchOperand} {l : Nat} (h : s.host.program[s.host.pc]? = some (.bz x l)) :
    s.hostMove = .branch true x l := by
  simp [State.hostMove, h]

theorem hostMove_bnz {x : BranchOperand} {l : Nat} (h : s.host.program[s.host.pc]? = some (.bnz x l)) :
    s.hostMove = .branch false x l := by
  simp [State.hostMove, h]

/-- In IDLE with no reset due the host moves, and an accepted access runs its instruction (43_control.md R229). -/
theorem step_access (hr : s.resets.head? ≠ some true) (hp : s.seq.phase = .idle)
    (hfetch : s.host.program[s.host.pc]? = some (.access d v)) (hd : decode (.bus d v) = .ok i) :
    step s = exec i s.passReset.advanceHost := by
  have hmove : s.passReset.hostMove = .access i := hostMove_access hfetch hd
  rw [step_host (resetDue_false hr) hp, hmove]

/-- Settles O6: the host's move is the access. -/
theorem stepRunsTheDecodedAccess : Obligations.StepRunsTheDecodedAccess := fun _ _ _ _ => step_access

/-- The access that issues a unit decodes to an instruction of the same meaning: a command word is the data of a write of
CMD (30_encoding.md R91). -/
theorem access_runs_unit {u : Encoded} (h : decode u = .ok i) :
    ∃ j, decode (.bus u.access.1 u.access.2) = .ok j ∧ ∀ s, exec j s = exec i s := by
  cases u with
  | cmd v =>
    obtain ⟨op, ho, rfl⟩ := decode_cmd_ok h
    obtain rfl := (opcodeOf_eq_some v op).mp ho
    exact ⟨.wrCmd op.word, decodeInvertsEncode (.wrCmd op.word) rfl, exec_wrCmd_word op⟩
  | bus d v => exact ⟨i, h, fun _ => rfl⟩

/-- A step whose statement is the access of a unit runs the instruction the unit decodes to. -/
theorem step_unit {u : Encoded} (h : decode u = .ok i) (hr : s.resets.head? ≠ some true) (hp : s.seq.phase = .idle)
    (hfetch : s.host.program[s.host.pc]? = some (.access u.access.1 u.access.2)) :
    step s = exec i s.passReset.advanceHost := by
  obtain ⟨j, hj, hexec⟩ := access_runs_unit h
  rw [step_access hr hp hfetch hj, hexec]

/-- Settles O7: the unit of a well-formed instruction decodes to it. -/
theorem instructionStatementsRunTheirInstruction : Obligations.InstructionStatementsRunTheirInstruction :=
  fun _ i hwf => step_unit (decodeInvertsEncode i hwf)

theorem decodeTableWord_unit {nbits w : Nat} (h : decodeTableWord nbits w = some i) :
    ∃ u, tableUnit nbits w = some u ∧ decode u = .ok i := by
  unfold decodeTableWord at h
  cases hu : tableUnit nbits w with
  | none => simp [hu] at h
  | some u =>
    cases hd : decode u with
    | error r => simp [hu, hd] at h
    | ok j =>
      simp only [hu, hd, Option.some.injEq] at h
      exact ⟨u, rfl, hd.trans (congrArg Except.ok h)⟩

/-- A placed statement stands at its index, however short the program was. -/
theorem placeStmt_getElem? (program : List HostStmt) (k : Nat) (x : HostStmt) : (placeStmt program k x)[k]? = some x := by
  have hlen : (program.take k).length ≤ k := by simp
  rw [placeStmt, List.append_assoc, List.getElem?_append_right hlen,
    List.getElem?_append_left (by rw [List.length_replicate]; omega), List.getElem?_replicate, if_pos (by omega)]

/-- Settles O8: the row's unit is placed where the host fetches next, on a state that meets the conditions of a host
step. -/
theorem tableWordRunsItsInstruction : Obligations.TableWordRunsItsInstruction := by
  intro s nbits w i h
  obtain ⟨u, hu, hd⟩ := decodeTableWord_unit h
  have hplaced : s.withFetchWord nbits w = s.withAccess u := by simp [State.withFetchWord, hu]
  rw [hplaced]
  exact ⟨_, step_unit (s := s.withAccess u) hd nofun rfl (placeStmt_getElem? _ _ _)⟩

/-- After an `rd` that returned a value a branch looks at that value and draws nothing. -/
theorem hostBranch_of_read {w : Word} (h : s.host.lastRead = some w) (onZero : Bool) (x : BranchOperand) (l : Nat) :
    s.hostBranch onZero x l = { s with host := { s.host with
      pc := if decide (s.branchValue x = 0) == onZero then l else s.host.pc + 1 } } := by
  simp [State.hostBranch, h]

theorem branchValue_field {w : Word} (h : s.host.lastRead = some w) (f : StatusField) :
    s.branchValue (.field f) = f.extract w := by
  simp [State.branchValue, h]

theorem branchValue_register {w : Word} (h : s.host.lastRead = some w) : s.branchValue .register = w := by
  simp [State.branchValue, h]

/-- A step whose move is a branch on the value of the preceding `rd`. -/
theorem step_branch {onZero : Bool} {x : BranchOperand} {l : Nat} {w : Word} (hr : s.resets.head? ≠ some true)
    (hp : s.seq.phase = .idle) (hread : s.host.lastRead = some w) (hmove : s.passReset.hostMove = .branch onZero x l) :
    step s = .next { s with
      resets := s.resets.tail
      host := { s.host with pc := if decide (s.branchValue x = 0) == onZero then l else s.host.pc + 1 } } := by
  have hbranch := hostBranch_of_read (s := s.passReset) hread onZero x l
  rw [step_host (resetDue_false hr) hp, hmove]
  exact congrArg Host.Outcome.next hbranch

/-- Settles O10: a branch statement is a host branch, which tests the value of the preceding `rd`. -/
theorem hostBranchesOnThePrecedingRead : Obligations.HostBranchesOnThePrecedingRead := by
  intro s x l w hr hp hread value
  have hvalue : s.branchValue x = value := by
    cases x with
    | field f => exact branchValue_field hread f
    | register => exact branchValue_register hread
  refine ⟨fun hfetch => ?_, fun hfetch => ?_⟩
  · rw [step_branch hr hp hread (hostMove_bz hfetch), hvalue]
    simp
  · rw [step_branch hr hp hread (hostMove_bnz hfetch), hvalue]
    simp

end Sys2Proof.Machine
end

section
/-! The pseudo-operation `load` (30_encoding.md R92): its byte writes, and the write of LEN that ends it. -/

namespace Sys2Proof.Machine

variable {s : State} {i : Instr}

/-- BUF after byte writes from an index on. -/
def Memory.writeBytes (m : Memory) (k : Nat) : List Byte → Memory
  | [] => m
  | b :: rest => Memory.writeBytes (Memory.write m k b) (k + 1) rest

theorem Memory.read_writeBytes_outside (m : Memory) {k q : Nat} (bytes : List Byte)
    (h : q < k ∨ k + bytes.length ≤ q) : Memory.read (Memory.writeBytes m k bytes) q = Memory.read m q := by
  induction bytes generalizing m k with
  | nil => rfl
  | cons b rest ih =>
    rw [List.length_cons] at h
    rw [Memory.writeBytes, ih _ (by omega), Memory.read_write_other _ _ (by omega)]

theorem Memory.read_writeBytes_inside (m : Memory) (k : Nat) {j : Nat} (bytes : List Byte) (h : j < bytes.length) :
    Memory.read (Memory.writeBytes m k bytes) (k + j) = bytes[j]? := by
  induction bytes generalizing m k j with
  | nil => cases h
  | cons b rest ih =>
    cases j with
    | zero => exact (Memory.read_writeBytes_outside _ rest (.inl (by omega))).trans (Memory.read_write_same m k b)
    | succ j =>
      rw [Memory.writeBytes, show k + (j + 1) = k + 1 + j by omega, ih _ _ (Nat.lt_of_succ_lt_succ h),
        List.getElem?_cons_succ]

/-- In IDLE with no reset to come, a step on a well-formed instruction's statement is the instruction's effect. -/
theorem step_stmt {rest : List HostStmt} (hp : s.seq.phase = .idle) (hr : s.resets = []) (hwf : i.wellFormed = true)
    (hprog : s.host.program.drop s.host.pc = stmtOf i :: rest) : step s = .next (hostEffect i s.advanceHost) := by
  have hfetch : s.host.program[s.host.pc]? = some (stmtOf i) := by rw [← List.head?_drop, hprog, List.head?_cons]
  rw [step_unit (decodeInvertsEncode i hwf) (by rw [hr]; nofun) hp hfetch, passReset_of_nil hr]
  exact exec_idle i hp

/-- After a statement the host stands before the rest of its program. -/
theorem drop_advanceHost {x : HostStmt} {rest : List HostStmt} (h : s.host.program.drop s.host.pc = x :: rest) :
    s.advanceHost.host.program.drop s.advanceHost.host.pc = rest := by
  have htail := List.tail_drop (l := s.host.program) (i := s.host.pc)
  rw [h] at htail
  exact htail.symm

@[simp] theorem asmBytes_length (k : Nat) (bytes : List Byte) : (asmBytes k bytes).length = bytes.length := by
  induction bytes generalizing k with
  | nil => rfl
  | cons b bytes ih => simp [asmBytes, ih]

/-- The state after the byte writes of `load` from an index on: BUF is written, and the host stands behind them. -/
def State.afterBytes (s : State) (k : Nat) (bytes : List Byte) : State :=
  { s with
    buf := Memory.writeBytes s.buf k bytes
    host := { s.host with pc := s.host.pc + bytes.length } }

theorem afterBytes_cons (k : Nat) (b : Byte) (bytes : List Byte) :
    s.afterBytes k (b :: bytes) =
      ({ s.advanceHost with buf := Memory.write s.buf k b } : State).afterBytes (k + 1) bytes := by
  simp [State.afterBytes, State.advanceHost, Memory.writeBytes, Nat.add_assoc, Nat.add_comm 1]

theorem drop_afterBytes {k : Nat} {bytes : List Byte} {rest : List HostStmt}
    (h : s.host.program.drop s.host.pc = asmBytes k bytes ++ rest) :
    (s.afterBytes k bytes).host.program.drop (s.afterBytes k bytes).host.pc = rest := by
  have hlen : bytes.length = (asmBytes k bytes).length := (asmBytes_length k bytes).symm
  rw [State.afterBytes, ← List.drop_drop, h, hlen, List.drop_left]

/-- A step on a byte write of an index below 64 writes that byte. -/
theorem step_wrbBuf {k : Nat} {b : Byte} {rest : List HostStmt} (hp : s.seq.phase = .idle) (hr : s.resets = [])
    (hk : k < Config.bufSize) (hprog : s.host.program.drop s.host.pc = stmtOf (.wrbBuf k b) :: rest) :
    step s = .next { s.advanceHost with buf := Memory.write s.buf k b } := by
  rw [step_stmt (i := .wrbBuf k b) hp hr (decide_eq_true hk) hprog, hostEffect, if_pos hk]
  rfl

theorem run_asmBytes (bytes : List Byte) (k : Nat) {rest : List HostStmt} (hp : s.seq.phase = .idle) (hr : s.resets = [])
    (hk : k + bytes.length ≤ 64) (hprog : s.host.program.drop s.host.pc = asmBytes k bytes ++ rest) :
    Host.Core.run Sys2Proof.core bytes.length s = .next (s.afterBytes k bytes) := by
  induction bytes generalizing s k with
  | nil => rfl
  | cons b bytes ih =>
    rw [List.length_cons] at hk
    have hindex : k < Config.bufSize := by rw [Config.bufSize_eq]; omega
    rw [List.length_cons, run_succ_next (step_wrbBuf hp hr hindex hprog), afterBytes_cons]
    exact ih (k + 1) hp hr (by omega) (drop_advanceHost hprog)

/-- A step on a write of LEN with a value of at most 64 writes it (43_control.md R222). -/
theorem step_wrLen {v : Word} {rest : List HostStmt} (hp : s.seq.phase = .idle) (hr : s.resets = []) (hv : v.toNat ≤ 64)
    (hprog : s.host.program.drop s.host.pc = stmtOf (.wrLen v) :: rest) :
    step s = .next { s.advanceHost with len := v.setWidth 7 } := by
  have hlimit : ¬offsetLimit < v := by rw [offsetLimit_lt]; omega
  rw [step_stmt hp hr rfl hprog, hostEffect, if_neg hlimit]

/-- Settles O57: the byte writes, then the write of LEN, whose value of at most 64 is not refused. -/
theorem loadFillsTheBuffer : Obligations.LoadFillsTheBuffer := by
  intro s bytes rest hp hr hlen hprog
  rw [asmLoad, List.append_assoc] at hprog
  have hword : (BitVec.ofNat 32 bytes.length).toNat = bytes.length := by
    rw [BitVec.toNat_ofNat]
    omega
  have hbytes := run_asmBytes bytes 0 hp hr (by omega) hprog
  have hstep := step_wrLen (s := s.afterBytes 0 bytes) hp hr (hword.trans_le hlen) (drop_afterBytes hprog)
  refine ⟨_, (run_add hbytes).trans (run_succ_next hstep), fun k hk => ?_, fun k hk => ?_, ?_, rfl⟩
  · have hread := Memory.read_writeBytes_inside s.buf 0 bytes hk
    rwa [Nat.zero_add] at hread
  · exact Memory.read_writeBytes_outside s.buf bytes (.inr (by omega))
  · change ((BitVec.ofNat 32 bytes.length).setWidth 7).toNat = bytes.length
    rw [BitVec.toNat_setWidth, hword]
    omega

end Sys2Proof.Machine
end

section
/-! The micro-steps of an exchange as steps of the machine, each phase of 40_link_phy.md R113 to R119 with no reset due, and the
first steps of the commands that run exchanges (R112, R127). -/

namespace Sys2Proof.Machine

variable {s t : State}

/-- Outside IDLE with no reset due, a step is the micro-step of the phase. -/
theorem step_micro (hr : s.resets.head? ≠ some true) (hp : s.seq.phase ≠ .idle) (h : blockStep s.passReset = t) :
    step s = .next t := h ▸ step_block (resetDue_false hr) hp

/-- Settles O32: the three cases of POLL. -/
theorem pollSamplesBusyUntilReadyOrBound : Obligations.PollSamplesBusyUntilReadyOrBound := by
  intro s hp hr
  have hstep {t : State} (h : stepPoll s.passReset = t) : step s = .next t :=
    step_micro hr (by simp [hp]) ((blockStep_poll (s := s.passReset) hp).trans h)
  rcases stepPoll_cases s.passReset with ⟨hmax, e⟩ |
    ⟨hmax, (hbusy : s.peer.busyAt 0 = s.params.busyLevel), e⟩ |
    ⟨hmax, (hready : s.peer.busyAt 0 ≠ s.params.busyLevel), e⟩
  · exact ⟨fun _ => hstep e, fun hne => absurd hmax hne⟩
  · refine ⟨fun heq => absurd heq hmax, fun _ => ⟨_, rfl, ?_⟩⟩
    rw [if_neg (not_not.mpr hbusy), if_neg (not_not.mpr hbusy)]
    exact hstep e
  · refine ⟨fun heq => absurd heq hmax, fun _ => ⟨_, rfl, ?_⟩⟩
    rw [if_pos hready, if_pos hready]
    exact hstep e

theorem stepSetup_eq (s : State) :
    stepSetup s = { s with
      lines := { s.lines with
        dataOut := .ofBit (wireBit s.seq.shift s.seq.i.toNat), indOut := .ofBit (wireBit s.seq.shift s.seq.i.toNat) }
      trace := s.trace ++ [.drive .dataOut (wireBit s.seq.shift s.seq.i.toNat),
        .drive .indOut (wireBit s.seq.shift s.seq.i.toNat)]
      seq := { s.seq with phase := .low } } := by
  simp [stepSetup, State.line, State.goto]

theorem stepRestore_eq (s : State) :
    stepRestore s = { s with
      lines := { s.lines with clkOut := .one, dataOut := .one }
      trace := s.trace ++ [.drive .clkOut true, .drive .dataOut true]
      seq := { s.seq with phase := .done } } := by
  simp [stepRestore, State.line, State.goto, Config.clkIdle, Config.doutIdle]

/-- Settles O33: each of the three phases has one micro-step, which drives its lines. -/
theorem setupLowAndHighDriveTheirLines : Obligations.SetupLowAndHighDriveTheirLines := by
  intro s hr
  refine ⟨fun hp => ⟨wireBit s.seq.shift s.seq.i.toNat, rfl, ?_⟩, fun hp => ?_, fun hp => ?_⟩
  · exact step_micro hr (by simp [hp]) ((blockStep_setup (s := s.passReset) hp).trans (stepSetup_eq _))
  · exact step_micro hr (by simp [hp]) (blockStep_low hp)
  · exact step_micro hr (by simp [hp]) (blockStep_high hp)

/-- Settles O34: the two cases of SAMPLE, and the bits of the accumulator after it. -/
theorem sampleAccumulatesAtItsBitPosition : Obligations.SampleAccumulatesAtItsBitPosition := by
  intro s hp hr
  have hstep {t : State} (h : stepSample s.passReset = t) : step s = .next t :=
    step_micro hr (by simp [hp]) ((blockStep_sample (s := s.passReset) hp).trans h)
  refine ⟨_, accumulate s.seq.acc s.seq.i.toNat (s.peer.dataAt 0), rfl,
    fun k => getLsbD_accumulate _ _ _ k s.index_lt, ?_⟩
  rcases stepSample_cases s.passReset with ⟨(hi : s.seq.i.toNat < 31), e⟩ | ⟨(hi : s.seq.i = 31), e⟩
  · rw [if_pos hi, if_pos hi]
    exact hstep e
  · have hlast : ¬s.seq.i.toNat < 31 := by simp [hi]
    rw [if_neg hlast, if_neg hlast]
    exact hstep e

/-- Settles O35: RESTORE has one micro-step, and DONE one for each caller. -/
theorem restoreAndDoneEndTheExchange : Obligations.RestoreAndDoneEndTheExchange := by
  intro s hr
  have hdone {t : State} (hp : s.seq.phase = .done) (h : stepDone s.passReset = t) : step s = .next t :=
    step_micro hr (by simp [hp]) ((blockStep_done (s := s.passReset) hp).trans h)
  refine ⟨fun hp => ?_, fun hp hc => ?_, fun hp hc => ?_⟩
  · exact step_micro hr (by simp [hp]) ((blockStep_restore (s := s.passReset) hp).trans (stepRestore_eq _))
  · rcases stepDone_cases s.passReset with ⟨-, e⟩ | ⟨hc', -⟩ | ⟨hc', -⟩
    · exact hdone hp e
    · exact absurd (hc.symm.trans hc') nofun
    · exact absurd (hc.symm.trans hc') nofun
  · rcases stepDone_cases s.passReset with ⟨hc', -⟩ |
      ⟨(hc' : s.seq.caller = .sync), e⟩ | ⟨(hc' : s.seq.caller = .sendChunk), e⟩
    · exact absurd hc' hc
    · rw [if_pos hc']
      exact hdone hp e
    · rw [if_neg (by rw [hc']; nofun)]
      exact hdone hp e

/-- After INIT a command other than INIT begins in its ARB states. -/
theorem exec_begins {op : Opcode} (hop : op ≠ .init) (hp : s.seq.phase = .idle) (hi : s.status.initDone = true)
    (ha : arbAllowed op s.status.arb = true) : exec op.instr s = .next (commandBody op (s.beginCommand op)) :=
  exec_runs op hp ((gate_none_of hop).mpr ⟨hi, ha⟩)

/-- Settles O38: each command passes its gate, and its body is its first step. -/
theorem exchangeSyncAndSendChunkBegin : Obligations.ExchangeSyncAndSendChunkBegin := by
  intro s hp hi
  refine ⟨?_, fun ha => ?_, fun ha => ?_⟩
  · refine (exec_begins (op := .exchange) nofun hp hi rfl).trans ?_
    simp [commandBody, exchangeBody, State.xferBegin, State.beginCommand]
  · refine (exec_begins (op := .sync) nofun hp hi (by rw [ha]; rfl)).trans ?_
    simp [commandBody, syncBody, State.xferBegin, State.beginCommand, Config.sentinel]
  · exact exec_begins (op := .sendChunk) nofun hp hi (by rw [ha]; rfl)

end Sys2Proof.Machine
end

section
/-! A whole EXCHANGE (40_link_phy.md R127, R130): the run from its first step to IDLE, and the events it adds. -/

namespace Sys2Proof.Machine

variable {s u : State}

/-- The state after the first step of EXCHANGE. -/
def State.exchangeStart (s : State) : State := (s.beginCommand .exchange).xferBegin s.txw .exchange

/-- The state in which EXCHANGE ends. -/
def State.exchanged (s : State) : State :=
  ((s.beginCommand .exchange).afterExchange s.txw .exchange).endCommand .exchange

/-- The events of one EXCHANGE. -/
def State.exchangeEvents (s : State) : List Event :=
  .cmdBegin .exchange :: (s.exchangeTrace s.txw ++ [.cmdEnd .exchange])

theorem exec_exchange (hp : s.seq.phase = .idle) (hi : s.status.initDone = true) :
    exec .exchange s = .next s.exchangeStart := exec_begins (op := .exchange) nofun hp hi rfl

/-- With no reset to come, EXCHANGE runs to its end. -/
theorem run_exchange (hr : s.resets = []) :
    Host.Core.run Sys2Proof.core s.exchangeSteps s.exchangeStart = .next s.exchanged := by
  have hend : blockRun s.exchangeSteps s.exchangeStart = s.exchanged :=
    blockRun_exchange (s.beginCommand .exchange) s.txw .exchange
  rw [← hend]
  exact run_block hr fun m hm => exchange_running (s.beginCommand .exchange) s.txw .exchange hm

theorem exchanged_trace (s : State) : s.exchanged.trace = s.trace ++ s.exchangeEvents := by
  simp only [State.exchanged, State.exchangeEvents, endCommand_trace, afterExchange_trace, beginCommand_trace,
    List.append_assoc, List.cons_append, List.nil_append]
  rfl

/-- Settles O39: the fields of the state EXCHANGE ends in. -/
theorem exchangeRunsToItsEnd : Obligations.ExchangeRunsToItsEnd := by
  intro s hp hi hr
  exact ⟨_, _, _, exec_exchange hp hi, exchangeSteps_le s, run_exchange hr, rfl, rfl, rfl, rfl, rfl, rfl, rfl, rfl, rfl,
    rfl, rfl, rfl, rfl, rfl, rfl, rfl, rfl⟩

/-! ### The events of the busy-wait (R113, R130) -/

/-- The levels the busy-wait samples, in order. -/
def State.polls (s : State) : List Bool := (List.range s.pollCount).map s.peer.busyAt

@[simp] theorem polls_length (s : State) : s.polls.length = s.pollCount := by simp [State.polls]

theorem pollTrace_eq (s : State) :
    s.pollTrace = s.polls.map (Event.sample .busyIn) ++ if s.pollBound then [.busyBound] else [] := by
  simp only [State.pollTrace, State.polls, List.map_map]
  rfl

theorem polls_getLast? {k : Nat} (h : s.pollCount = k + 1) : s.polls.getLast? = some (s.peer.busyAt k) := by
  simp [State.polls, h, List.range_succ]

/-- The busy-wait ends at its bound exactly when every attempt it may make sees "busy". -/
theorem pollsBound_iff (lv : Bool) (f : Nat → Bool) (fuel n : Nat) :
    pollsBound lv f fuel n = true ↔ ∀ k, k < fuel → f (n + k) = lv := by
  induction fuel generalizing n with
  | zero => simp [pollsBound]
  | succ fuel ih =>
    have hnext (k : Nat) : n + 1 + k = n + (k + 1) := by omega
    simp only [pollsBound, Bool.and_eq_true, decide_eq_true_eq, ih, hnext, Nat.forall_lt_succ_left, Nat.add_zero]

/-- A busy-wait that does not end at its bound ends with a sample of "not busy". -/
theorem polls_getLast?_ready (h : s.pollBound = false) :
    ∃ b, s.polls.getLast? = some b ∧ b ≠ s.params.busyLevel := by
  obtain ⟨k, hc, hready⟩ := pollSamples_ready h
  rw [Nat.zero_add] at hready
  exact ⟨_, polls_getLast? hc, hready⟩

/-- A busy-wait that ends at its bound took every sample it may take, and saw "busy" in each. -/
theorem polls_of_bound (h : s.pollBound = true) :
    s.pollCount = s.params.busyPollMax ∧ ∀ b ∈ s.polls, b = s.params.busyLevel := by
  have hcount : s.pollCount = s.params.busyPollMax := pollSamples_bound h
  refine ⟨hcount, fun b hb => ?_⟩
  obtain ⟨k, hk, rfl⟩ := List.mem_map.mp hb
  rw [List.mem_range, hcount] at hk
  simpa using (pollsBound_iff _ _ _ _).mp h k hk

theorem wireBit_wordAt (p : Peer) {k : Nat} (hk : k < 32) : wireBit (p.wordAt 0) k = p.dataAt k := by
  rw [Peer.wordAt_zero, wireBit_wordOfSamples _ hk]

/-- The events of the bit periods, with the word received in the place of the samples (R123). -/
theorem periods_wordAt (tx : Word) (p : Peer) :
    (List.range Config.wordBits).flatMap (periodTrace tx p.dataAt) =
      (List.range Config.wordBits).flatMap (periodTrace tx (wireBit (p.wordAt 0))) :=
  List.flatMap_congr fun k hk => by rw [periodTrace, periodTrace, wireBit_wordAt p (List.mem_range.mp hk)]

/-- Settles O40: the trace in closed form, and what the closed form of the busy-wait says of its samples. -/
theorem exchangeTraceIsTheWireProtocol : Obligations.ExchangeTraceIsTheWireProtocol := by
  intro s hp hi hr
  refine ⟨_, _, _, s.polls, s.pollBound, exec_exchange hp hi, run_exchange hr, rfl, ?_, ?_, ?_, ?_, ?_⟩
  · rw [exchanged_trace, State.exchangeEvents, State.exchangeTrace, pollTrace_eq, periods_wordAt]
    simp only [List.append_assoc, List.cons_append, List.nil_append]
    rfl
  · rw [polls_length]
    exact pollSamples_le _ _ _ _
  · intro n hn
    rw [polls_length] at hn
    have hbusy := pollSamples_busy hn
    rw [Nat.zero_add] at hbusy
    simp [State.polls, hbusy, show n < s.pollCount by omega]
  · constructor
    · intro hb
      obtain ⟨hcount, hbusy⟩ := polls_of_bound hb
      refine ⟨(polls_length s).trans hcount, ?_⟩
      cases hlast : s.polls.getLast? with
      | none => exact .inl (List.getLast?_eq_none_iff.mp hlast)
      | some b => exact .inr (congrArg some (hbusy b (List.mem_of_getLast? hlast)))
    · rintro ⟨-, hlast⟩
      by_contra hb
      obtain ⟨b, hb, hready⟩ := polls_getLast?_ready (Bool.eq_false_iff.mpr hb)
      rcases hlast with hnil | hbusy
      · rw [hnil] at hb
        cases hb
      · exact hready (Option.some.inj (hb.symm.trans hbusy))
  · intro hb
    obtain ⟨b, hb, hready⟩ := polls_getLast?_ready hb
    rw [hb, Bool.eq_not.mpr hready]

/-! ### What the events of an EXCHANGE show (R120 to R123) -/

theorem exchanged_lines (s : State) :
    s.exchanged.lines = { clkOut := .one, dataOut := .one, indOut := .ofBit (s.txw.getLsbD 0) } := rfl

/-- CmdBegin and CmdEnd drive no line, so the events of an EXCHANGE show what its exchange does. -/
theorem exchangeEvents_shows (s : State) :
    (∀ edge, clockEdges edge .one s.exchangeEvents = 32) ∧ dataStable .one .one s.exchangeEvents = true ∧
      (∀ edge, latchedBits edge .one .one s.exchangeEvents =
        (List.range 32).map fun p => Level.ofBit (wireBit s.txw p)) ∧
      dataDrives s.exchangeEvents = exchangeDrives s.txw := by
  obtain ⟨-, -, hedges, hstable, hlatched, -, -, hdrives⟩ := exchangeTrace_shows s s.txw
  refine ⟨fun edge => ?_, ?_, fun edge => ?_, ?_⟩
  · simp [State.exchangeEvents, clockEdges, clockEdges_append, hedges]
  · simp [State.exchangeEvents, dataStable, dataStable_append, hstable]
  · simp [State.exchangeEvents, latchedBits, latchedBits_append, hlatched]
  · simp [State.exchangeEvents, dataDrives, dataDrives_append, hdrives]

/-- Settles O41: the edges and the data window of the closed form. -/
theorem exchangeMakesThirtyTwoClockPulses : Obligations.ExchangeMakesThirtyTwoClockPulses := by
  intro s hp hi hr _ _
  obtain ⟨hedges, hstable, -, -⟩ := exchangeEvents_shows s
  exact ⟨_, _, _, _, exec_exchange hp hi, run_exchange hr, rfl, exchanged_trace s, hedges false, hedges true, hstable, rfl,
    rfl, rfl⟩

/-- Settles O42: the word of the samples at this end, and the drives of DATA_OUT at the peer's. -/
theorem bothEndsReceiveTheWordSent : Obligations.BothEndsReceiveTheWordSent := by
  intro s hp hi hr _ _
  obtain ⟨-, -, hlatched, hdrives⟩ := exchangeEvents_shows s
  have hsent : dataDrives s.exchangeEvents = [s.txw].flatMap exchangeDrives := by simpa using hdrives
  exact ⟨_, _, _, _, exec_exchange hp hi, run_exchange hr, rfl, exchanged_trace s, fun p hp => wireBit_wordAt s.peer hp,
    fun w hw => wordAt_of_peerSends hw, exists_latch hsent Nat.one_pos,
    fun latch w hl => peerReceives_iff hsent rfl hl .one w, hlatched⟩

/-! ### Statelessness (R124) -/

theorem pollCount_congr (hpeer : u.peer = s.peer) (hparams : u.params = s.params) : u.pollCount = s.pollCount := by
  rw [State.pollCount, State.pollCount, hpeer, hparams]

theorem pollBound_congr (hpeer : u.peer = s.peer) (hparams : u.params = s.params) : u.pollBound = s.pollBound := by
  rw [State.pollBound, State.pollBound, hpeer, hparams]

theorem exchangeEvents_congr (htxw : u.txw = s.txw) (hpeer : u.peer = s.peer) (hparams : u.params = s.params) :
    u.exchangeEvents = s.exchangeEvents := by
  simp only [State.exchangeEvents, State.exchangeTrace, State.pollTrace, pollCount_congr hpeer hparams,
    pollBound_congr hpeer hparams, htxw, hpeer]

theorem exchangeSteps_congr (hpeer : u.peer = s.peer) (hparams : u.params = s.params) :
    u.exchangeSteps = s.exchangeSteps := by
  rw [exchangeSteps_eq, exchangeSteps_eq, pollCount_congr hpeer hparams, pollBound_congr hpeer hparams]

/-- Settles O43: the closed form of EXCHANGE reads the word, the draws and the parameters alone. -/
theorem exchangesAreStateless : Obligations.ExchangesAreStateless := by
  intro s u hp hi hr hp' hi' hr' htxw hpeer hparams
  have hrun := run_exchange hr'
  rw [exchangeSteps_congr hpeer hparams] at hrun
  have hrxw : s.exchanged.rxw = u.exchanged.rxw := congrArg (Peer.wordAt · 0) hpeer.symm
  refine ⟨_, _, _, _, _, _, exec_exchange hp hi, exec_exchange hp' hi', run_exchange hr, hrun, rfl, rfl,
    exchanged_trace s, exchangeEvents_congr htxw hpeer hparams ▸ exchanged_trace u, hrxw, congrArg isIdle hrxw, ?_⟩
  rw [exchanged_lines, exchanged_lines, htxw]

end Sys2Proof.Machine
end

section
/-! A whole SEND_CHUNK (41_framer.md R156, R157) over a written chunk: its walk of ⌈LEN/4⌉ words, and the end. -/

namespace Sys2Proof.Machine

variable {s : State}

/-- The state after the first step of SEND_CHUNK. -/
def State.chunkBegun (s : State) : State := sendChunkBody (s.beginCommand .sendChunk)

theorem exec_sendChunk (hp : s.seq.phase = .idle) (hi : s.status.initDone = true) (ha : s.status.arb = .streaming) :
    exec .sendChunk s = .next s.chunkBegun := exec_begins (op := .sendChunk) nofun hp hi (by rw [ha]; rfl)

@[simp] theorem chunkBegun_len (s : State) : s.chunkBegun.len = s.len := rfl
@[simp] theorem chunkBegun_buf (s : State) : s.chunkBegun.buf = s.buf := rfl
@[simp] theorem chunkBegun_j (s : State) : s.chunkBegun.seq.j = 0 := rfl
@[simp] theorem chunkBegun_trace (s : State) : s.chunkBegun.trace = s.trace ++ [.cmdBegin .sendChunk] := rfl

/-- With no reset to come and every byte written, SEND_CHUNK walks ⌈LEN/4⌉ words and then ends. -/
theorem run_sendChunk (hr : s.resets = []) (hlen : s.len.toNat ≤ 64) (hw : chunkWritten s.buf s.len.toNat) :
    ∃ w k, ChunkReached s.chunkBegun w (chunkCount s.len.toNat) k ∧
      Host.Core.run Sys2Proof.core (k + 1) s.chunkBegun =
        .next (({ w with off := BitVec.ofNat 7 (4 * chunkCount s.len.toNat) } : State).endCommand .sendChunk) := by
  have hcount := chunkCount_eq s.len.toNat
  obtain ⟨w, k, hk⟩ := chunk_reached (chunkCount s.len.toNat) s.chunkBegun rfl (by simp; omega) hlen
    fun q _ hq => hw q hq
  have hindex : w.seq.j = chunkCount s.len.toNat := by simpa using hk.index
  have hwlen : w.len = s.len := hk.frame.len
  have hend := stepChunkNext_end (s := w) (by rw [hindex, hwlen]; omega)
  have hrun := run_block_succ (s := s.chunkBegun) (n := k) hr (by rw [hk.run, hk.phase]; nofun)
  rw [blockRun_add, hk.run, blockRun_one, blockStep_chunkNext hk.phase, hend, hindex] at hrun
  exact ⟨w, k, hk, hrun⟩

/-- Settles O58: DATA_OUT is driven by the exchanges of the walk alone, and exchange m sends word m of the chunk. -/
theorem peerReceivesTheWordsOfTheChunk : Obligations.PeerReceivesTheWordsOfTheChunk := by
  intro s hp hi ha hr hlen hw
  obtain ⟨w, k, hk, hrun⟩ := run_sendChunk hr hlen hw
  obtain ⟨ev, htrace, -, hev⟩ := hk.events
  set words := (List.range (chunkCount s.len.toNat)).map (chunkWord s.buf s.len.toNat)
  have hdrives : dataDrives (.cmdBegin .sendChunk :: (ev ++ [.cmdEnd .sendChunk])) = words.flatMap exchangeDrives := by
    simpa [dataDrives, dataDrives_append] using hev.drives
  refine ⟨_, _, _, _, exec_sendChunk hp hi ha, hrun, rfl, by simp [htrace], fun m hm =>
    ⟨exists_latch hdrives (by simpa [words] using hm), fun latch x hl => ?_⟩⟩
  have hsent : words[m]? = some (chunkWord s.buf s.len.toNat m) := by simp [words, hm]
  rw [peerReceives_iff hdrives hsent hl, frameWord_chunk hw, Except.ok.injEq, eq_comm]

end Sys2Proof.Machine
end

section
/-! The words of `encode` (41_framer.md R150, R154, R155), byte by byte. -/

namespace Sys2Proof.Machine

variable {buf : Memory} {off len : Nat}

theorem pack_unpack (w : Word) :
    pack [w.extractLsb' 24 8, w.extractLsb' 16 8, w.extractLsb' 8 8, w.extractLsb' 0 8] = w := by
  refine BitVec.eq_of_getLsbD_eq fun i hi => ?_
  change i < 32 at hi
  simp only [getLsbD_pack, BitVec.getLsbD_extractLsb']
  split_ifs with h0 h1 h2
  · simp [h0]
  · simp [show i - 8 < 8 by omega, show 8 + (i - 8) = i by omega]
  · simp [show i - 16 < 8 by omega, show 16 + (i - 16) = i by omega]
  · simp [show i - 24 < 8 by omega, show 24 + (i - 24) = i by omega]

theorem except_bind_ok {ε α β : Type} {x : Except ε α} {f : α → Except ε β} {b : β} (h : x.bind f = .ok b) :
    ∃ a, x = .ok a ∧ f a = .ok b := by
  cases x with
  | error e => cases h
  | ok a => exact ⟨a, rfl, h⟩

/-- A word that `encode` answers is made of the bytes of its four positions. -/
theorem frameWord_ok_bytes {w : Word} (h : frameWord buf off len = .ok w) :
    ∃ c0 c1 c2 c3, frameByte buf len off = .ok c0 ∧ frameByte buf len (off + 1) = .ok c1 ∧
      frameByte buf len (off + 2) = .ok c2 ∧ frameByte buf len (off + 3) = .ok c3 ∧ w = pack [c0, c1, c2, c3] := by
  rw [frameWord_eq_bind] at h
  obtain ⟨c0, h0, h⟩ := except_bind_ok h
  obtain ⟨c1, h1, h⟩ := except_bind_ok h
  obtain ⟨c2, h2, h⟩ := except_bind_ok h
  obtain ⟨c3, h3, h⟩ := except_bind_ok h
  exact ⟨c0, c1, c2, c3, h0, h1, h2, h3, (Except.ok.inj h).symm⟩

/-- `encode` answers `w` exactly when its four positions yield the bytes of `w`, the most significant first. -/
theorem frameWord_eq_ok_iff {w : Word} :
    frameWord buf off len = .ok w ↔
      frameByte buf len off = .ok (w.extractLsb' 24 8) ∧ frameByte buf len (off + 1) = .ok (w.extractLsb' 16 8) ∧
        frameByte buf len (off + 2) = .ok (w.extractLsb' 8 8) ∧
        frameByte buf len (off + 3) = .ok (w.extractLsb' 0 8) := by
  constructor
  · intro h
    obtain ⟨c0, c1, c2, c3, h0, h1, h2, h3, rfl⟩ := frameWord_ok_bytes h
    have hunpack := unpack_pack c0 c1 c2 c3
    simp only [unpack_eq, List.cons.injEq, and_true] at hunpack
    obtain ⟨e0, e1, e2, e3⟩ := hunpack
    rw [e0, e1, e2, e3]
    exact ⟨h0, h1, h2, h3⟩
  · rintro ⟨h0, h1, h2, h3⟩
    rw [frameWord_of_bytes h0 h1 h2 h3, pack_unpack]

/-- A position yields a byte other than 0 exactly when that byte stands written below the valid length. -/
theorem frameByte_eq_ok_iff {q : Nat} {b : Byte} (hb : b ≠ 0) :
    frameByte buf len q = .ok b ↔ q < len ∧ Memory.read buf q = some b := by
  constructor
  · intro h
    by_cases hq : q < len
    · cases hr : Memory.read buf q with
      | none => rw [frameByte_unwritten hq hr] at h; cases h
      | some c =>
        rw [frameByte_written hq hr] at h
        exact ⟨hq, congrArg some (Except.ok.inj h)⟩
    · rw [frameByte_past (Nat.le_of_not_lt hq)] at h
      exact absurd (Except.ok.inj h).symm hb
  · rintro ⟨hq, hr⟩
    exact frameByte_written hq hr

/-- The positions are read in rising order, so the lowest unwritten one below the valid length is the fault. -/
theorem frameWord_unwritten {k : Nat} (hk : k < 4) (hq : off + k < len) (hnone : Memory.read buf (off + k) = none)
    (hbelow : ∀ m, m < k → off + m < len → (Memory.read buf (off + m)).isSome) :
    frameWord buf off len = .error (.unwrittenBufferByte (off + k)) := by
  have hfault := frameByte_unwritten hq hnone
  have hok (m : Nat) (hm : m < k) := frameByte_chunk (hbelow m hm)
  rw [frameWord_eq_bind]
  match k, hk with
  | 0, _ => rw [show frameByte buf len off = _ from hfault]; rfl
  | 1, _ => rw [show frameByte buf len off = _ from hok 0 (by decide), hfault]; rfl
  | 2, _ => rw [show frameByte buf len off = _ from hok 0 (by decide), hok 1 (by decide), hfault]; rfl
  | 3, _ =>
    rw [show frameByte buf len off = _ from hok 0 (by decide), hok 1 (by decide), hok 2 (by decide), hfault]
    rfl

/-- Settles O28: the bytes of the word are those of its positions, and the lowest unwritten position is the fault. -/
theorem encodePacksBigEndianWithZeroFill : Obligations.EncodePacksBigEndianWithZeroFill := by
  intro buf off len
  refine ⟨fun hwritten => ?_, fun k => frameWord_unwritten⟩
  have hbyte (k : Nat) (hk : k < 4) := frameByte_chunk (hwritten k hk)
  have hword := frameWord_of_bytes (hbyte 0 (by decide)) (hbyte 1 (by decide)) (hbyte 2 (by decide))
    (hbyte 3 (by decide))
  obtain ⟨h0, h1, h2, h3⟩ := frameWord_eq_ok_iff.mp hword
  refine ⟨_, hword, fun k hk => ?_⟩
  match k, hk with
  | 0, hk => exact Except.ok.inj (h0.symm.trans (hbyte 0 hk))
  | 1, hk => exact Except.ok.inj (h1.symm.trans (hbyte 1 hk))
  | 2, hk => exact Except.ok.inj (h2.symm.trans (hbyte 2 hk))
  | 3, hk => exact Except.ok.inj (h3.symm.trans (hbyte 3 hk))

/-- Settles O29: no byte of SENTINEL is 0, so no position of a colliding word is zero-filled. -/
theorem onlyAFullSentinelWordCollides : Obligations.OnlyAFullSentinelWordCollides := by
  intro buf off len
  have e0 : Config.sentinel.extractLsb' 24 8 = 0xDE := by decide
  have e1 : Config.sentinel.extractLsb' 16 8 = 0xAD := by decide
  have e2 : Config.sentinel.extractLsb' 8 8 = 0xB0 := by decide
  have e3 : Config.sentinel.extractLsb' 0 8 = 0x0F := by decide
  rw [frameWord_eq_ok_iff, e0, e1, e2, e3, frameByte_eq_ok_iff (by decide), frameByte_eq_ok_iff (by decide),
    frameByte_eq_ok_iff (by decide), frameByte_eq_ok_iff (by decide)]
  constructor
  · rintro ⟨⟨-, h0⟩, ⟨-, h1⟩, ⟨-, h2⟩, hlt, h3⟩
    exact ⟨hlt, h0, h1, h2, h3⟩
  · rintro ⟨hlen, h0, h1, h2, h3⟩
    exact ⟨⟨by omega, h0⟩, ⟨by omega, h1⟩, ⟨by omega, h2⟩, by omega, h3⟩

/-- Settles O30: the word packs the four bytes, and decode is unpack for every word but SENTINEL. -/
theorem fourBytesRoundTrip : Obligations.FourBytesRoundTrip := by
  intro buf off len b0 b1 b2 b3 hlen h0 h1 h2 h3
  have hword : frameWord buf off len = .ok (pack [b0, b1, b2, b3]) :=
    frameWord_of_bytes (frameByte_written (by omega) h0) (frameByte_written (by omega) h1)
      (frameByte_written (by omega) h2) (frameByte_written (by omega) h3)
  refine ⟨_, hword, unpack_pack b0 b1 b2 b3, ?_⟩
  rw [linkDecode, unpack_pack, isIdle]
  simp only [decide_eq_true_eq]
  rfl

end Sys2Proof.Machine
end

section
/-! The single steps of the framer: ENCODE (41_framer.md R151) and CHUNK_NEXT (R156, R161). -/

namespace Sys2Proof.Machine

variable {s t : State}

theorem encodeBody_ok {w : Word} (h : frameWord s.buf s.off.toNat s.len.toNat = .ok w) :
    encodeBody s = ({ s with framew := w } : State).endCommand .encode := by
  simp only [encodeBody, h]

theorem encodeBody_error {r : FaultReason} (h : frameWord s.buf s.off.toNat s.len.toNat = .error r) :
    encodeBody s = s.raiseFault r := by
  simp only [encodeBody, h]

/-- Settles O27: ENCODE passes its gate, and its body ends the command or faults. -/
theorem encodeWritesFramewOrFaults : Obligations.EncodeWritesFramewOrFaults := by
  intro s hp hi
  have hbegin : exec .encode s = .next (encodeBody (s.beginCommand .encode)) :=
    exec_begins (op := .encode) nofun hp hi rfl
  refine ⟨fun w hw => ?_, fun r hr => ?_⟩
  · rw [hbegin, encodeBody_ok (s := s.beginCommand .encode) hw]
    simp [State.beginCommand, State.endCommand]
  · rw [hbegin, encodeBody_error (s := s.beginCommand .encode) hr]
    rfl

/-- Settles O37: the three cases of CHUNK_NEXT. -/
theorem chunkNextSendsTheNextWordOrEnds : Obligations.ChunkNextSendsTheNextWordOrEnds := by
  intro s hp hr
  have hstep {t : State} (h : stepChunkNext s.passReset = t) : step s = .next t :=
    step_micro hr (by simp [hp]) ((blockStep_chunkNext (s := s.passReset) hp).trans h)
  rcases stepChunkNext_cases s.passReset with ⟨(hj : s.len.toNat ≤ 4 * s.seq.j), e⟩ |
    ⟨w, (hj : 4 * s.seq.j < s.len.toNat), (hw : frameWord s.buf (4 * s.seq.j) s.len.toNat = .ok w), e⟩ |
    ⟨r, (hj : 4 * s.seq.j < s.len.toNat), (hf : frameWord s.buf (4 * s.seq.j) s.len.toNat = .error r), e⟩
  · exact ⟨fun _ => hstep e, fun hlt => absurd hj (by omega), fun hlt => absurd hj (by omega)⟩
  · refine ⟨fun hle => absurd hj (by omega), fun _ w' hw' => ?_, fun _ r hf => ?_⟩
    · cases hw.symm.trans hw'
      exact hstep e
    · cases hw.symm.trans hf
  · refine ⟨fun hle => absurd hj (by omega), fun _ w hw => ?_, fun _ r' hf' => ?_⟩
    · cases hf.symm.trans hw
    · cases hf.symm.trans hf'
      exact hstep e

/-- CHUNK_NEXT on a word with an unwritten byte below LEN: OFF moves and the fault ends the command. -/
theorem stepChunkNext_fault {r : FaultReason} (hj : 4 * s.seq.j < s.len.toNat)
    (hf : frameWord s.buf (4 * s.seq.j) s.len.toNat = .error r) :
    stepChunkNext s = ({ s with off := BitVec.ofNat 7 (4 * s.seq.j) } : State).raiseFault r := by
  rcases stepChunkNext_cases s with ⟨hj', -⟩ | ⟨w, -, hw, -⟩ | ⟨r', -, hf', e⟩
  · exact absurd hj (by omega)
  · cases hf.symm.trans hw
  · cases hf.symm.trans hf'
    exact e

end Sys2Proof.Machine
end

section
/-! A whole SEND_CHUNK: what its walk leaves of the state it began in, and its two ends: CmdEnd after the whole chunk
(41_framer.md R156 to R158), and the fault (60_exceptions.md R241). -/

namespace Sys2Proof.Machine

variable {s w : State} {n k : Nat}

/-! ### The walk, seen from the state SEND_CHUNK began in -/

section Walk
variable (h : ChunkReached s.chunkBegun w n k)
include h

theorem ChunkReached.begun_framew :
    w.framew = if n = 0 then s.framew else chunkWord s.buf s.len.toNat (n - 1) := by
  have hframew := h.framew
  rwa [chunkBegun_j, Nat.zero_add] at hframew

theorem ChunkReached.begun_lines :
    w.lines = if n = 0 then s.lines else
      { clkOut := .one, dataOut := .one, indOut := .ofBit ((chunkWord s.buf s.len.toNat (n - 1)).getLsbD 0) } := by
  have hlines := h.lines
  rwa [chunkBegun_j, Nat.zero_add] at hlines

theorem ChunkReached.begun_status :
    w.status = { s.status with
      active := true
      idleDet := if n = 0 then s.status.idleDet else isIdle w.rxw } := by
  obtain ⟨d, hd⟩ := h.status
  have hdet : d = if n = 0 then s.status.idleDet else isIdle w.rxw := by
    have hstatus : w.status.idleDet = d := by rw [hd]
    split
    · rename_i hn
      rw [← hstatus, h.untouched hn]
      rfl
    · rename_i hn
      rw [← hstatus, h.idleDet hn]
  rw [hd, hdet]
  rfl

/-- CmdBegin drives no line and carries no word, so the events since SEND_CHUNK show what its exchanges do. -/
theorem ChunkReached.begun_events :
    ∃ ev, w.trace = s.trace ++ ev ∧ dataWords ev = (List.range n).map (chunkWord s.buf s.len.toNat) ∧
      ExchangeEvents ((List.range n).map (chunkWord s.buf s.len.toNat)) ev := by
  obtain ⟨ev, htrace, hdata, hev⟩ := h.events
  simp only [chunkBegun_j, Nat.zero_add] at hdata hev
  have hbegin : ExchangeEvents [] [.cmdBegin .sendChunk] := .silent (by simp [Event.silent])
  exact ⟨.cmdBegin .sendChunk :: ev, by simpa using htrace, hdata, hbegin.append hev⟩

/-- With no reset to come, the step after the walk is CHUNK_NEXT's. -/
theorem ChunkReached.run_next (hr : s.resets = []) :
    Host.Core.run Sys2Proof.core (k + 1) s.chunkBegun = .next (stepChunkNext w) := by
  rw [run_block_succ (s := s.chunkBegun) hr (by rw [h.run, h.phase]; nofun), blockRun_add, h.run, blockRun_one,
    blockStep_chunkNext h.phase]

end Walk

/-! ### The full walk -/

theorem chunkCount_eq_zero (s : State) : chunkCount s.len.toNat = 0 ↔ s.len = 0 := by
  rw [chunkCount_eq, ← BitVec.toNat_inj]
  change (s.len.toNat + 3) / 4 = 0 ↔ s.len.toNat = 0
  omega

/-- OFF holds a stride boundary of a buffer of 64 bytes. -/
theorem toNat_strideOffset {j : Nat} (h : 4 * j ≤ 64) : (BitVec.ofNat 7 (4 * j)).toNat = 4 * j := by
  rw [BitVec.toNat_ofNat]
  omega

/-- Settles O44: the walk of all words, and CmdEnd after it. -/
theorem sendChunkSendsTheWordsOfTheChunk : Obligations.SendChunkSendsTheWordsOfTheChunk := by
  intro s hp hi ha hr hlen hw
  obtain ⟨w, k, hk, hrun⟩ := run_sendChunk hr hlen hw
  obtain ⟨ev, htrace, hdata, hev⟩ := hk.begun_events
  have hcount := chunkCount_eq s.len.toNat
  have hedges (edge : Bool) : clockEdges edge .one (ev ++ [.cmdEnd .sendChunk]) = 32 * chunkCount s.len.toNat := by
    simp [clockEdges_append, clockEdges, hev.edges]
  have hframew := hk.begun_framew
  have hrxw := hk.rxw
  have hlines := hk.begun_lines
  have hstatus := hk.begun_status
  simp only [chunkCount_eq_zero] at hframew hrxw hlines hstatus
  refine ⟨_, _, k + 1, ev ++ [.cmdEnd .sendChunk], exec_sendChunk hp hi ha, Nat.succ_le_succ hk.atMost, hrun, rfl, rfl,
    by simp [htrace], by simp [dataWords_append, dataWords, hdata], by simp [sentWords_append, sentWords, hev.words],
    frameWord_chunk hw, hedges false, hedges true, toNat_strideOffset (by omega), hframew, hrxw, ?_, hlines,
    hk.frame.txw, hk.frame.len, hk.frame.buf, hk.tries, hk.faulted, hk.frame.refused, hk.frame.host, hk.frame.config⟩
  rw [endCommand_status, hstatus]
  rfl

/-! ### The bytes of the chunk (R158) -/

theorem unpack_chunkWord (buf : Memory) (len j : Nat) :
    unpack (chunkWord buf len j) = (List.range 4).map fun k => chunkByte buf len (4 * j + k) := by
  rw [chunkWord_eq, unpack_pack]
  rfl

/-- The words of a chunk unpack to its bytes in order. -/
theorem flatMap_unpack_chunkWord (buf : Memory) (len n : Nat) :
    ((List.range n).map (chunkWord buf len)).flatMap unpack = (List.range (4 * n)).map (chunkByte buf len) := by
  induction n with
  | zero => rfl
  | succ n ih =>
    rw [List.range_succ, List.map_append, List.flatMap_append, ih, Nat.mul_succ, List.range_add, List.map_append,
      List.map_map]
    simp [unpack_chunkWord, Function.comp_def]

theorem chunkByte_written {buf : Memory} {len q : Nat} (hw : chunkWritten buf len) (hq : q < len) :
    some (chunkByte buf len q) = Memory.read buf q := by
  obtain ⟨b, hb⟩ := Option.isSome_iff_exists.mp (hw q hq)
  simp [chunkByte, hq, hb]

theorem chunkByte_past {buf : Memory} {len q : Nat} (hq : len ≤ q) : chunkByte buf len q = 0 := by
  simp [chunkByte, Nat.not_lt.mpr hq]

/-- Settles O31: the words sent are those of O44, and their bytes are the chunk's, then zeros. -/
theorem chunkWordsUnpackToTheChunk : Obligations.ChunkWordsUnpackToTheChunk := by
  intro s hp hi ha hr hlen hw
  obtain ⟨t₁, t, k, ev, hexec, -, hrun, hidle, -, htrace, hdata, hsent, hframe, -⟩ :=
    sendChunkSendsTheWordsOfTheChunk s hp hi ha hr hlen hw
  have hcount := chunkCount_eq s.len.toNat
  have hbytes : (sentWords ev).flatMap unpack =
      (List.range s.len.toNat).map (chunkByte s.buf s.len.toNat) ++
        (List.range (4 * chunkCount s.len.toNat - s.len.toNat)).map fun q =>
          chunkByte s.buf s.len.toNat (s.len.toNat + q) := by
    rw [hsent, flatMap_unpack_chunkWord,
      show 4 * chunkCount s.len.toNat = s.len.toNat + (4 * chunkCount s.len.toNat - s.len.toNat) by omega,
      List.range_add, List.map_append, List.map_map, Nat.add_sub_cancel_left]
    rfl
  refine ⟨t₁, t, k, ev, hexec, hrun, hidle, htrace, hdata.trans hsent.symm, ?_, ?_, ?_⟩
  · rw [hsent, List.map_map]
    exact List.map_congr_left fun j _ => (hframe j).symm
  · rw [hbytes, List.take_left' (by simp), List.map_map]
    exact List.map_congr_left fun q hq => chunkByte_written hw (List.mem_range.mp hq)
  · rw [hbytes, List.drop_left' (by simp)]
    intro b hb
    obtain ⟨q, -, rfl⟩ := List.mem_map.mp hb
    exact chunkByte_past (by omega)

/-! ### The fault -/

/-- With no reset to come, SEND_CHUNK walks the words before that of the first unwritten byte, and faults at it. -/
theorem run_sendChunk_fault {q : Nat} (hr : s.resets = []) (hlen : s.len.toNat ≤ 64) (hq : q < s.len.toNat)
    (hnone : Memory.read s.buf q = none) (hbelow : ∀ m, m < q → (Memory.read s.buf m).isSome) :
    ∃ w k, ChunkReached s.chunkBegun w (q / 4) k ∧
      Host.Core.run Sys2Proof.core (k + 1) s.chunkBegun =
        .next (({ w with off := BitVec.ofNat 7 (4 * (q / 4)) } : State).raiseFault (.unwrittenBufferByte q)) := by
  obtain ⟨w, k, hk⟩ := chunk_reached (q / 4) s.chunkBegun rfl (by rw [chunkBegun_j, chunkBegun_len]; omega) hlen
    fun m hm _ => hbelow m (by rw [chunkBegun_j] at hm; omega)
  have hindex : w.seq.j = q / 4 := by simpa using hk.index
  have hwlen : w.len = s.len := hk.frame.len
  have hwbuf : w.buf = s.buf := hk.frame.buf
  have hdiv : 4 * (q / 4) + q % 4 = q := Nat.div_add_mod q 4
  have hfault : frameWord s.buf (4 * (q / 4)) s.len.toNat = .error (.unwrittenBufferByte q) := by
    have h := frameWord_unwritten (buf := s.buf) (off := 4 * (q / 4)) (len := s.len.toNat) (Nat.mod_lt q (by decide))
      (by omega) (by rwa [hdiv]) fun m hm _ => hbelow _ (by omega)
    rwa [hdiv] at h
  have hend := stepChunkNext_fault (s := w) (by rw [hindex, hwlen]; omega) (by rw [hindex, hwlen, hwbuf]; exact hfault)
  rw [hindex] at hend
  exact ⟨w, k, hk, (hk.run_next hr).trans (congrArg _ hend)⟩

/-- Settles O45: the walk of the words before the faulting one, and the fault in the place of CmdEnd. -/
theorem sendChunkFaultsAtTheFirstUnwrittenByte : Obligations.SendChunkFaultsAtTheFirstUnwrittenByte := by
  intro s q hp hi ha hr hlen hq hnone hbelow
  obtain ⟨w, k, hk, hrun⟩ := run_sendChunk_fault hr hlen hq hnone hbelow
  obtain ⟨ev, htrace, hdata, hev⟩ := hk.begun_events
  have hedges (edge : Bool) : clockEdges edge .one ev = 32 * (q / 4) := by
    rw [hev.edges, List.length_map, List.length_range]
  have hfaulted : w.faulted = s.faulted := hk.faulted
  refine ⟨_, _, k + 1, ev, exec_sendChunk hp hi ha, Nat.succ_le_succ hk.atMost, hrun, rfl, rfl,
    by rw [raiseFault_faulted, hfaulted], htrace, hdata, hev.words,
    fun j hj => frameWord_bytes fun m _ hm _ => hbelow m (by omega),
    hedges false, hedges true, hev.noEnd .sendChunk, toNat_strideOffset (by omega), hk.begun_framew, hk.rxw, ?_,
    hk.begun_lines, hk.frame.txw, hk.frame.len, hk.frame.buf, hk.tries, hk.frame.refused, hk.frame.host, hk.frame.config⟩
  rw [raiseFault_status, hk.begun_status]
  rfl

end Sys2Proof.Machine
end

section
/-! What an event list says of the session (42_handshake_arbiter.md R191): where a session is open, and what appending events
keeps. -/

namespace Sys2Proof.Machine

variable {tr ev : List Event}

/-- The trace holds a rendezvous that ends an exchange of SENTINEL, after the most recent CmdBegin(CONNECTED). -/
def sessionOpen (tr : List Event) : Prop :=
  ∃ a k b, tr = a ++ [.xferEnd Config.sentinel, .rendezvous k] ++ b ∧ Event.cmdBegin .connected ∉ b

theorem handshakePrecedes_iff :
    handshakePrecedes tr ↔ ∀ before w after, tr = before ++ .dataWord w :: after → sessionOpen before := Iff.rfl

/-- Only CmdBegin(CONNECTED) closes a session. -/
theorem sessionOpen.append (h : sessionOpen tr) (hev : Event.cmdBegin .connected ∉ ev) : sessionOpen (tr ++ ev) := by
  obtain ⟨a, k, b, rfl, hb⟩ := h
  exact ⟨a, k, b ++ ev, by rw [List.append_assoc], by simp [hb, hev]⟩

/-- A rendezvous right after the end of an exchange of SENTINEL opens a session. -/
theorem sessionOpen_rendezvous (a : List Event) (k : Nat) :
    sessionOpen (a ++ [.xferEnd Config.sentinel, .rendezvous k]) :=
  ⟨a, k, [], (List.append_nil _).symm, List.not_mem_nil⟩

theorem handshakePrecedes_concat {e : Event} (h : handshakePrecedes tr) (he : ∀ w, e = .dataWord w → sessionOpen tr) :
    handshakePrecedes (tr ++ [e]) := by
  rw [handshakePrecedes_iff] at h ⊢
  intro before w after hsplit
  rcases List.eq_nil_or_concat after with rfl | ⟨rest, e', rfl⟩
  · obtain ⟨rfl, heq⟩ := List.append_inj' hsplit rfl
    exact he w (List.head_eq_of_cons_eq heq)
  · rw [List.concat_eq_append, ← List.cons_append, ← List.append_assoc] at hsplit
    exact h before w rest (List.append_inj' hsplit rfl).1

/-- Events with no data word among them keep handshake precedence. -/
theorem handshakePrecedes_append (h : handshakePrecedes tr) (hev : ∀ w, Event.dataWord w ∉ ev) :
    handshakePrecedes (tr ++ ev) := by
  induction ev generalizing tr with
  | nil => rwa [List.append_nil]
  | cons e rest ih =>
    have hhead : handshakePrecedes (tr ++ [e]) :=
      handshakePrecedes_concat h fun w he => absurd (he ▸ List.mem_cons_self) (hev w)
    rw [List.append_cons]
    exact ih hhead fun w hw => hev w (List.mem_cons_of_mem _ hw)

end Sys2Proof.Machine
end

section
/-! Every step keeps handshake precedence (42_handshake_arbiter.md R191): each phase and each command by the events it adds. -/

namespace Sys2Proof.Machine

variable {s t : State}

/-- A step that adds no data word, opens no session and closes none that is open, and does not go to SYNC_NEXT. -/
theorem State.TraceInv.extend (h : s.TraceInv) (ev : List Event) (htrace : t.trace = s.trace ++ ev)
    (hdata : ∀ w, Event.dataWord w ∉ ev)
    (hopen : t.status.arb = .streaming → s.status.arb = .streaming ∧ Event.cmdBegin .connected ∉ ev)
    (hphase : t.seq.phase ≠ .syncNext) : t.TraceInv where
  precedence := htrace ▸ handshakePrecedes_append h.precedence hdata
  streaming := fun harb =>
    have ⟨hsarb, hev⟩ := hopen harb
    htrace ▸ sessionOpen.append (h.streaming hsarb) hev
  afterSync := fun hp => absurd hp hphase

/-- A step that adds no event, leaves ARB and does not go to SYNC_NEXT. -/
theorem State.TraceInv.quiet (h : s.TraceInv) (htrace : t.trace = s.trace) (harb : t.status.arb = s.status.arb)
    (hphase : t.seq.phase ≠ .syncNext) : t.TraceInv :=
  h.extend [] (by rw [htrace, List.append_nil]) (fun _ => List.not_mem_nil)
    (fun ht => ⟨harb.symm.trans ht, List.not_mem_nil⟩) hphase

/-! ### The micro-steps -/

/-- DONE goes to SYNC_NEXT with the end of its exchange last in the trace. -/
theorem stepDone_traceInv (h : s.TraceInv) : (stepDone s).TraceInv := by
  rcases stepDone_cases s with ⟨-, e⟩ | ⟨-, e⟩ | ⟨-, e⟩ <;> rw [e]
  · exact h.extend _ rfl (by simp) (fun harb => ⟨harb, by simp⟩) nofun
  · exact
      { precedence := handshakePrecedes_append h.precedence (by simp)
        streaming := fun harb => sessionOpen.append (h.streaming harb) (by simp)
        afterSync := fun _ => ⟨s.trace, rfl⟩ }
  · exact h.extend _ rfl (by simp) (fun harb => ⟨harb, by simp⟩) nofun

/-- SYNC_NEXT opens the session when the exchange it judges returned SENTINEL. -/
theorem stepSyncNext_traceInv (h : s.TraceInv) (hp : s.seq.phase = .syncNext) : (stepSyncNext s).TraceInv := by
  rcases stepSyncNext_cases s with ⟨hrx, e⟩ | ⟨-, -, e⟩ | ⟨-, -, e⟩ <;> rw [e]
  · obtain ⟨a, ha⟩ := h.afterSync hp
    have hsentinel : s.rxw = Config.sentinel := of_decide_eq_true hrx
    have hsplit : s.trace ++ [.rendezvous (s.seq.tries + 1), .cmdEnd .sync] =
        a ++ [.xferEnd Config.sentinel, .rendezvous (s.seq.tries + 1)] ++ [.cmdEnd .sync] := by
      rw [ha, hsentinel, List.append_assoc, List.append_assoc]
      rfl
    exact
      { precedence := handshakePrecedes_append h.precedence (by simp)
        streaming := fun _ => hsplit ▸ (sessionOpen_rendezvous a _).append (by simp)
        afterSync := nofun }
  · exact h.extend _ rfl (by simp) nofun nofun
  · exact h.extend _ rfl (by simp) (fun harb => ⟨harb, by simp⟩) nofun

/-- A data word in STREAMING comes after the session's rendezvous. -/
theorem State.TraceInv.emitDataWord (h : s.TraceInv) (harb : s.status.arb = .streaming) (hp : s.seq.phase ≠ .syncNext)
    (w : Word) : (s.emit (.dataWord w)).TraceInv where
  precedence := handshakePrecedes_concat h.precedence fun _ _ => h.streaming harb
  streaming := fun _ => sessionOpen.append (h.streaming harb) (by simp)
  afterSync := fun he => absurd he hp

/-- CHUNK_NEXT, which runs in STREAMING, adds its data word to an open session. -/
theorem stepChunkNext_traceInv (h : s.TraceInv) (harb : s.status.arb = .streaming) (hp : s.seq.phase ≠ .syncNext) :
    (stepChunkNext s).TraceInv := by
  rcases stepChunkNext_cases s with ⟨-, e⟩ | ⟨w, -, -, e⟩ | ⟨r, -, -, e⟩ <;> rw [e]
  · exact h.extend _ rfl (by simp) (fun _ => ⟨harb, by simp⟩) nofun
  · refine (h.emitDataWord harb hp w).extend ((if w = Config.sentinel then [.collision w] else []) ++ [.xferBegin w])
      (by simp) (fun x => ?_) (fun _ => ⟨harb, ?_⟩) nofun
    · split <;> simp
    · split <;> simp
  · exact h.quiet rfl rfl nofun

theorem blockStep_traceInv (hinv : s.Inv) (h : s.TraceInv) : (blockStep s).TraceInv := by
  cases hp : s.seq.phase with
  | idle => rwa [blockStep_idle hp]
  | poll =>
    rw [blockStep_poll hp]
    rcases stepPoll_cases s with ⟨-, e⟩ | ⟨-, -, e⟩ | ⟨-, -, e⟩ <;> rw [e] <;>
      exact h.extend _ rfl (by simp) (fun harb => ⟨harb, by simp⟩) nofun
  | setup =>
    rw [blockStep_setup hp, stepSetup_eq]
    exact h.extend _ rfl (by simp) (fun harb => ⟨harb, by simp⟩) nofun
  | low =>
    rw [blockStep_low hp]
    exact h.extend [.drive .clkOut false] rfl (by simp) (fun harb => ⟨harb, by simp⟩) nofun
  | high =>
    rw [blockStep_high hp]
    exact h.extend [.drive .clkOut true] rfl (by simp) (fun harb => ⟨harb, by simp⟩) nofun
  | sample =>
    rw [blockStep_sample hp]
    rcases stepSample_cases s with ⟨-, e⟩ | ⟨-, e⟩ <;> rw [e] <;>
      exact h.extend _ rfl (by simp) (fun harb => ⟨harb, by simp⟩) nofun
  | restore =>
    rw [blockStep_restore hp, stepRestore_eq]
    exact h.extend _ rfl (by simp) (fun harb => ⟨harb, by simp⟩) nofun
  | done => rw [blockStep_done hp]; exact stepDone_traceInv h
  | syncNext => rw [blockStep_syncNext hp]; exact stepSyncNext_traceInv h hp
  | chunkNext =>
    obtain ⟨-, harb⟩ : s.seq.cmd = some .sendChunk ∧ s.status.arb = .streaming := by
      simpa only [commandMatches, hp] using hinv.command
    rw [blockStep_chunkNext hp]
    exact stepChunkNext_traceInv h harb (by rw [hp]; nofun)

/-! ### The host's moves -/

/-- ENCODE adds CmdBegin and, unless it faults, CmdEnd. -/
theorem encodeBody_traceInv (h : s.TraceInv) : (encodeBody (s.beginCommand .encode)).TraceInv := by
  unfold encodeBody
  split
  · exact h.extend [.cmdBegin .encode, .cmdEnd .encode] (by simp) (by simp) (fun harb => ⟨harb, by simp⟩) nofun
  · exact h.extend [.cmdBegin .encode] rfl (by simp) (fun harb => ⟨harb, by simp⟩) nofun

/-- No command adds a data word in its first step; CONNECTED, which closes the session, leaves ARB in SYNCING. -/
theorem commandBody_traceInv (op : Opcode) (h : s.TraceInv) : (commandBody op (s.beginCommand op)).TraceInv := by
  cases op with
  | init =>
    exact h.extend [.cmdBegin .init, .drive .clkOut true, .drive .dataOut true, .configure, .cmdEnd .init]
      (by simp [commandBody, initBody, Config.clkIdle, Config.doutIdle]) (by simp) nofun nofun
  | exchange =>
    exact h.extend [.cmdBegin .exchange, .xferBegin s.txw] (by simp [commandBody, exchangeBody]) (by simp)
      (fun harb => ⟨harb, by simp⟩) nofun
  | encode => exact encodeBody_traceInv h
  | sendChunk => exact h.extend [.cmdBegin .sendChunk] rfl (by simp) (fun harb => ⟨harb, by simp⟩) nofun
  | connected =>
    exact h.extend [.cmdBegin .connected, .cmdEnd .connected] (by simp [commandBody, connectedBody]) (by simp) nofun nofun
  | sync =>
    exact h.extend [.cmdBegin .sync, .xferBegin Config.sentinel] (by simp [commandBody, syncBody]) (by simp)
      (fun harb => ⟨harb, by simp⟩) nofun
  | close => exact h.extend [.cmdBegin .close, .cmdEnd .close] (by simp [commandBody, closeBody]) (by simp) nofun nofun
  | cooldownDone =>
    exact h.extend [.cmdBegin .cooldownDone, .cmdEnd .cooldownDone] (by simp [commandBody, cooldownDoneBody]) (by simp)
      nofun nofun

theorem EffectCase.traceInv {i : Instr} (e : EffectCase i s t) (h : s.TraceInv) (hp : s.seq.phase = .idle) :
    t.TraceInv := by
  have hidle : s.seq.phase ≠ .syncNext := by rw [hp]; nofun
  cases e with
  | command =>
    rename_i op _
    rcases commandEffect_cases op (commandBody op) s with ⟨r, -, e⟩ | ⟨-, e⟩ <;> rw [e]
    · exact h.quiet rfl rfl hidle
    · exact commandBody_traceInv op h
  | host => exact h.quiet rfl rfl hidle
  | refuse => exact h.quiet rfl rfl hidle
  | writeTxw => exact h.quiet rfl rfl hidle
  | writeOff => exact h.quiet rfl rfl hidle
  | writeLen => exact h.quiet rfl rfl hidle
  | writeBuf => exact h.quiet rfl rfl hidle
  | readFault => exact h.quiet rfl rfl nofun

/-- The trace after the reset event holds no data word, and no session is open. -/
theorem applyReset_traceInv (s : State) : s.applyReset.TraceInv :=
  have hreset := resetMeetsTheInvariants.2
  { precedence := hreset.precedence, streaming := nofun, afterSync := nofun }

/-- Settles O51: by the cases of a step; a data word is added by CHUNK_NEXT alone, which runs in STREAMING. -/
theorem everyStepKeepsHandshakePrecedence : Obligations.EveryStepKeepsHandshakePrecedence := by
  intro s t hinv h hstep
  have hpass : s.passReset.TraceInv := { h with }
  cases step_cases hstep with
  | reset => exact applyReset_traceInv _
  | micro => exact blockStep_traceInv (hinv.congr rfl) hpass
  | noMove => exact hpass
  | access _ hp i => exact (hostEffect_cases i _).traceInv { hpass with } hp
  | rejected _ _ d r =>
    rw [rejectAccess_eq]
    exact { hpass with }
  | branch => exact { hpass with }

end Sys2Proof.Machine
end

section
/-! The arbiter's commands that end in one step, the gate of the others (42_handshake_arbiter.md R181, R187 to R189), and
SYNC_NEXT (R183). -/

namespace Sys2Proof.Machine

variable {s : State} {op : Opcode}

/-- After INIT a command outside its ARB states is refused for the state. -/
theorem gate_wrongArbState (hop : op ≠ .init) (hi : s.status.initDone = true) (ha : arbAllowed op s.status.arb = false) :
    s.gate op = some (.wrongArbState op s.status.arb) := by
  simp [State.gate, hop, hi, ha]

theorem exec_wrongArbState (hop : op ≠ .init) (hp : s.seq.phase = .idle) (hi : s.status.initDone = true)
    (ha : arbAllowed op s.status.arb = false) :
    exec op.instr s = .next { s with refused := s.refused ++ [.wrongArbState op s.status.arb] } :=
  exec_gated op hp (gate_wrongArbState hop hi ha)

theorem encodeBody_refused (s : State) : (encodeBody s).refused = s.refused := by
  unfold encodeBody
  split <;> rfl

/-- Settles O21: the gate of each command, and CmdBegin of the two that run in every ARB state. -/
theorem gatedCommandsAreRefusedInOtherArbStates : Obligations.GatedCommandsAreRefusedInOtherArbStates := by
  intro s hp hi
  have hbegun : s.trace ≠ s.trace ++ [.cmdBegin .encode] := by simp
  refine ⟨fun ha => ⟨?_, ?_⟩, fun ha => ?_, fun ha => ?_, fun ha => ?_, ?_, ?_⟩
  · exact exec_wrongArbState (op := .sendChunk) nofun hp hi (decide_eq_false ha)
  · exact exec_wrongArbState (op := .close) nofun hp hi (decide_eq_false ha)
  · exact exec_wrongArbState (op := .connected) nofun hp hi (decide_eq_false ha)
  · exact exec_wrongArbState (op := .sync) nofun hp hi (decide_eq_false ha)
  · exact exec_wrongArbState (op := .cooldownDone) nofun hp hi (decide_eq_false ha)
  · exact ⟨_, exec_begins (op := .exchange) nofun hp hi rfl, rfl, rfl⟩
  · refine ⟨_, exec_begins (op := .encode) nofun hp hi rfl, encodeBody_refused _, fun hsame => ?_⟩
    have hgrown := (encodeBody_grows (s.beginCommand .encode)).trace.length_le
    simp only [commandBody] at hsame
    simp [hsame] at hgrown

/-- Settles O24: CONNECTED passes its gate, and its body ends it. -/
theorem connectedStartsASession : Obligations.ConnectedStartsASession := by
  intro s hp hi ha
  refine (exec_begins (op := .connected) nofun hp hi (decide_eq_true ha)).trans ?_
  simp [commandBody, connectedBody, State.beginCommand, State.endCommand]

/-- Settles O25: CLOSE passes its gate, and its body ends it. -/
theorem closeEndsTheSession : Obligations.CloseEndsTheSession := by
  intro s hp hi ha
  refine (exec_begins (op := .close) nofun hp hi (decide_eq_true ha)).trans ?_
  simp [commandBody, closeBody, State.beginCommand, State.endCommand]

/-- Settles O26: COOLDOWN_DONE passes its gate, and its body ends it. -/
theorem cooldownDoneReturnsToConnecting : Obligations.CooldownDoneReturnsToConnecting := by
  intro s hp hi ha
  refine (exec_begins (op := .cooldownDone) nofun hp hi (decide_eq_true ha)).trans ?_
  simp [commandBody, cooldownDoneBody, State.beginCommand, State.endCommand]

theorem isIdle_eq_true {w : Word} : isIdle w = true ↔ w = 0xDEADB00F := decide_eq_true_iff

theorem isIdle_eq_false {w : Word} : isIdle w = false ↔ w ≠ 0xDEADB00F := decide_eq_false_iff_not

theorem syncExpired_eq_true {limit : Option Nat} {tries : Nat} :
    syncExpired limit tries = true ↔ ∃ n, limit = some n ∧ n ≤ tries := by
  cases limit <;> simp [syncExpired]

theorem syncExpired_eq_false {limit : Option Nat} {tries : Nat} :
    syncExpired limit tries = false ↔ ∀ n, limit = some n → tries < n := by
  cases limit <;> simp [syncExpired]

/-- Settles O36: the three cases of SYNC_NEXT. -/
theorem syncNextJudgesTheExchange : Obligations.SyncNextJudgesTheExchange := by
  intro s hp hr
  have hstep {t : State} (h : stepSyncNext s.passReset = t) : step s = .next t :=
    step_micro hr (by simp [hp]) ((blockStep_syncNext (s := s.passReset) hp).trans h)
  rcases stepSyncNext_cases s.passReset with ⟨hrx, e⟩ | ⟨hrx, hl, e⟩ | ⟨hrx, hl, e⟩
  · have hsentinel : s.rxw = 0xDEADB00F := isIdle_eq_true.mp hrx
    exact ⟨fun _ => hstep e, fun hne => absurd hsentinel hne, fun hne => absurd hsentinel hne⟩
  · have hother : s.rxw ≠ 0xDEADB00F := isIdle_eq_false.mp hrx
    obtain ⟨n, (hn : s.params.syncLimit = some n), (hle : n ≤ s.seq.tries + 1)⟩ := syncExpired_eq_true.mp hl
    exact ⟨fun heq => absurd heq hother, fun _ _ => hstep e, fun _ hlt => absurd hle (Nat.not_le.mpr (hlt n hn))⟩
  · have hother : s.rxw ≠ 0xDEADB00F := isIdle_eq_false.mp hrx
    refine ⟨fun heq => absurd heq hother, fun _ ⟨n, hn, hle⟩ => ?_, fun _ _ => hstep e⟩
    exact absurd hle (Nat.not_le.mpr (syncExpired_eq_false.mp hl n hn))

end Sys2Proof.Machine
end

section
/-! A whole SYNC (42_handshake_arbiter.md R182 to R186, R193): the exchanges before the last, the one that ends it, and the
run with no end. -/

namespace Sys2Proof.Machine

variable {s w : State} {n k : Nat}

/-- The state in which SYNC starts its first exchange. -/
def State.syncBegun (s : State) : State :=
  { s.beginCommand .sync with seq := { (s.beginCommand .sync).seq with tries := 0 } }

/-- The state in which SYNC_NEXT judges the exchange of SENTINEL that starts in `w`. -/
def State.syncJudged (w : State) : State := (w.afterExchange Config.sentinel .sync).goto .syncNext

theorem exec_sync (hp : s.seq.phase = .idle) (hi : s.status.initDone = true) (ha : s.status.arb = .syncing) :
    exec .sync s = .next (s.syncBegun.xferBegin Config.sentinel .sync) :=
  exec_begins (op := .sync) nofun hp hi (decide_eq_true ha)

/-- SYNC's exchanges up to the n-th, none of which returned SENTINEL or reached the bound. -/
theorem sync_begun_reached (hne : ∀ m, m < n → s.peer.wordAt m ≠ 0xDEADB00F)
    (hl : ∀ limit, s.params.syncLimit = some limit → n < limit) : ∃ w k, SyncReached s.syncBegun w n k :=
  sync_reached n s.syncBegun hne fun m hm => syncExpired_eq_false.mpr fun limit hlimit => by
    have hlt : n < limit := hl limit hlimit
    change 0 + m + 1 < limit
    omega

theorem exchangeTrace_eq_concat (s : State) (tx : Word) :
    ∃ ev, s.exchangeTrace tx = ev ++ [.xferEnd (s.peer.wordAt 0)] := by
  refine ⟨.xferBegin tx :: (s.pollTrace ++ (List.range Config.wordBits).flatMap (periodTrace tx s.peer.dataAt) ++
    [.drive .clkOut true, .drive .dataOut true]), ?_⟩
  simp [State.exchangeTrace]

section Walk
variable (h : SyncReached s.syncBegun w n k)
include h

/-- With no reset to come, SYNC runs on through the exchange that starts in `w` and through SYNC_NEXT's own step. -/
theorem SyncReached.run_judged (hr : s.resets = []) :
    Host.Core.run Sys2Proof.core (k + (w.exchangeSteps + 1)) (s.syncBegun.xferBegin Config.sentinel .sync) =
      .next (stepSyncNext w.syncJudged) := by
  have hjudged : blockRun (k + w.exchangeSteps) (s.syncBegun.xferBegin Config.sentinel .sync) = w.syncJudged := by
    rw [blockRun_add, h.run, blockRun_exchange]
    rfl
  have hrun := run_block_succ (s := s.syncBegun.xferBegin Config.sentinel .sync) (n := k + w.exchangeSteps) hr
    (by rw [hjudged]; nofun)
  rwa [blockRun_add _ 1, hjudged, blockRun_one, blockStep_syncNext rfl] at hrun

theorem SyncReached.steps_le : k + (w.exchangeSteps + 1) ≤ (n + 1) * (s.params.busyPollMax + 132) := by
  have hbefore : k ≤ n * (s.params.busyPollMax + 132) := h.atMost
  have hlast := exchangeSteps_le w
  rw [h.params] at hlast
  change w.exchangeSteps ≤ s.params.busyPollMax + 131 at hlast
  rw [Nat.succ_mul]
  omega

theorem SyncReached.judged_tries : w.syncJudged.seq.tries = n := h.tries.trans (Nat.zero_add n)

theorem SyncReached.judged_rxw : w.syncJudged.rxw = s.peer.wordAt n := h.words 0

theorem SyncReached.judged_status :
    w.syncJudged.status = { s.status with active := true, idleDet := isIdle (s.peer.wordAt n) } := by
  obtain ⟨d, hd⟩ := h.status
  have hword : w.peer.wordAt 0 = s.peer.wordAt n := h.words 0
  rw [State.syncJudged, goto_status, afterExchange_status, hd, hword]
  rfl

/-- The events since SYNC began: n + 1 exchanges of SENTINEL, the last of which returned the word judged. -/
theorem SyncReached.judged_events :
    ∃ ev, w.syncJudged.trace = s.trace ++ ev ++ [.xferEnd (s.peer.wordAt n)] ∧
      sentWords ev = List.replicate (n + 1) 0xDEADB00F ∧ clockEdges false .one ev = 32 * (n + 1) := by
  obtain ⟨before, htrace, hev⟩ := h.events
  obtain ⟨last, hlast⟩ := exchangeTrace_eq_concat w Config.sentinel
  have hword : w.peer.wordAt 0 = s.peer.wordAt n := h.words 0
  rw [hword] at hlast
  have hall := hev.append (.one w Config.sentinel)
  rw [hlast, ← List.append_assoc, ← List.replicate_succ'] at hall
  have hwords := hall.words
  have hedges := hall.edges false
  refine ⟨.cmdBegin .sync :: (before ++ last), ?_, ?_, ?_⟩
  · rw [State.syncJudged, goto_trace, afterExchange_trace, htrace, hlast]
    simp [State.syncBegun]
  · simpa [sentWords_append, sentWords, Config.sentinel] using hwords
  · simpa [clockEdges_append, clockEdges] using hedges

end Walk

/-- Settles O46: m exchanges that returned another word, and SYNC_NEXT on the one that returned SENTINEL. -/
theorem syncEndsInTheRendezvous : Obligations.SyncEndsInTheRendezvous := by
  intro s m hp hi ha hr hm hne hl
  obtain ⟨w, k, hw⟩ := sync_begun_reached hne hl
  have hrun := hw.run_judged hr
  obtain ⟨ev, htrace, hwords, hedges⟩ := hw.judged_events
  have hrxw := hw.judged_rxw
  have hstatus := hw.judged_status
  rw [hm] at htrace hrxw hstatus
  rcases stepSyncNext_cases w.syncJudged with ⟨-, e⟩ | ⟨hidle, -⟩ | ⟨hidle, -⟩
  · rw [e, hw.judged_tries] at hrun
    obtain ⟨hframew, hoff, hfaulted⟩ := hw.regs
    refine ⟨_, _, _, ev, exec_sync hp hi ha, hw.steps_le, hrun, rfl, rfl, rfl, hrxw, by rw [hstatus]; rfl,
      by simp [htrace], hwords, hedges, rfl, hw.frame.txw, hframew, hoff, hw.frame.len, hw.frame.buf, hw.index, hfaulted,
      hw.frame.refused, hw.frame.host, hw.frame.config⟩
  · exact absurd hrxw (isIdle_eq_false.mp hidle)
  · exact absurd hrxw (isIdle_eq_false.mp hidle)

/-- Settles O47: n - 1 exchanges below the bound, and SYNC_NEXT at the bound. -/
theorem syncTimesOutAtTheHardenedBound : Obligations.SyncTimesOutAtTheHardenedBound := by
  intro s n hp hi ha hr hlimit hn hne
  obtain ⟨m, rfl⟩ : ∃ m, n = m + 1 := ⟨n - 1, by omega⟩
  obtain ⟨w, k, hw⟩ := sync_begun_reached (n := m) (fun q hq => hne q (by omega)) fun limit h => by
    obtain rfl : m + 1 = limit := Option.some.inj (hlimit.symm.trans h)
    omega
  have hrun := hw.run_judged hr
  obtain ⟨ev, htrace, hwords, hedges⟩ := hw.judged_events
  have hrxw := hw.judged_rxw
  have hother := hne m (by omega)
  have hstatus := hw.judged_status
  rw [isIdle_eq_false.mpr hother] at hstatus
  have hjudgedLimit : w.syncJudged.params.syncLimit = some (m + 1) := (congrArg _ hw.params).trans hlimit
  rcases stepSyncNext_cases w.syncJudged with ⟨hidle, -⟩ | ⟨-, -, e⟩ | ⟨-, hbelow, -⟩
  · exact absurd (hrxw.symm.trans (isIdle_eq_true.mp hidle)) hother
  · rw [e, hw.judged_tries] at hrun
    obtain ⟨hframew, hoff, hfaulted⟩ := hw.regs
    refine ⟨_, _, _, ev ++ [.xferEnd (s.peer.wordAt m)], exec_sync hp hi ha, hw.steps_le, hrun, rfl, rfl, rfl, hrxw,
      by rw [hstatus], by simp [htrace], by simpa [sentWords_append, sentWords] using hwords,
      by simpa [clockEdges_append, clockEdges] using hedges, hw.frame.txw, hframew, hoff, hw.frame.len, hw.frame.buf,
      hw.index, hfaulted, hw.frame.refused, hw.frame.host, hw.frame.config⟩
  · have hlt := syncExpired_eq_false.mp hbelow (m + 1) hjudgedLimit
    rw [hw.judged_tries] at hlt
    exact absurd hlt (Nat.lt_irrefl _)

/-- Settles O48: the exchanges take 131 steps each at least, and in all of them SYNC runs. -/
theorem referenceSyncSpinsWithoutTheSentinel : Obligations.ReferenceSyncSpinsWithoutTheSentinel := by
  intro s bound hp hi ha hr hlimit hne
  obtain ⟨w, k, hw⟩ := sync_begun_reached hne fun limit h => absurd (hlimit.symm.trans h) nofun
  refine ⟨_, exec_sync hp hi ha, fun q hq => ?_⟩
  have hrunning {m : Nat} (hm : m ≤ q) :
      (blockRun m (s.syncBegun.xferBegin Config.sentinel .sync)).seq.phase ≠ .idle :=
    blockRun_running (by have hleast := hw.atLeast; omega) hw.running
  obtain ⟨hcmd, harb, hsynced⟩ := blockRun_session q _ (hrunning le_rfl)
  exact ⟨_, run_block hr fun m hm => hrunning hm.le, hrunning le_rfl, hcmd, harb.trans ha, hsynced,
    (blockRun_frame q _).host⟩

end Sys2Proof.Machine
end

section
/-! The moves of ARB and the rise of SYNCED (42_handshake_arbiter.md R180, R190): the host's commands, and SYNC_NEXT. -/

namespace Sys2Proof.Machine

variable {s t : State} {i : Instr}

/-- A move of ARB by a command that ends in one step (R181, R187, R188). -/
inductive HostArbMove : ArbState → ArbState → Prop where
  | connected : HostArbMove .connecting .syncing
  | close : HostArbMove .streaming .cooldown
  | cooldownDone : HostArbMove .cooldown .connecting

/-- What a step of the host may do to ARB and SYNCED. -/
structure HostSession (s t : State) : Prop where
  arb : t.status.arb ≠ s.status.arb → HostArbMove s.status.arb t.status.arb
  synced : t.status.synced = true → s.status.synced = true

/-- A step of the host that leaves ARB and SYNCED. -/
theorem HostSession.of_same (ha : t.status.arb = s.status.arb) (hs : t.status.synced = s.status.synced) :
    HostSession s t := ⟨fun hne => absurd ha hne, fun ht => hs.symm.trans ht⟩

/-- A command that passes the gate moves ARB from the state its gate asks for. -/
theorem commandBody_session {op : Opcode} (h : s.Inv) (hg : s.gate op = none) :
    HostSession s (commandBody op (s.beginCommand op)) := by
  have hallowed (hop : op ≠ .init) : arbAllowed op s.status.arb = true := ((gate_none_of hop).mp hg).2
  cases op with
  | init =>
    obtain ⟨-, -, harb⟩ := h.beforeInit (gate_init.mp hg)
    exact .of_same harb.symm rfl
  | exchange => exact .of_same rfl rfl
  | encode =>
    simp only [commandBody, encodeBody]
    split
    · exact .of_same rfl rfl
    · exact .of_same rfl rfl
  | sendChunk => exact .of_same rfl rfl
  | connected =>
    have harb : s.status.arb = .connecting := of_decide_eq_true (hallowed nofun)
    exact ⟨fun _ => harb ▸ .connected, nofun⟩
  | sync => exact .of_same rfl rfl
  | close =>
    have harb : s.status.arb = .streaming := of_decide_eq_true (hallowed nofun)
    exact ⟨fun _ => harb ▸ .close, nofun⟩
  | cooldownDone =>
    have harb : s.status.arb = .cooldown := of_decide_eq_true (hallowed nofun)
    exact ⟨fun _ => harb ▸ .cooldownDone, id⟩

theorem EffectCase.session (e : EffectCase i s t) (h : s.Inv) : HostSession s t := by
  cases e with
  | command =>
    rename_i op _
    rcases commandEffect_cases op (commandBody op) s with ⟨r, -, e⟩ | ⟨hg, e⟩ <;> rw [e]
    · exact .of_same rfl rfl
    · exact commandBody_session h hg
  | host => exact .of_same rfl rfl
  | refuse => exact .of_same rfl rfl
  | writeTxw => exact .of_same rfl rfl
  | writeOff => exact .of_same rfl rfl
  | writeLen => exact .of_same rfl rfl
  | writeBuf => exact .of_same rfl rfl
  | readFault => exact .of_same rfl rfl

/-- The moves of ARB in one step, with the phase and the received word each needs (R180). -/
inductive ArbMove (s t : State) : Prop where
  | host (idle : s.seq.phase = .idle) (move : HostSession s t)
  | rendezvous (phase : s.seq.phase = .syncNext) (rxw : s.rxw = 0xDEADB00F) (before : s.status.arb = .syncing)
      (after : t.status.arb = .streaming)
  | timeout (phase : s.seq.phase = .syncNext) (rxw : s.rxw ≠ 0xDEADB00F) (limit : s.params.syncLimit ≠ none)
      (before : s.status.arb = .syncing) (after : t.status.arb = .cooldown) (synced : t.status.synced = false)
  | stays (arb : t.status.arb = s.status.arb) (synced : t.status.synced = s.status.synced)

/-- Of the micro-steps SYNC_NEXT alone moves ARB and SYNCED, and it runs in SYNCING. -/
theorem microStep_arbMove (h : s.Inv) : ArbMove s (blockStep s.passReset) := by
  by_cases hp : s.seq.phase = .syncNext
  · obtain ⟨-, harb⟩ : s.seq.cmd = some .sync ∧ s.status.arb = .syncing := by
      simpa only [commandMatches, hp] using h.command
    rw [blockStep_syncNext (s := s.passReset) hp]
    rcases stepSyncNext_cases s.passReset with ⟨hrx, e⟩ | ⟨hrx, hl, e⟩ | ⟨-, -, e⟩ <;> rw [e]
    · exact .rendezvous hp (isIdle_eq_true.mp hrx) harb rfl
    · exact .timeout hp (isIdle_eq_false.mp hrx) (syncExpired_limit hl) harb rfl rfl
    · exact .stays rfl rfl
  · have hwrites := (blockStep_writes s.passReset).session
    refine .stays ?_ ?_
    · by_contra hne
      exact hp (hwrites (.inr (.inl hne)))
    · by_contra hne
      exact hp (hwrites (.inl hne))

theorem step_arbMove (h : s.Inv) (hr : s.resets.head? ≠ some true) (hstep : step s = .next t) : ArbMove s t := by
  cases step_cases hstep with
  | reset due => exact absurd (due.symm.trans (resetDue_false hr)) nofun
  | micro => exact microStep_arbMove h
  | noMove => exact .stays rfl rfl
  | access _ idle i =>
    have move := (hostEffect_cases i s.passReset.advanceHost).session (h.congr rfl)
    exact .host idle ⟨move.arb, move.synced⟩
  | rejected _ _ d r =>
    rw [rejectAccess_eq]
    exact .stays rfl rfl
  | branch => exact .stays rfl rfl

/-- Settles O52: by the moves of ARB. -/
theorem arbiterMovesOnlyAlongItsMachine : Obligations.ArbiterMovesOnlyAlongItsMachine := by
  intro s t h hr hstep
  cases step_arbMove h hr hstep with
  | host idle move =>
    refine ⟨fun hne => ?_, fun hs ht => absurd (hs.symm.trans (move.synced ht)) nofun⟩
    have hmove := move.arb hne
    generalize s.status.arb = a, t.status.arb = b at hmove
    cases hmove with
    | connected => exact .inl ⟨rfl, rfl, idle⟩
    | close => exact .inr (.inr (.inr (.inl ⟨rfl, rfl, idle⟩)))
    | cooldownDone => exact .inr (.inr (.inr (.inr ⟨rfl, rfl, idle⟩)))
  | rendezvous phase rxw before after =>
    exact ⟨fun _ => .inr (.inl ⟨before, after, phase, rxw⟩), fun _ _ => ⟨phase, rxw⟩⟩
  | timeout phase rxw limit before after synced =>
    exact ⟨fun _ => .inr (.inr (.inl ⟨before, after, phase, rxw, limit⟩)),
      fun _ ht => absurd (synced.symm.trans ht) nofun⟩
  | stays arb synced =>
    exact ⟨fun hne => absurd arb hne, fun hs ht => absurd (hs.symm.trans (synced.symm.trans ht)) nofun⟩

end Sys2Proof.Machine
end

section
/-! The command dispatch of a CMD write (43_control.md R225), and INIT (R220). -/

namespace Sys2Proof.Machine

variable {s : State} {op : Opcode}

theorem gate_notInitialised (hop : op ≠ .init) (hi : s.status.initDone = false) :
    s.gate op = some (.notInitialised op.word) := by
  simp [State.gate, hop, hi]

theorem gate_alreadyInitialised (hi : s.status.initDone = true) : s.gate .init = some .alreadyInitialised := by
  simp [State.gate, hi]

/-- A command passes the checks exactly where INIT comes first and once, and every other in its ARB states. -/
theorem gate_none_iff :
    s.gate op = none ↔ (op = .init ↔ s.status.initDone = false) ∧ arbAllowed op s.status.arb = true := by
  by_cases hop : op = .init
  · subst hop
    simp [gate_init, arbAllowed]
  · simp [gate_none_of hop, hop]

/-- A CMD write of a reserved word records it, before every other check. -/
theorem exec_wrCmd_reserved {v : Word} (hp : s.seq.phase = .idle) (hv : opcodeOf v = none) :
    exec (.wrCmd v) s = .next (s.raiseRefuse (.reservedCommand v)) := by
  rw [exec_idle _ hp, hostEffect, hv]

/-- Settles O20: a reserved word selects no command, and the write of a command's word is that command, whose gate holds
the other checks in their order. -/
theorem cmdWriteDispatchesByTheFirstFailingCheck : Obligations.CmdWriteDispatchesByTheFirstFailingCheck := by
  intro s v hp
  refine ⟨fun hv => exec_wrCmd_reserved hp ((opcodeOf_eq_none v).mpr hv), ?_⟩
  rintro op rfl
  rw [exec_wrCmd_word]
  refine ⟨fun hop hi => ?_, fun hop hi => ?_, fun hop hi ha => ?_, fun hi ha => ?_, rfl⟩
  · exact exec_gated op hp (gate_notInitialised hop hi)
  · subst hop
    exact exec_gated .init hp (gate_alreadyInitialised hi)
  · exact exec_wrongArbState hop hp hi ha
  · exact exec_runs op hp (gate_none_iff.mpr ⟨hi, ha⟩)

/-- Settles O23: INIT passes its gate, and its body drives the two lines and ends it. -/
theorem initConfiguresTheLines : Obligations.InitConfiguresTheLines := by
  intro s hp hi
  refine (exec_runs .init hp (gate_init.mpr hi)).trans ?_
  simp [commandBody, initBody, State.beginCommand, State.line, State.emit, State.endCommand, Config.clkIdle,
    Config.doutIdle]

end Sys2Proof.Machine
end

section
/-! What the host may do to the block: nothing while a command runs (43_control.md R228), and by a refused instruction
nothing but the mark (R226). -/

namespace Sys2Proof.Machine

variable {s t : State}

/-- Settles O11: outside IDLE every instruction is held, and a step without a reset is a micro-step, whose frame holds
what the host owns. -/
theorem hostIsHeldWhileACommandRuns : Obligations.HostIsHeldWhileACommandRuns := by
  intro s hp
  refine ⟨fun i => exec_held i hp, fun hr => ⟨_, step_block (resetDue_false hr) hp, ?_⟩⟩
  have frame := blockStep_frame s.passReset
  exact ⟨frame.host, frame.txw, frame.len, frame.buf, frame.refused⟩

/-- What an instruction does to the refused mark: it leaves the mark, or it appends a reason and does nothing else, save
that an ill-formed `rdb` returns no byte (43_control.md R226; log entry 8). -/
inductive RefusalCase (s : State) : State → Prop where
  | kept {t : State} (refused : t.refused = s.refused) : RefusalCase s t
  | refuse (r : RefuseReason) : RefusalCase s (s.raiseRefuse r)
  | refuseRead (r : RefuseReason) : RefusalCase s ((s.raiseRefuse r).hostReadByte none)

/-- No command refuses once it has begun. -/
theorem commandBody_refused (op : Opcode) (s : State) : (commandBody op s).refused = s.refused := by
  cases op with
  | encode => exact encodeBody_refused s
  | init | exchange | sendChunk | connected | sync | close | cooldownDone => rfl

theorem commandEffect_refusalCase (op : Opcode) (s : State) : RefusalCase s (commandEffect op (commandBody op) s) := by
  rcases commandEffect_cases op (commandBody op) s with ⟨r, -, e⟩ | ⟨-, e⟩ <;> rw [e]
  · exact .refuse r
  · exact .kept (commandBody_refused op _)

theorem hostEffect_refusalCase (i : Instr) (s : State) : RefusalCase s (hostEffect i s) := by
  cases i with
  | init => exact commandEffect_refusalCase .init s
  | exchange => exact commandEffect_refusalCase .exchange s
  | encode => exact commandEffect_refusalCase .encode s
  | sendChunk => exact commandEffect_refusalCase .sendChunk s
  | connected => exact commandEffect_refusalCase .connected s
  | sync => exact commandEffect_refusalCase .sync s
  | close => exact commandEffect_refusalCase .close s
  | cooldownDone => exact commandEffect_refusalCase .cooldownDone s
  | wrCmd v =>
    simp only [hostEffect]
    split
    · exact .refuse _
    · exact commandEffect_refusalCase _ s
  | rdStatus | rdTxw | wrTxw | rdRxw | rdFramew | rdOff | rdLen => exact .kept rfl
  | wrOff | wrLen =>
    simp only [hostEffect]
    split
    · exact .refuse _
    · exact .kept rfl
  | wrbBuf =>
    simp only [hostEffect]
    split
    · exact .kept rfl
    · exact .refuse _
  | rdbBuf k =>
    simp only [hostEffect]
    split
    · split <;> exact .kept rfl
    · exact .refuseRead _

theorem exec_refusalCase {i : Instr} (h : exec i s = .next t) : RefusalCase s t := by
  obtain ⟨-, rfl⟩ := exec_next h
  exact hostEffect_refusalCase i s

/-- Settles O22: an instruction that moves the mark is a refusal. -/
theorem refusalsChangeNothingElse : Obligations.RefusalsChangeNothingElse := by
  intro i s t h hne
  cases exec_refusalCase h with
  | kept refused => exact absurd refused hne
  | refuse r => exact ⟨r, s.host.lastByte, rfl, .inl rfl⟩
  | refuseRead r => exact ⟨r, none, rfl, .inr rfl⟩

end Sys2Proof.Machine
end

section
/-! The host accesses of the registers (43_control.md R221, R222) and of BUF (R223, R224). -/

namespace Sys2Proof.Machine

/-- OFF and LEN read with zeros above their seven bits (10_state.md R24). -/
theorem setWidth_offset (o : BitVec Config.offsetBits) : o.setWidth Config.wordBits = (0 : BitVec 25) ++ o :=
  BitVec.setWidth_eq_append (by decide)

/-- Settles O15: each read is its effect on an idle block, and its descriptor is a register read of its address. -/
theorem registerReadsReturnTheirRegister : Obligations.RegisterReadsReturnTheirRegister := by
  intro s hp
  have reads {i : Instr} {w : Word} (h : hostEffect i s = s.hostRead (some w)) :
      exec i s = .next { s with host := { s.host with lastRead := some w } } := by rw [exec_idle i hp, h]; rfl
  have rd (a : BitVec 8) (v : Word) := decode_busDesc_register false a v
  exact ⟨reads rfl, reads rfl, reads rfl, reads rfl, reads (by rw [← setWidth_offset]; rfl),
    reads (by rw [← setWidth_offset]; rfl), fun v =>
    ⟨rd 0x04 v (by decide) rfl, rd 0x08 v (by decide) rfl, rd 0x0C v (by decide) rfl, rd 0x10 v (by decide) rfl,
      rd 0x14 v (by decide) rfl, rd 0x18 v (by decide) rfl, rd 0x00 v (by decide) rfl⟩⟩

/-- A value of at most 64 fits the seven bits of OFF and LEN. -/
theorem toNat_setWidth_offset {v : Word} (hv : v.toNat ≤ 64) : (v.setWidth 7).toNat = v.toNat := by
  rw [BitVec.toNat_setWidth]
  exact Nat.mod_eq_of_lt (by omega)

/-- Settles O16: each write is its effect on an idle block, by the comparison with the limit, and its descriptor is a
register write of its address. -/
theorem registerWritesStoreOrAreRefused : Obligations.RegisterWritesStoreOrAreRefused := by
  intro s v hp
  have above (hv : 64 < v.toNat) : offsetLimit < v := (offsetLimit_lt v).mpr hv
  have within (hv : v.toNat ≤ 64) : ¬offsetLimit < v := by rw [offsetLimit_lt]; omega
  have wr (a : BitVec 8) := decode_busDesc_register true a v
  refine ⟨exec_idle _ hp, fun hv => ⟨v.setWidth 7, toNat_setWidth_offset hv, ?_⟩,
    fun hv => ⟨v.setWidth 7, toNat_setWidth_offset hv, ?_⟩, fun hv => ?_, fun hv => ?_,
    wr 0x00 (by decide) rfl, wr 0x08 (by decide) rfl, wr 0x14 (by decide) rfl, wr 0x18 (by decide) rfl,
    wr 0x04 (by decide) rfl, wr 0x0C (by decide) rfl, wr 0x10 (by decide) rfl⟩
  · rw [exec_idle _ hp, hostEffect, if_neg (within hv)]
  · rw [exec_idle _ hp, hostEffect, if_neg (within hv)]
  · rw [exec_idle _ hp, hostEffect, if_pos (above hv), State.raiseRefuse]
  · rw [exec_idle _ hp, hostEffect, if_pos (above hv), State.raiseRefuse]

/-- Settles O17: the write is `Memory.write` of the byte. -/
theorem bufferWriteSetsItsByteOnly : Obligations.BufferWriteSetsItsByteOnly := by
  intro s k v hp hk
  have hindex : k < Config.bufSize := hk
  refine ⟨Memory.write s.buf k v, ?_, Memory.read_write_same s.buf k v, fun _ => Memory.read_write_other s.buf v⟩
  rw [exec_idle _ hp, hostEffect, if_pos hindex]

/-- Settles O18: the read is by whether the byte is written. -/
theorem bufferReadReturnsOrFaults : Obligations.BufferReadReturnsOrFaults := by
  intro s k hp hk
  have hindex : k < Config.bufSize := hk
  refine ⟨fun b hb => ?_, fun hb => ?_⟩
  · rw [exec_idle _ hp, hostEffect, if_pos hindex, hb]
    rfl
  · rw [exec_idle _ hp, hostEffect, if_pos hindex, hb]
    rfl

end Sys2Proof.Machine
end

section
/-! The exceptions (60_exceptions.md): a rejected access is a next state that records it (R242), and every step answers a
next state (R240). -/

namespace Sys2Proof.Machine

variable {s : State}

theorem hostMove_rejected {d : BitVec 10} {v : Word} {r : DecodeReject}
    (h : s.host.program[s.host.pc]? = some (.access d v)) (hd : decode (.bus d v) = .error r) :
    s.hostMove = .rejected d r := by
  simp [State.hostMove, h, hd]

/-- Settles O9: the host's move is the rejection, which `rejectAccess_eq` writes out. -/
theorem rejectedAccessIsRecordedOnly : Obligations.RejectedAccessIsRecordedOnly := by
  intro s d v r hr hp hfetch hd
  have hmove : s.passReset.hostMove = .rejected d r := hostMove_rejected hfetch hd
  rw [step_host (resetDue_false hr) hp, hmove]
  exact congrArg Host.Outcome.next (rejectAccess_eq s.passReset.advanceHost d r)

/-- In IDLE each of the host's moves answers a next state: `exec` holds an access only outside IDLE. -/
theorem step_host_next (hr : s.resetDue = false) (hp : s.seq.phase = .idle) : ∃ t, step s = .next t := by
  rw [step_host hr hp]
  cases s.passReset.hostMove with
  | access i => exact ⟨_, exec_idle i hp⟩
  | idle | rejected | branch => exact ⟨_, rfl⟩

/-- Settles O12: a step is the reset event, the host's move or a micro-step, and each answers a next state. -/
theorem everyStepAnswersANextState : Obligations.EveryStepAnswersANextState := by
  intro s
  cases hr : s.resetDue with
  | true => exact ⟨_, step_reset hr⟩
  | false =>
    by_cases hp : s.seq.phase = .idle
    · exact step_host_next hr hp
    · exact ⟨_, step_block hr hp⟩

end Sys2Proof.Machine
end

section
/-! Reset (70_reset_and_hazards.md): the reset event comes before everything (R270), and the block after it accepts INIT
alone (R271). -/

namespace Sys2Proof.Machine

/-- STATUS reads zero after reset (10_state.md R41). -/
@[simp] theorem Status.toWord_reset : State.reset.status.toWord = 0 := by decide

/-- No byte of BUF is written after reset (20_memory.md R61). -/
@[simp] theorem Memory.read_reset (k : Nat) : Memory.read State.reset.buf k = none := rfl

/-- Settles O13: in any phase the step is the reset event, and what it leaves of the block is `State.reset`. -/
theorem resetTakesPrecedence : Obligations.ResetTakesPrecedence := by
  intro s hr
  have hstep : step s = .next s.passReset.applyReset := step_reset (resetDue_true hr)
  exact ⟨_, hstep, rfl, rfl, rfl, rfl, rfl, rfl, Status.toWord_reset, Memory.read_reset, rfl, rfl, rfl, rfl⟩

/-- Settles O14: INIT_DONE is 0 after reset, so a command's word is that command, which its gate refuses. -/
theorem afterResetOnlyInitIsAccepted : Obligations.AfterResetOnlyInitIsAccepted := by
  refine ⟨rfl, rfl, rfl, fun op hop => ?_⟩
  have hgate : State.reset.gate op = some (.notInitialised op.word) := gate_notInitialised hop rfl
  rw [exec_wrCmd_word]
  exact exec_gated op rfl hgate

end Sys2Proof.Machine
end
